-- ==== Sys2Proof/Word.lean ====
section
/-! DEFINITION. The word types of WSFC (spec/00_scope.md rule R10). -/

namespace Sys2Proof

/-- A byte is 8 bits (R14). -/
abbrev Byte := BitVec 8

/-- The 64-bit unsigned quantities: `cur_offset`, `expected_len`, `capacity`, `payload_length`, counts (R10). -/
abbrev Len := BitVec 64

/-- A mask key, 32 bits (R10, `W_MASK`, `W_KEY`). -/
abbrev Key := BitVec 32

/-- A result code, 32 bits (R10, `W_RES`). -/
abbrev Code := BitVec 32

/-- The number of a decoder instance (R71, operand `inst`). -/
abbrev InstId := Nat

/-- The identity of a sink agent, opaque (R21): the machine only stores it and hands it out. -/
abbrev SinkCtx := Nat

/-- A reference to a caller-provided output buffer, opaque (R71, operand `buffer`). -/
abbrev BufferRef := Nat

end Sys2Proof
end

