-- ==== Sys2Proof/Config.lean ====
section
/-! DEFINITION. The parameters of spec/00_scope.md rule R10: fixed values, and the OPEN ones as constants without a body. -/

namespace Sys2Proof

/-- The number of decoder instances beyond the first: `P_INSTANCES` is OPEN, at least 1 (R10).
Safe: nothing can be proved about its value (log 5). -/
opaque Config.extraInstances : Nat

/-- `P_INSTANCES` (R10): OPEN, at least 1 (log 5). -/
def Config.numInstances : Nat := Config.extraInstances + 1

/-- `SINK_CODE_BASE` (R10, R181): OPEN, "no decoder rule reads it", and no definition of the machine does (log 22). -/
opaque Config.sinkCodeBase : Code

/-- `RES_SUCCESS` (R10, R181). -/
def resSuccess : Code := 0

/-- `RES_INVALID` (R10, R181). -/
def resInvalid : Code := 1

/-- The `parse_state` codes of R27. Codes 6 and 7 name no state. -/
def psStart : BitVec 3 := 0
/-- R27, code 1. -/
def psByte2 : BitVec 3 := 1
/-- R27, code 2. -/
def psExtLen : BitVec 3 := 2
/-- R27, code 3. -/
def psMask : BitVec 3 := 3
/-- R27, code 4. -/
def psPayload : BitVec 3 := 4
/-- R27, code 5. -/
def psError : BitVec 3 := 5

end Sys2Proof
end

