-- ==== Sys2Proof/Syntax.lean ====
section
/-! DEFINITION. The instructions of WSFC: one constructor per row of spec/opcode_table.json, and the raw forms
(a command record, a `parse_state` code, a header byte) they are decoded from (spec/30_encoding.md). -/

namespace Sys2Proof

/-- One row of the opcode table each. Commands carry the operands of R71; a header row carries the bits of the
byte that the row leaves free, so that with the row's fixed bits it spells the byte. -/
inductive Instr where
  /-- Command 0x01 (R100). -/
  | init (inst : InstId) (sinkCtx : SinkCtx)
  /-- Command 0x02 (R101). `n` is the chunk's length. -/
  | feed (inst : InstId) (chunk : List Byte)
  /-- Command 0x03 (R104). -/
  | reset (inst : InstId)
  /-- Command 0x04 (R105). -/
  | status (inst : InstId)
  /-- Command 0x10 (R161). -/
  | encUnmasked (capacity payloadLength : Len) (buffer : BufferRef)
  /-- Command 0x11 (R162). -/
  | encMasked (capacity payloadLength : Len) (buffer : BufferRef) (maskKey : Key)
  /-- Parse step of `parse_state` 0 (R121). -/
  | stepStart
  /-- Parse step of `parse_state` 1 (R124). -/
  | stepByte2
  /-- Parse step of `parse_state` 2 (R127). -/
  | stepExtLen
  /-- Parse step of `parse_state` 3 (R129). -/
  | stepMask
  /-- Parse step of `parse_state` 4 (R132). -/
  | stepPayload
  /-- `parse_state` 5, for which no step is defined (R138). -/
  | stepError
  /-- First header byte, RSV = 000, opcode 0x0 (R82). -/
  | hdr1Continuation (fin : Bool)
  /-- Opcode 0x1 (R82). -/
  | hdr1Text (fin : Bool)
  /-- Opcode 0x2 (R82). -/
  | hdr1Binary (fin : Bool)
  /-- Opcode 0x8 (R82). -/
  | hdr1Close (fin : Bool)
  /-- Opcode 0x9 (R82). -/
  | hdr1Ping (fin : Bool)
  /-- Opcode 0xA (R82). -/
  | hdr1Pong (fin : Bool)
  /-- RSV1 set, every other bit free (R122). -/
  | hdr1Rsv1Set (fin rsv2 rsv3 : Bool) (opcode : BitVec 4)
  /-- RSV2 set, every other bit free (R122). -/
  | hdr1Rsv2Set (fin rsv1 rsv3 : Bool) (opcode : BitVec 4)
  /-- RSV3 set, every other bit free (R122). -/
  | hdr1Rsv3Set (fin rsv1 rsv2 : Bool) (opcode : BitVec 4)
  /-- RSV = 000, opcode 0x3 (R123). -/
  | hdr1Reserved3 (fin : Bool)
  /-- RSV = 000, opcode 0x4 to 0x7 (R123): 0b01 above the two low bits. -/
  | hdr1Reserved4To7 (fin : Bool) (low : BitVec 2)
  /-- RSV = 000, opcode 0xB (R123). -/
  | hdr1ReservedB (fin : Bool)
  /-- RSV = 000, opcode 0xC to 0xF (R123): 0b11 above the two low bits. -/
  | hdr1ReservedCToF (fin : Bool) (low : BitVec 2)
  /-- Second header byte, LEN7 = 126 (R124). -/
  | hdr2Len16 (maskf : Bool)
  /-- LEN7 = 127 (R124). -/
  | hdr2Len64 (maskf : Bool)
  /-- LEN7 at most 125, the literal length (R125). -/
  | hdr2Len7Literal (maskf : Bool) (len7 : BitVec 7)
  /-- MASKF = 1, LEN7 free (R125). -/
  | hdr2Masked (len7 : BitVec 7)
  /-- MASKF = 0, LEN7 free (R125). -/
  | hdr2Unmasked (len7 : BitVec 7)
deriving DecidableEq, Repr

/-- A command as the host writes it: a record of its code and operands (R71). A command reads the operands of its
own row and no others (log 10). -/
structure RawCommand where
  /-- The command code (R70). -/
  op : Byte
  inst : InstId := 0
  sinkCtx : SinkCtx := 0
  /-- The chunk length operand of FEED, 64 bits (R71). -/
  n : Len := 0
  /-- The chunk's `n` bytes (R71). -/
  chunk : List Byte := []
  capacity : Len := 0
  payloadLength : Len := 0
  buffer : BufferRef := 0
  maskKey : Key := 0
deriving DecidableEq, Repr

/-- What a decoder of WSFC reads, by the table's format column. A second header byte is read twice: for the length it
selects and for the mask key it selects (R76, R77, R78). -/
inductive Raw where
  | command (c : RawCommand)
  | step (code : BitVec 3)
  | header1 (b : Byte)
  | header2Length (b : Byte)
  | header2Mask (b : Byte)
deriving DecidableEq, Repr

/-- Why a raw form spells no instruction. -/
inductive DecodeError where
  /-- A command code outside R70 (R73). -/
  | unknownCommand (op : Byte)
  /-- A FEED record whose chunk has not `n` bytes, so not a FEED of R71 (log 10). -/
  | chunkLength (inst : InstId)
  /-- A `parse_state` code that names no state (R88). -/
  | badState (code : BitVec 3)
deriving DecidableEq, Repr

/-- The decoder's answer. -/
inductive Decoded where
  | instr (i : Instr)
  | rejected (why : DecodeError)
deriving DecidableEq, Repr

end Sys2Proof
end

