-- ==== Sys2Proof/WellFormed.lean ====
section
/-! DEFINITION. The well-formed instructions: operands within the widths of spec/30_encoding.md rule R71, and header
rows in the form the decoder gives them. -/

namespace Sys2Proof

/-- The operand `inst` names one of the `P_INSTANCES` instances (R71, R194). -/
def instOk (d : InstId) : Bool := decide (d < Config.numInstances)

/-- The checks, per instruction. FEED: `0 ≤ n < 2^64` (R71). A byte with several reserved bits set is the row of the
first of them (log 12). The literal length row is for LEN7 at most 125 (R124). -/
def Instr.wf : Instr → Bool
  | .init d _ => instOk d
  | .feed d chunk => instOk d && decide (chunk.length < 2 ^ 64)
  | .reset d => instOk d
  | .status d => instOk d
  | .encUnmasked _ _ _ => true
  | .encMasked _ _ _ _ => true
  | .stepStart => true
  | .stepByte2 => true
  | .stepExtLen => true
  | .stepMask => true
  | .stepPayload => true
  | .stepError => true
  | .hdr1Continuation _ => true
  | .hdr1Text _ => true
  | .hdr1Binary _ => true
  | .hdr1Close _ => true
  | .hdr1Ping _ => true
  | .hdr1Pong _ => true
  | .hdr1Rsv1Set _ _ _ _ => true
  | .hdr1Rsv2Set _ rsv1 _ _ => !rsv1
  | .hdr1Rsv3Set _ rsv1 rsv2 _ => !rsv1 && !rsv2
  | .hdr1Reserved3 _ => true
  | .hdr1Reserved4To7 _ _ => true
  | .hdr1ReservedB _ => true
  | .hdr1ReservedCToF _ _ => true
  | .hdr2Len16 _ => true
  | .hdr2Len64 _ => true
  | .hdr2Len7Literal _ len7 => decide (len7.toNat ≤ 125)
  | .hdr2Masked _ => true
  | .hdr2Unmasked _ => true

end Sys2Proof
end

