-- ==== Sys2Proof/Decode.lean ====
section
/-! DEFINITION. The decoders of WSFC (spec/30_encoding.md): command codes (R70, R73), `parse_state` codes (R88) and
header bytes (R74 to R79, R82 to R85), the header bit fields they read, and the encoder. -/

namespace Sys2Proof

/-! ## Header bit fields (R75, R76; PRESUMED by the spec itself, log 17) -/

/-- FIN = `b1[7]` (R75). -/
def finOf (b : Byte) : Bool := b.getLsbD 7
/-- RSV1 = `b1[6]` (R75). -/
def rsv1Of (b : Byte) : Bool := b.getLsbD 6
/-- RSV2 = `b1[5]` (R75). -/
def rsv2Of (b : Byte) : Bool := b.getLsbD 5
/-- RSV3 = `b1[4]` (R75). -/
def rsv3Of (b : Byte) : Bool := b.getLsbD 4
/-- `b1[6:4]` (R84). -/
def rsvOf (b : Byte) : BitVec 3 := b.extractLsb' 4 3
/-- OPCODE = `b1[3:0]` (R75). -/
def opcodeOf (b : Byte) : BitVec 4 := b.extractLsb' 0 4
/-- MASKF = `b2[7]` (R76). -/
def maskfOf (b : Byte) : Bool := b.getLsbD 7
/-- LEN7 = `b2[6:0]` (R76). -/
def len7Of (b : Byte) : BitVec 7 := b.extractLsb' 0 7

/-- The three reserved bits, RSV1 first. -/
def rsvBits (rsv1 rsv2 rsv3 : Bool) : BitVec 3 := BitVec.ofBool rsv1 ++ BitVec.ofBool rsv2 ++ BitVec.ofBool rsv3
/-- The first header byte `{fin, rsv, opcode}` (R75). -/
def hdr1Byte (fin : Bool) (rsv : BitVec 3) (opcode : BitVec 4) : Byte := BitVec.ofBool fin ++ rsv ++ opcode
/-- The second header byte `{maskf, len7}` (R76, R87). -/
def hdr2Byte (maskf : Bool) (len7 : BitVec 7) : Byte := BitVec.ofBool maskf ++ len7

/-! ## Decoding -/

/-- R70, R73: the six command codes, every other code rejected. FEED has `n` chunk bytes (R71). -/
def decodeCommand (c : RawCommand) : Decoded :=
  if c.op = 0x01 then .instr (.init c.inst c.sinkCtx)
  else if c.op = 0x02 then
    if c.chunk.length = c.n.toNat then .instr (.feed c.inst c.chunk) else .rejected (.chunkLength c.inst)
  else if c.op = 0x03 then .instr (.reset c.inst)
  else if c.op = 0x04 then .instr (.status c.inst)
  else if c.op = 0x10 then .instr (.encUnmasked c.capacity c.payloadLength c.buffer)
  else if c.op = 0x11 then .instr (.encMasked c.capacity c.payloadLength c.buffer c.maskKey)
  else .rejected (.unknownCommand c.op)

/-- R88: the parse step is selected by `parse_state` alone; codes 6 and 7 name none. -/
def decodeStep (code : BitVec 3) : Decoded :=
  if code = psStart then .instr .stepStart
  else if code = psByte2 then .instr .stepByte2
  else if code = psExtLen then .instr .stepExtLen
  else if code = psMask then .instr .stepMask
  else if code = psPayload then .instr .stepPayload
  else if code = psError then .instr .stepError
  else .rejected (.badState code)

/-- A first header byte whose reserved bits are 000, by its opcode (R82, R83). -/
def decodeOpcode (fin : Bool) (op : BitVec 4) : Instr :=
  if op = 0x0 then .hdr1Continuation fin
  else if op = 0x1 then .hdr1Text fin
  else if op = 0x2 then .hdr1Binary fin
  else if op = 0x3 then .hdr1Reserved3 fin
  else if op.extractLsb' 2 2 = 0b01 then .hdr1Reserved4To7 fin (op.extractLsb' 0 2)
  else if op = 0x8 then .hdr1Close fin
  else if op = 0x9 then .hdr1Ping fin
  else if op = 0xA then .hdr1Pong fin
  else if op = 0xB then .hdr1ReservedB fin
  else .hdr1ReservedCToF fin (op.extractLsb' 0 2)

/-- R82 to R84: the row of a first header byte, the reserved bits before the opcode (R187), the first reserved bit
before the others (log 12). Total: every byte has a row. -/
def decodeHeader1 (b : Byte) : Instr :=
  if rsv1Of b then .hdr1Rsv1Set (finOf b) (rsv2Of b) (rsv3Of b) (opcodeOf b)
  else if rsv2Of b then .hdr1Rsv2Set (finOf b) (rsv1Of b) (rsv3Of b) (opcodeOf b)
  else if rsv3Of b then .hdr1Rsv3Set (finOf b) (rsv1Of b) (rsv2Of b) (opcodeOf b)
  else decodeOpcode (finOf b) (opcodeOf b)

/-- R77, R85: the row of a second header byte by the length it selects. Total: every byte is legal. -/
def decodeHeader2Length (b : Byte) : Instr :=
  if len7Of b = 126 then .hdr2Len16 (maskfOf b)
  else if len7Of b = 127 then .hdr2Len64 (maskfOf b)
  else .hdr2Len7Literal (maskfOf b) (len7Of b)

/-- R78, R85: the row of a second header byte by the mask key it selects. -/
def decodeHeader2Mask (b : Byte) : Instr :=
  if maskfOf b then .hdr2Masked (len7Of b) else .hdr2Unmasked (len7Of b)

/-- The decoder, total on every raw form, rejecting by name. -/
def decode : Raw → Decoded
  | .command c => decodeCommand c
  | .step code => decodeStep code
  | .header1 b => .instr (decodeHeader1 b)
  | .header2Length b => .instr (decodeHeader2Length b)
  | .header2Mask b => .instr (decodeHeader2Mask b)

/-! ## Encoding -/

/-- The raw form of an instruction, written from the tables of R70, R71, R88, R75 and R76. -/
def encode : Instr → Raw
  | .init d ctx => .command { op := 0x01, inst := d, sinkCtx := ctx }
  | .feed d chunk => .command { op := 0x02, inst := d, n := BitVec.ofNat 64 chunk.length, chunk := chunk }
  | .reset d => .command { op := 0x03, inst := d }
  | .status d => .command { op := 0x04, inst := d }
  | .encUnmasked cap len buf => .command { op := 0x10, capacity := cap, payloadLength := len, buffer := buf }
  | .encMasked cap len buf key =>
      .command { op := 0x11, capacity := cap, payloadLength := len, buffer := buf, maskKey := key }
  | .stepStart => .step 0
  | .stepByte2 => .step 1
  | .stepExtLen => .step 2
  | .stepMask => .step 3
  | .stepPayload => .step 4
  | .stepError => .step 5
  | .hdr2Len16 maskf => .header2Length (hdr2Byte maskf 126)
  | .hdr2Len64 maskf => .header2Length (hdr2Byte maskf 127)
  | .hdr2Len7Literal maskf len7 => .header2Length (hdr2Byte maskf len7)
  | .hdr2Masked len7 => .header2Mask (hdr2Byte true len7)
  | .hdr2Unmasked len7 => .header2Mask (hdr2Byte false len7)
  | .hdr1Continuation fin => .header1 (hdr1Byte fin 0b000 0x0)
  | .hdr1Text fin => .header1 (hdr1Byte fin 0b000 0x1)
  | .hdr1Binary fin => .header1 (hdr1Byte fin 0b000 0x2)
  | .hdr1Close fin => .header1 (hdr1Byte fin 0b000 0x8)
  | .hdr1Ping fin => .header1 (hdr1Byte fin 0b000 0x9)
  | .hdr1Pong fin => .header1 (hdr1Byte fin 0b000 0xA)
  | .hdr1Rsv1Set fin rsv2 rsv3 op => .header1 (hdr1Byte fin (rsvBits true rsv2 rsv3) op)
  | .hdr1Rsv2Set fin rsv1 rsv3 op => .header1 (hdr1Byte fin (rsvBits rsv1 true rsv3) op)
  | .hdr1Rsv3Set fin rsv1 rsv2 op => .header1 (hdr1Byte fin (rsvBits rsv1 rsv2 true) op)
  | .hdr1Reserved3 fin => .header1 (hdr1Byte fin 0b000 0x3)
  | .hdr1Reserved4To7 fin low => .header1 (hdr1Byte fin 0b000 (0b01#2 ++ low))
  | .hdr1ReservedB fin => .header1 (hdr1Byte fin 0b000 0xB)
  | .hdr1ReservedCToF fin low => .header1 (hdr1Byte fin 0b000 (0b11#2 ++ low))

/-! ## The opcode table's rows -/

/-- The word the table gives a raw form: the command code, the `parse_state` code, or the header byte. -/
def Raw.word : Raw → Byte
  | .command c => c.op
  | .step code => code.setWidth 8
  | .header1 b => b
  | .header2Length b => b
  | .header2Mask b => b

/-- `(match, mask)` of the instruction's row in spec/opcode_table.json. -/
def Instr.tableRow : Instr → Byte × Byte
  | .init _ _ => (0x01, 0xFF)
  | .feed _ _ => (0x02, 0xFF)
  | .reset _ => (0x03, 0xFF)
  | .status _ => (0x04, 0xFF)
  | .encUnmasked _ _ _ => (0x10, 0xFF)
  | .encMasked _ _ _ _ => (0x11, 0xFF)
  | .stepStart => (0x0, 0x7)
  | .stepByte2 => (0x1, 0x7)
  | .stepExtLen => (0x2, 0x7)
  | .stepMask => (0x3, 0x7)
  | .stepPayload => (0x4, 0x7)
  | .stepError => (0x5, 0x7)
  | .hdr1Continuation _ => (0x00, 0x7F)
  | .hdr1Text _ => (0x01, 0x7F)
  | .hdr1Binary _ => (0x02, 0x7F)
  | .hdr1Close _ => (0x08, 0x7F)
  | .hdr1Ping _ => (0x09, 0x7F)
  | .hdr1Pong _ => (0x0A, 0x7F)
  | .hdr1Rsv1Set _ _ _ _ => (0x40, 0x40)
  | .hdr1Rsv2Set _ _ _ _ => (0x20, 0x20)
  | .hdr1Rsv3Set _ _ _ _ => (0x10, 0x10)
  | .hdr1Reserved3 _ => (0x03, 0x7F)
  | .hdr1Reserved4To7 _ _ => (0x04, 0x7C)
  | .hdr1ReservedB _ => (0x0B, 0x7F)
  | .hdr1ReservedCToF _ _ => (0x0C, 0x7C)
  | .hdr2Len16 _ => (0x7E, 0x7F)
  | .hdr2Len64 _ => (0x7F, 0x7F)
  | .hdr2Len7Literal _ _ => (0x00, 0x00)
  | .hdr2Masked _ => (0x80, 0x80)
  | .hdr2Unmasked _ => (0x00, 0x80)

/-- The raw form one byte of the opcode table is read as. The table's four formats (CMD, STEP, HDR1, HDR2) share one
byte space, so one byte can spell up to four rows, told apart on the hardware only by when the machine reads it. This
function fixes the reading for a bare byte (DESIGN CHOICE, log 11): a command code first, with every operand zero; then
a `parse_state` code; then 0x7E, 0x7F and the bytes from 0x80 as second header bytes; every other byte as a first header byte. -/
def tableRaw (b : Byte) : Raw :=
  match decodeCommand { op := b } with
  | .instr _ => .command { op := b }
  | .rejected _ =>
    if b.toNat ≤ 5 then .step (b.setWidth 3)
    else if b.toNat < 126 then .header1 b
    else if b.toNat < 128 then .header2Length b
    else .header2Mask b

/-- What the decoder reads from a table word. Every row of the table is one byte; a wider word is none. -/
def decodeTableWord (_nbits w : Nat) : Option Instr :=
  if w < 256 then
    match decode (tableRaw (BitVec.ofNat 8 w)) with
    | .instr i => some i
    | .rejected _ => none
  else none

end Sys2Proof
end

