-- ==== Sys2Proof/Machine/State.lean ====
section
/-! DEFINITION. The state of WSFC (spec/10_state.md, spec/20_memory.md), its outputs and inputs, the reasons a step
can stop (spec/60_exceptions.md rule R190), and the state after reset (R38, R39). -/

namespace Sys2Proof.Machine

/-- The registers of a decoder instance: "exactly the following registers, and no others" (R20). -/
structure Regs where
  /-- 1 once INIT has run (R21). -/
  sinkBound : Bool
  /-- The identity of the bound sink agent (R21). -/
  sinkCtx : SinkCtx
  /-- Payload bytes already delivered for the frame in progress (R22). -/
  curOffset : Len
  /-- Declared payload length of the frame in progress (R23). -/
  expectedLen : Len
  /-- The mask key (R24). -/
  mask : Key
  /-- First header byte, captured verbatim (R25). -/
  headerByte1 : Byte
  /-- Second header byte, captured verbatim (R26). -/
  headerByte2 : Byte
  /-- The 3-bit state code (R27). -/
  parseState : BitVec 3
  /-- Bytes of a multi-byte field still needed (R28). -/
  remainingIntBytes : BitVec 4
  /-- 1 exactly while a sink invocation of this instance is outstanding (R29). -/
  inSink : Bool
deriving DecidableEq, Repr

/-- The transient state of a FEED in progress (R30, R31). -/
structure Feed where
  /-- The chunk `c[0..n-1]`; `n` is its length (R30, R51). -/
  chunk : List Byte
  /-- The parse cursor: index of the next unconsumed chunk byte (R31; a Nat, log 15). -/
  p : Nat
  /-- The sink's answer, from its arrival until the PAYLOAD step takes it (R131; log 3). -/
  answer : Option Code
deriving DecidableEq, Repr

/-- The ghost causes of an entry into ERROR (R182). -/
inductive Cause where
  /-- CAUSE_RSV: a reserved bit set (R122). -/
  | rsv
  /-- CAUSE_OPCODE: a reserved opcode (R123). -/
  | opcode
  /-- CAUSE_SINK: the sink rejected a slice (R135). -/
  | sink
deriving DecidableEq, Repr

/-- A decoder instance: its registers, the FEED it is in if any, and the ghost cause of its ERROR if any. -/
structure Decoder where
  regs : Regs
  feed : Option Feed
  /-- Ghost state, not hardware (R182; log 16). -/
  cause : Option Cause
deriving DecidableEq, Repr

/-- The status snapshot: the registers of R20 without `sink_ctx` (R41). -/
structure Snapshot where
  parseState : BitVec 3
  remainingIntBytes : BitVec 4
  headerByte1 : Byte
  headerByte2 : Byte
  mask : Key
  expectedLen : Len
  curOffset : Len
  sinkBound : Bool
  inSink : Bool
deriving DecidableEq, Repr

/-- The response of a command (R72). -/
inductive Response where
  /-- The result code of an INIT, FEED or RESET on an instance. -/
  | result (inst : InstId) (code : Code)
  /-- The snapshot a STATUS returns. -/
  | snapshot (inst : InstId) (snap : Snapshot)
  /-- `bytes_written_or_zero` of an Encoder command. -/
  | count (bytes : Len)
deriving DecidableEq, Repr

/-- One sink request (R131): the handle, the slice and the derived `last`; and, recorded beside it for claims, what
the sink can read while the invocation is outstanding: the slice's bytes (R53) and three registers by STATUS (log 20). -/
structure SinkRequest where
  inst : InstId
  sinkCtx : SinkCtx
  /-- The slice is `c[base .. base+k-1]`. -/
  base : Nat
  k : Nat
  /-- `cur_offset + k == expected_len` (R137). -/
  last : Bool
  /-- The chunk's bytes at the slice's indices, still masked (R53). -/
  bytes : List Byte
  curOffset : Len
  expectedLen : Len
  mask : Key
deriving DecidableEq, Repr

/-- What the outside does next (log 2). -/
inductive Input where
  /-- The host, or a sink during its invocation, issues a command (R70, R71). -/
  | command (c : RawCommand)
  /-- The sink of an instance answers its outstanding invocation (R131). -/
  | answer (inst : InstId) (code : Code)
  /-- The host or the sink writes the chunk last fed to an instance (R66). Unlike the other inputs it lands while a FEED
  executes too: after `delay` more of its parse steps, or when it stops executing, if that is sooner (log 21). -/
  | chunkWrite (inst : InstId) (delay : Nat)
deriving DecidableEq, Repr

/-- Bytes by index, indices strictly rising. An index that is not listed has not been written (log 8). -/
abbrev Memory := List Host.Cell

/-- The Encoder's output spaces by buffer reference, references strictly rising, none listed without a byte. -/
abbrev Buffers := List (BufferRef × Memory)

/-- The whole machine. -/
structure State where
  /-- The `P_INSTANCES` decoder instances (R10, R194). -/
  decoders : List Decoder
  /-- The instance whose FEED is executing its parse steps (log 1). -/
  running : Option InstId
  /-- What the outside does, next first (log 2). -/
  inputs : List Input
  /-- Every response so far, oldest first (log 20). -/
  responses : List Response
  /-- Every sink request so far, oldest first (log 20). -/
  requests : List SinkRequest
  /-- The Encoder's output space (R50b, R54). -/
  buffers : Buffers
deriving DecidableEq, Repr

/-- The faults of R190. -/
inductive Fault where
  /-- BadState: `parse_state` code 6 or 7 at step dispatch (R88, R190). Raised by `fetch`. Safe. -/
  | badState (code : BitVec 3)
deriving DecidableEq, Repr

/-- The refusals. -/
inductive Refusal where
  /-- An instruction whose meaning is not modelled yet. Raised by `exec` only; no arm is left. Safe. -/
  | notModelled (mnemonic : String)
  /-- Reentrant (R106, R190): FEED, RESET or INIT on an instance whose sink invocation is outstanding. Safe. -/
  | reentrant (inst : InstId)
  /-- NoSink (R103, R190): FEED on an instance never INITed. Safe. -/
  | noSink (inst : InstId)
  /-- ChunkMutated (R66, R190): the chunk is written during its FEED. Raised by `fetch`. Safe. -/
  | chunkMutated (inst : InstId)
  /-- UnknownCommand (R73, R190): a command code outside R70. Raised by `fetch`. Safe. -/
  | unknownCommand (op : Byte)
  /-- The command names an instance that does not exist (R71; log 5). Safe. -/
  | noSuchInstance (inst : InstId)
  /-- A FEED record without its `n` chunk bytes (R71; log 10). Raised by `fetch`. Safe. -/
  | malformedFeed (inst : InstId)
  /-- A sink answers while no invocation of its is outstanding (R131; log 4). Raised by `fetch`. Safe. -/
  | unexpectedAnswer (inst : InstId)
  /-- A parse step or header row where no FEED is executing (R120; log 14); `step` runs none there. Safe. -/
  | noFeedRunning
deriving DecidableEq, Repr

/-- The outcome of an instruction or a step. -/
abbrev Result := Host.Outcome State Fault Refusal

/-- What the fetch finds: an instruction to run in a state, or that the step is over without one. -/
inductive Fetched where
  | run (i : Instr) (s : State)
  | done (r : Result)

/-- The registers of a created instance (R38, R39). `sink_ctx` is unspecified there; 0 is a DESIGN CHOICE (log 6, unsafe). -/
def Regs.created : Regs where
  sinkBound := false
  sinkCtx := 0
  curOffset := 0
  expectedLen := 0
  mask := 0
  headerByte1 := 0
  headerByte2 := 0
  parseState := psStart
  remainingIntBytes := 0
  inSink := false

/-- A created instance: in no FEED, no error (R39). -/
def Decoder.created : Decoder := { regs := Regs.created, feed := none, cause := none }

/-- After reset: every instance created, nothing asked, answered or written (R39, R210). -/
def State.reset : State where
  decoders := List.replicate Config.numInstances Decoder.created
  running := none
  inputs := []
  responses := []
  requests := []
  buffers := []

end Sys2Proof.Machine
end

