-- ==== Sys2Proof/Machine/Flags.lean ====
section
/-! DEFINITION. The captured header flags (spec/10_state.md rule R33; WSFC has no condition codes) and the checks made
of them (spec/41_decoder_steps.md rules R122, R123, R125). -/

namespace Sys2Proof.Machine

/-- FIN of the captured first header byte (R25); no rule reads it (R33). -/
def Regs.fin (r : Regs) : Bool := finOf r.headerByte1
/-- RSV1..RSV3 of the captured first header byte (R25). -/
def Regs.rsv (r : Regs) : BitVec 3 := rsvOf r.headerByte1
/-- OPCODE of the captured first header byte (R25). -/
def Regs.opcode (r : Regs) : BitVec 4 := opcodeOf r.headerByte1
/-- MASKF of the captured second header byte (R26). -/
def Regs.maskf (r : Regs) : Bool := maskfOf r.headerByte2
/-- LEN7 of the captured second header byte (R26). -/
def Regs.len7 (r : Regs) : BitVec 7 := len7Of r.headerByte2

/-- The reserved-bit check (R122): some of RSV1, RSV2, RSV3 is set. -/
def reservedBitSet (b : Byte) : Bool := decide (rsvOf b ≠ 0)

/-- The accepted opcodes (R82). -/
def opcodeAccepted (op : BitVec 4) : Bool :=
  decide (op = 0x0 ∨ op = 0x1 ∨ op = 0x2 ∨ op = 0x8 ∨ op = 0x9 ∨ op = 0xA)

/-- The first header bytes the decoder accepts (R84). -/
def header1Legal (b : Byte) : Bool := !reservedBitSet b && opcodeAccepted (opcodeOf b)

/-- The states of the header steps, which run only when a byte is left (R120). -/
def isHeaderState (ps : BitVec 3) : Bool :=
  decide (ps = psStart ∨ ps = psByte2 ∨ ps = psExtLen ∨ ps = psMask)

end Sys2Proof.Machine
end

