-- ==== Sys2Proof/Machine/Operands.lean ====
section
/-! DEFINITION. How operands are read and written: big-endian fields a byte at a time (spec/20_memory.md rules R55,
R56), the header's field sizes (spec/30_encoding.md rules R77 to R81), payload slices (spec/20_memory.md rule R53) and
the Encoder's length forms (spec/42_encoder.md rule R160). -/

namespace Sys2Proof.Machine

/-! ## Big-endian fields -/

/-- One step of the extended length's accumulation: `(v << 8) | zext_64(b)` (R127). -/
def accLen (v : Len) (b : Byte) : Len := (v <<< 8) ||| b.setWidth 64

/-- One step of the mask key's accumulation: `(v << 8) | zext_32(b)` (R129). -/
def accKey (v : Key) (b : Byte) : Key := (v <<< 8) ||| b.setWidth 32

/-- The big-endian value of a byte string, first byte most significant (R14). -/
def beNat : List Byte → Nat
  | [] => 0
  | b :: bs => b.toNat * 256 ^ bs.length + beNat bs

/-- `mask_key` as 4 bytes, big-endian (R56, R162). -/
def keyBytes (k : Key) : List Byte :=
  [k.extractLsb' 24 8, k.extractLsb' 16 8, k.extractLsb' 8 8, k.extractLsb' 0 8]

/-- A length as 2 bytes, big-endian (R161, MEDIUM). -/
def lenBytes2 (v : Len) : List Byte := [v.extractLsb' 8 8, v.extractLsb' 0 8]

/-- A length as 8 bytes, big-endian (R161, LONG). -/
def lenBytes8 (v : Len) : List Byte :=
  [v.extractLsb' 56 8, v.extractLsb' 48 8, v.extractLsb' 40 8, v.extractLsb' 32 8,
   v.extractLsb' 24 8, v.extractLsb' 16 8, v.extractLsb' 8 8, v.extractLsb' 0 8]

/-! ## The header's sizes -/

/-- `E`, the bytes of the extended length (R77). -/
def extLenBytes (b2 : Byte) : Nat :=
  if len7Of b2 = 126 then 2 else if len7Of b2 = 127 then 8 else 0

/-- `M`, the bytes of the mask key (R78). -/
def maskBytes (b2 : Byte) : Nat := if maskfOf b2 then 4 else 0

/-- `H = 2 + E + M` (R79). -/
def headerBytes (b2 : Byte) : Nat := 2 + extLenBytes b2 + maskBytes b2

/-- `PL`, the declared payload length, from `b2` and the extended length bytes (R80). -/
def declaredLen (b2 : Byte) (x : List Byte) : Len :=
  if len7Of b2 = 126 ∨ len7Of b2 = 127 then BitVec.ofNat 64 (beNat x) else (len7Of b2).setWidth 64

/-! ## Slices -/

/-- The payload bytes still expected, `expected_len - cur_offset` (R132). -/
def Regs.rem (r : Regs) : Nat := (r.expectedLen - r.curOffset).toNat

/-- The bytes left in the chunk, `n - p` (R31). -/
def Feed.left (f : Feed) : Nat := f.chunk.length - f.p

/-- `k = min(left, rem)` (R132). -/
def sliceLen (r : Regs) (f : Feed) : Nat := min f.left r.rem

/-- `c[base .. base+k-1]` (R53). -/
def Feed.slice (f : Feed) (base k : Nat) : List Byte := (f.chunk.drop base).take k

/-- `cur_offset + k`, modulo 2^64 (R12; R133 says why it fits). -/
def Regs.advanced (r : Regs) (k : Nat) : Len := r.curOffset + BitVec.ofNat 64 k

/-! ## The Encoder's length forms -/

/-- The three forms of R160. -/
inductive LengthForm where
  | short
  | medium
  | long
deriving DecidableEq, Repr

/-- `FORM(PL)` (R160). -/
def lengthForm (pl : Len) : LengthForm :=
  if pl.toNat < 126 then .short else if pl.toNat ≤ 0xFFFF then .medium else .long

/-- `HLEN` (R160). -/
def formLen : LengthForm → Nat
  | .short => 1
  | .medium => 3
  | .long => 9

/-- The second header byte and the extended length for mask flag `m` (R87). -/
def lengthField (m : Bool) (pl : Len) : List Byte :=
  match lengthForm pl with
  | .short => [hdr2Byte m (pl.setWidth 7)]
  | .medium => hdr2Byte m 126 :: lenBytes2 pl
  | .long => hdr2Byte m 127 :: lenBytes8 pl

/-! ## The collaborator's unmasking (R218). No rule of WSFC performs it (R5); nothing in the machine calls these. -/

/-- Key byte `j`, 0 to 3: `mask[31-8j : 24-8j]` (R218). -/
def keyByte (mask : Key) (j : Nat) : Byte := mask.extractLsb' (24 - 8 * (j % 4)) 8

/-- The slice unmasked, its first byte at offset `off` of the payload (R218; PRESUMED by the spec itself, log 19). -/
def unmask (mask : Key) (off : Nat) : List Byte → List Byte
  | [] => []
  | b :: bs => (b ^^^ keyByte mask off) :: unmask mask (off + 1) bs

end Sys2Proof.Machine
end

