-- ==== Sys2Proof/Machine/Ops.lean ====
section
/-! DEFINITION. The named operations every meaning is written over: the Encoder's output space, instances and
responses, the parse steps as functions on registers, the FEED loop, the entry into ERROR and the way out, and the sink
handshake (spec/20_memory.md, spec/40_commands.md, spec/41_decoder_steps.md, spec/60_exceptions.md). -/

namespace Sys2Proof.Machine

/-! ## Sparse data by key -/

/-- The value listed for a key. -/
def sparseGet {α : Type} (k : Nat) : List (Nat × α) → Option α
  | [] => none
  | (k', v) :: rest => if k' = k then some v else sparseGet k rest

/-- List a value for a key, keeping the keys strictly rising. -/
def sparsePut {α : Type} (k : Nat) (v : α) : List (Nat × α) → List (Nat × α)
  | [] => [(k, v)]
  | (k', v') :: rest =>
    if k < k' then (k, v) :: (k', v') :: rest
    else if k = k' then (k, v) :: rest
    else (k', v') :: sparsePut k v rest

/-- The canonical form: keys strictly rising. -/
def sparseRising {α : Type} : List (Nat × α) → Bool
  | [] => true
  | [_] => true
  | (k, _) :: (k', v') :: rest => decide (k < k') && sparseRising ((k', v') :: rest)

/-! ## The Encoder's output space (R50b, R54) -/

/-- The byte written at an index; none where the Encoder has written none, the caller's own byte (log 8). -/
def Memory.read (m : Memory) (i : Nat) : Option Byte := sparseGet i m

/-- Write a byte at an index. -/
def Memory.write (m : Memory) (i : Nat) (v : Byte) : Memory := sparsePut i v m

/-- The canonical form of one output space. No listed byte reads as an unlisted index does, which is no value. -/
def Memory.wf (m : Memory) : Bool := sparseRising m

/-- The output space of a buffer reference. -/
def Buffers.of (bs : Buffers) (buf : BufferRef) : Memory := (sparseGet buf bs).getD []

/-- `BufWrite(i, v)` on the buffer `buf` (R54). -/
def Buffers.write (bs : Buffers) (buf : BufferRef) (i : Nat) (v : Byte) : Buffers :=
  sparsePut buf ((Buffers.of bs buf).write i v) bs

/-- The canonical form of all output spaces. -/
def Buffers.wf (bs : Buffers) : Bool :=
  sparseRising bs && bs.all fun e => Memory.wf e.2 && !e.2.isEmpty

/-- `BufWrite` of successive bytes from index `i` (R161, R162). -/
def Buffers.writeFrom (bs : Buffers) (buf : BufferRef) (i : Nat) : List Byte → Buffers
  | [] => bs
  | v :: vs => Buffers.writeFrom (Buffers.write bs buf i v) buf (i + 1) vs

/-- Byte `i` of the buffer `buf`. -/
def State.bufRead (s : State) (buf : BufferRef) (i : Nat) : Option Byte := (Buffers.of s.buffers buf).read i

/-! ## Instances and responses -/

/-- Decoder instance `d`. -/
def State.decoder? (s : State) (d : InstId) : Option Decoder := s.decoders[d]?

/-- Replace decoder instance `d`, and no other (R40). -/
def State.setDecoder (s : State) (d : InstId) (x : Decoder) : State := { s with decoders := s.decoders.set d x }

/-- Give a command's response (R72). -/
def State.respond (s : State) (r : Response) : State := { s with responses := s.responses ++ [r] }

/-- The snapshot of an instance's registers (R41). -/
def Regs.snapshot (r : Regs) : Snapshot where
  parseState := r.parseState
  remainingIntBytes := r.remainingIntBytes
  headerByte1 := r.headerByte1
  headerByte2 := r.headerByte2
  mask := r.mask
  expectedLen := r.expectedLen
  curOffset := r.curOffset
  sinkBound := r.sinkBound
  inSink := r.inSink

/-- The reset values of R38, which RESET and INIT apply: every register but the sink binding. The only way out of
ERROR (R186). -/
def Regs.clear (r : Regs) : Regs :=
  { r with
    curOffset := 0, expectedLen := 0, mask := 0, headerByte1 := 0, headerByte2 := 0
    parseState := psStart, remainingIntBytes := 0, inSink := false }

/-- A command on an instance that INIT, RESET and FEED refuse while its sink invocation is outstanding (R106). -/
def State.withIdle (s : State) (d : InstId) (k : Decoder → Result) : Result :=
  match s.decoder? d with
  | none => .refused (.noSuchInstance d)
  | some x => if x.regs.inSink then .refused (.reentrant d) else k x

/-! ## The FEED in progress -/

/-- The FEED executing now: its instance, the instance's state, and the FEED (R30). -/
def State.current (s : State) : Option (InstId × Decoder × Feed) :=
  match s.running with
  | none => none
  | some d =>
    match s.decoder? d with
    | none => none
    | some x =>
      match x.feed with
      | none => none
      | some f => some (d, x, f)

/-- Do something in the FEED executing now; a parse step outside a FEED has no meaning (R120, log 14). -/
def State.inFeed (s : State) (k : InstId → Decoder → Feed → State) : Result :=
  match s.current with
  | none => .refused .noFeedRunning
  | some (d, x, f) => .next (k d x f)

/-- A FEED returns: its chunk and cursor are gone (R30) and its result is the response (R72). -/
def State.endFeed (s : State) (d : InstId) (x : Decoder) (code : Code) : State :=
  { s.setDecoder d { x with feed := none } with
    running := none, responses := s.responses ++ [.result d code] }

/-- The head of the FEED loop (R101): in a header state with no byte left the FEED suspends with `RES_SUCCESS` (R139);
otherwise the next parse step is to run (R120). -/
def State.resume (s : State) (d : InstId) (x : Decoder) (f : Feed) : State :=
  if isHeaderState x.regs.parseState && decide (f.chunk.length ≤ f.p) then s.endFeed d x resSuccess
  else { s.setDecoder d { x with feed := some f } with running := some d }

/-- The entry into ERROR (R183): `parse_state <- ERROR`, the FEED ends at once with its result, no other register
changes; the ghost cause is recorded (R182). -/
def State.enterError (s : State) (d : InstId) (x : Decoder) (cause : Cause) (code : Code) : State :=
  s.endFeed d { x with regs := { x.regs with parseState := psError }, cause := some cause } code

/-! ## The header steps on registers -/

/-- R121 to R123: capture the byte, check the reserved bits, then the opcode. The second part names the protocol
violation, if any; the entry into ERROR is `State.enterError`'s. -/
def startStep (b : Byte) (r : Regs) : Regs × Option Cause :=
  let r := { r with headerByte1 := b }
  if reservedBitSet b then (r, some .rsv)
  else if !opcodeAccepted (opcodeOf b) then (r, some .opcode)
  else ({ r with parseState := psByte2 }, none)

/-- `AFTER_LENGTH` (R125, R128): to MASK if the captured mask flag is set, else to PAYLOAD. -/
def afterLength (r : Regs) : Regs :=
  if r.maskf then { r with remainingIntBytes := 4, parseState := psMask }
  else { r with remainingIntBytes := 0, parseState := psPayload }

/-- R124, R125: capture the byte; a literal length, or 2 or 8 extended length bytes to come. -/
def byte2Step (b : Byte) (r : Regs) : Regs :=
  let r := { r with headerByte2 := b }
  if len7Of b = 126 then { r with remainingIntBytes := 2, parseState := psExtLen }
  else if len7Of b = 127 then { r with remainingIntBytes := 8, parseState := psExtLen }
  else afterLength { r with expectedLen := (len7Of b).setWidth 64 }

/-- R127, R128: one byte of the extended length. -/
def extLenStep (b : Byte) (r : Regs) : Regs :=
  let r := { r with expectedLen := accLen r.expectedLen b, remainingIntBytes := r.remainingIntBytes - 1 }
  if r.remainingIntBytes = 0 then afterLength r else r

/-- R129, R130: one byte of the mask key. -/
def maskStep (b : Byte) (r : Regs) : Regs :=
  let r := { r with mask := accKey r.mask b, remainingIntBytes := r.remainingIntBytes - 1 }
  if r.remainingIntBytes = 0 then { r with parseState := psPayload } else r

/-- A header step's register function without an error. -/
def noError (act : Byte → Regs → Regs) (b : Byte) (r : Regs) : Regs × Option Cause := (act b r, none)

/-! ## The header steps in a FEED -/

/-- The step has consumed one byte (R120) and given its registers and protocol violation: on with the FEED loop, or
into ERROR with `RES_INVALID` (R122, R123). -/
def State.afterHeader (s : State) (d : InstId) (x : Decoder) (f : Feed) (res : Regs × Option Cause) : State :=
  match res.2 with
  | none => s.resume d { x with regs := res.1 } { f with p := f.p + 1 }
  | some cause => s.enterError d { x with regs := res.1 } cause resInvalid

/-- A header step: consume `ChunkRead(p)` (R51, R120) and act on it; with no byte left the FEED suspends (R139). -/
def State.headerStep (s : State) (act : Byte → Regs → Regs × Option Cause) : Result :=
  s.inFeed fun d x f =>
    match f.chunk[f.p]? with
    | some b => s.afterHeader d x f (act b x.regs)
    | none => s.resume d x f

/-- A header row: the header step on the byte the row spells (log 12). -/
def State.headerRow (s : State) (act : Byte → Regs → Regs × Option Cause) (b : Byte) : Result :=
  s.inFeed fun d x f =>
    if f.p < f.chunk.length then s.afterHeader d x f (act b x.regs) else s.resume d x f

/-! ## The sink handshake and the payload -/

/-- The sink request of a PAYLOAD step (R131, R132). -/
def sinkRequest (d : InstId) (r : Regs) (f : Feed) : SinkRequest where
  inst := d
  sinkCtx := r.sinkCtx
  base := f.p
  k := sliceLen r f
  last := decide (r.advanced (sliceLen r f) = r.expectedLen)
  bytes := f.slice f.p (sliceLen r f)
  curOffset := r.curOffset
  expectedLen := r.expectedLen
  mask := r.mask

/-- The first half of a PAYLOAD step: `in_sink <- 1`, the request goes out, and the FEED waits (R131, R132). -/
def State.sinkInvoke (s : State) (d : InstId) (x : Decoder) (f : Feed) : State :=
  { s.setDecoder d { x with regs := { x.regs with inSink := true }, feed := some f } with
    running := none, requests := s.requests ++ [sinkRequest d x.regs f] }

/-- Frame completion (R134): the per-frame registers cleared, back to START; the header bytes stay. -/
def Regs.completeFrame (r : Regs) : Regs :=
  { r with curOffset := 0, expectedLen := 0, mask := 0, parseState := psStart }

/-- The second half of a PAYLOAD step, the sink having answered `code`: rejection (R135), partial outcome (R133) or
complete outcome (R134). -/
def State.sinkAnswered (s : State) (d : InstId) (x : Decoder) (f : Feed) (code : Code) : State :=
  let r := { x.regs with inSink := false }
  let k := sliceLen r f
  if code ≠ resSuccess then s.enterError d { x with regs := r } .sink code
  else if f.left < r.rem then s.endFeed d { x with regs := { r with curOffset := r.advanced k } } resSuccess
  else s.resume d { x with regs := r.completeFrame } { f with p := f.p + k, answer := none }

/-- A PAYLOAD step (R132), in two halves around the sink's answer; with no answer yet it goes on waiting (R217). -/
def State.payloadStep (s : State) : Result :=
  s.inFeed fun d x f =>
    if x.regs.inSink then
      match f.answer with
      | none => { s with running := none }
      | some code => s.sinkAnswered d x f code
    else s.sinkInvoke d x f

/-! ## The Encoder -/

/-- An Encoder command whose output has `h` bytes: with too little capacity it writes nothing and returns 0
(R163); otherwise it writes bytes `0..h-1` and returns `h` (R164). -/
def State.emit (s : State) (capacity : Len) (buf : BufferRef) (h : Nat) (bytes : List Byte) : State :=
  if capacity.toNat < h then s.respond (.count 0)
  else { s with buffers := Buffers.writeFrom s.buffers buf 0 bytes }.respond (.count (BitVec.ofNat 64 h))

end Sys2Proof.Machine
end

