-- ==== Sys2Proof/Machine/Commands.lean ====
section
/-! DEFINITION. The decoder's host commands (spec/40_commands.md): INIT, FEED, RESET, STATUS. -/

namespace Sys2Proof.Machine

/-- INIT (R100): bind the sink and give every other register its reset value; also leaves ERROR (R186). -/
def execInit (d : InstId) (ctx : SinkCtx) (s : State) : Result :=
  s.withIdle d fun x =>
    .next ((s.setDecoder d { x with regs := { x.regs.clear with sinkBound := true, sinkCtx := ctx }, cause := none }).respond
      (.result d resSuccess))

/-- FEED (R101): refused while re-entrant (R106) or unbound (R103), in that order (R187); in ERROR it returns
`RES_INVALID` at once (R102); otherwise the chunk is taken with the cursor at 0 and the step loop begins. -/
def execFeed (d : InstId) (chunk : List Byte) (s : State) : Result :=
  s.withIdle d fun x =>
    if !x.regs.sinkBound then .refused (.noSink d)
    else if x.regs.parseState = psError then .next (s.respond (.result d resInvalid))
    else .next (s.resume d x { chunk := chunk, p := 0, answer := none })

/-- RESET (R104): every register but the sink binding to its reset value; the only recovery from ERROR (R186). -/
def execReset (d : InstId) (s : State) : Result :=
  s.withIdle d fun x =>
    .next ((s.setDecoder d { x with regs := x.regs.clear, cause := none }).respond (.result d resSuccess))

/-- STATUS (R105): the snapshot of R41, at any time, with no side effect. -/
def execStatus (d : InstId) (s : State) : Result :=
  match s.decoder? d with
  | none => .refused (.noSuchInstance d)
  | some x => .next (s.respond (.snapshot d x.regs.snapshot))

end Sys2Proof.Machine
end

