-- ==== Sys2Proof/Machine/Encoder.lean ====
section
/-! DEFINITION. The Header Encoder's commands (spec/42_encoder.md). -/

namespace Sys2Proof.Machine

/-- ENC_UNMASKED (R161). -/
def execEncUnmasked (capacity pl : Len) (buf : BufferRef) (s : State) : Result :=
  .next (s.emit capacity buf (formLen (lengthForm pl)) (lengthField false pl))

/-- ENC_MASKED (R162): mask bit 1, and the key after the length. -/
def execEncMasked (capacity pl : Len) (buf : BufferRef) (key : Key) (s : State) : Result :=
  .next (s.emit capacity buf (formLen (lengthForm pl) + 4) (lengthField true pl ++ keyBytes key))

end Sys2Proof.Machine
end

