-- ==== Sys2Proof/Machine/Header1.lean ====
section
/-! DEFINITION. The rows of the first header byte (spec/30_encoding.md rules R82 to R84): each is the START step
(spec/41_decoder_steps.md rules R121 to R123) on the byte the row spells (log 12). -/

namespace Sys2Proof.Machine

/-- Opcode 0x0, accepted (R82). -/
def execHdr1Continuation (fin : Bool) (s : State) : Result := s.headerRow startStep (hdr1Byte fin 0b000 0x0)

/-- Opcode 0x1, accepted (R82). -/
def execHdr1Text (fin : Bool) (s : State) : Result := s.headerRow startStep (hdr1Byte fin 0b000 0x1)

/-- Opcode 0x2, accepted (R82). -/
def execHdr1Binary (fin : Bool) (s : State) : Result := s.headerRow startStep (hdr1Byte fin 0b000 0x2)

/-- Opcode 0x8, accepted (R82). -/
def execHdr1Close (fin : Bool) (s : State) : Result := s.headerRow startStep (hdr1Byte fin 0b000 0x8)

/-- Opcode 0x9, accepted (R82). -/
def execHdr1Ping (fin : Bool) (s : State) : Result := s.headerRow startStep (hdr1Byte fin 0b000 0x9)

/-- Opcode 0xA, accepted (R82). -/
def execHdr1Pong (fin : Bool) (s : State) : Result := s.headerRow startStep (hdr1Byte fin 0b000 0xA)

/-- RSV1 set, rejected (R122). -/
def execHdr1Rsv1Set (fin rsv2 rsv3 : Bool) (op : BitVec 4) (s : State) : Result :=
  s.headerRow startStep (hdr1Byte fin (rsvBits true rsv2 rsv3) op)

/-- RSV2 set, rejected (R122). -/
def execHdr1Rsv2Set (fin rsv1 rsv3 : Bool) (op : BitVec 4) (s : State) : Result :=
  s.headerRow startStep (hdr1Byte fin (rsvBits rsv1 true rsv3) op)

/-- RSV3 set, rejected (R122). -/
def execHdr1Rsv3Set (fin rsv1 rsv2 : Bool) (op : BitVec 4) (s : State) : Result :=
  s.headerRow startStep (hdr1Byte fin (rsvBits rsv1 rsv2 true) op)

/-- Opcode 0x3, rejected (R123). -/
def execHdr1Reserved3 (fin : Bool) (s : State) : Result := s.headerRow startStep (hdr1Byte fin 0b000 0x3)

/-- Opcodes 0x4 to 0x7, rejected (R123). -/
def execHdr1Reserved4To7 (fin : Bool) (low : BitVec 2) (s : State) : Result :=
  s.headerRow startStep (hdr1Byte fin 0b000 (0b01#2 ++ low))

/-- Opcode 0xB, rejected (R123). -/
def execHdr1ReservedB (fin : Bool) (s : State) : Result := s.headerRow startStep (hdr1Byte fin 0b000 0xB)

/-- Opcodes 0xC to 0xF, rejected (R123). -/
def execHdr1ReservedCToF (fin : Bool) (low : BitVec 2) (s : State) : Result :=
  s.headerRow startStep (hdr1Byte fin 0b000 (0b11#2 ++ low))

end Sys2Proof.Machine
end

