-- ==== Sys2Proof/Machine/Header2.lean ====
section
/-! DEFINITION. The rows of the second header byte (spec/30_encoding.md rules R76 to R79, R85): each is the BYTE2 step
(spec/41_decoder_steps.md rules R124, R125) on the byte the row spells (log 12, log 13). -/

namespace Sys2Proof.Machine

/-- LEN7 = 126: a 2-byte extended length follows (R124). -/
def execHdr2Len16 (maskf : Bool) (s : State) : Result := s.headerRow (noError byte2Step) (hdr2Byte maskf 126)

/-- LEN7 = 127: an 8-byte extended length follows (R124). -/
def execHdr2Len64 (maskf : Bool) (s : State) : Result := s.headerRow (noError byte2Step) (hdr2Byte maskf 127)

/-- LEN7 at most 125: the literal length (R125). -/
def execHdr2Len7Literal (maskf : Bool) (len7 : BitVec 7) (s : State) : Result :=
  s.headerRow (noError byte2Step) (hdr2Byte maskf len7)

/-- MASKF = 1: the mask key follows the length (R125). -/
def execHdr2Masked (len7 : BitVec 7) (s : State) : Result := s.headerRow (noError byte2Step) (hdr2Byte true len7)

/-- MASKF = 0: no mask key (R125). -/
def execHdr2Unmasked (len7 : BitVec 7) (s : State) : Result := s.headerRow (noError byte2Step) (hdr2Byte false len7)

end Sys2Proof.Machine
end

