-- ==== Sys2Proof/Machine/Steps.lean ====
section
/-! DEFINITION. The parse steps (spec/41_decoder_steps.md), each in the FEED that executes now. -/

namespace Sys2Proof.Machine

/-- START step (R121). -/
def execStepStart (s : State) : Result := s.headerStep startStep

/-- BYTE2 step (R124). -/
def execStepByte2 (s : State) : Result := s.headerStep (noError byte2Step)

/-- EXT_LEN step (R127). -/
def execStepExtLen (s : State) : Result := s.headerStep (noError extLenStep)

/-- MASK step (R129). -/
def execStepMask (s : State) : Result := s.headerStep (noError maskStep)

/-- PAYLOAD step (R132). -/
def execStepPayload (s : State) : Result := s.payloadStep

/-- ERROR, for which no step is defined (R138): the FEED loop returns `RES_INVALID`, changing no register (R101, "not
reachable: every entry to ERROR returns at once"; log 27). -/
def execStepError (s : State) : Result := s.inFeed fun d x _ => s.endFeed d x resInvalid

end Sys2Proof.Machine
end

