-- ==== Sys2Proof/Machine/Dispatch.lean ====
section
/-! DEFINITION. One arm per row of spec/opcode_table.json, one direct call of its meaning each. -/

namespace Sys2Proof.Machine

def exec (i : Instr) (s : State) : Host.Outcome State Fault Refusal :=
  match i with
  | .init inst sinkCtx => Sys2Proof.Machine.execInit inst sinkCtx s
  | .feed inst chunk => Sys2Proof.Machine.execFeed inst chunk s
  | .reset inst => Sys2Proof.Machine.execReset inst s
  | .status inst => Sys2Proof.Machine.execStatus inst s
  | .encUnmasked capacity payloadLength buffer => Sys2Proof.Machine.execEncUnmasked capacity payloadLength buffer s
  | .encMasked capacity payloadLength buffer maskKey => Sys2Proof.Machine.execEncMasked capacity payloadLength buffer maskKey s
  | .stepStart => Sys2Proof.Machine.execStepStart s
  | .stepByte2 => Sys2Proof.Machine.execStepByte2 s
  | .stepExtLen => Sys2Proof.Machine.execStepExtLen s
  | .stepMask => Sys2Proof.Machine.execStepMask s
  | .stepPayload => Sys2Proof.Machine.execStepPayload s
  | .stepError => Sys2Proof.Machine.execStepError s
  | .hdr1Continuation fin => Sys2Proof.Machine.execHdr1Continuation fin s
  | .hdr1Text fin => Sys2Proof.Machine.execHdr1Text fin s
  | .hdr1Binary fin => Sys2Proof.Machine.execHdr1Binary fin s
  | .hdr1Close fin => Sys2Proof.Machine.execHdr1Close fin s
  | .hdr1Ping fin => Sys2Proof.Machine.execHdr1Ping fin s
  | .hdr1Pong fin => Sys2Proof.Machine.execHdr1Pong fin s
  | .hdr1Rsv1Set fin rsv2 rsv3 opcode => Sys2Proof.Machine.execHdr1Rsv1Set fin rsv2 rsv3 opcode s
  | .hdr1Rsv2Set fin rsv1 rsv3 opcode => Sys2Proof.Machine.execHdr1Rsv2Set fin rsv1 rsv3 opcode s
  | .hdr1Rsv3Set fin rsv1 rsv2 opcode => Sys2Proof.Machine.execHdr1Rsv3Set fin rsv1 rsv2 opcode s
  | .hdr1Reserved3 fin => Sys2Proof.Machine.execHdr1Reserved3 fin s
  | .hdr1Reserved4To7 fin low => Sys2Proof.Machine.execHdr1Reserved4To7 fin low s
  | .hdr1ReservedB fin => Sys2Proof.Machine.execHdr1ReservedB fin s
  | .hdr1ReservedCToF fin low => Sys2Proof.Machine.execHdr1ReservedCToF fin low s
  | .hdr2Len16 maskf => Sys2Proof.Machine.execHdr2Len16 maskf s
  | .hdr2Len64 maskf => Sys2Proof.Machine.execHdr2Len64 maskf s
  | .hdr2Len7Literal maskf len7 => Sys2Proof.Machine.execHdr2Len7Literal maskf len7 s
  | .hdr2Masked len7 => Sys2Proof.Machine.execHdr2Masked len7 s
  | .hdr2Unmasked len7 => Sys2Proof.Machine.execHdr2Unmasked len7 s

end Sys2Proof.Machine
end

