-- ==== Sys2Proof/Machine/Fetch.lean ====
section
/-! DEFINITION. What the machine does next: the parse step of the FEED that executes, selected by `parse_state`
(spec/30_encoding.md rule R88), or the next input from outside (spec/00_scope.md rule R9). -/

namespace Sys2Proof.Machine

/-- A decoded instruction is run; a rejected raw form stops by its name (R73, R88, R190). -/
def fetchDecoded (raw : Raw) (s : State) : Fetched :=
  match decode raw with
  | .instr i => .run i s
  | .rejected (.unknownCommand op) => .done (.refused (.unknownCommand op))
  | .rejected (.chunkLength d) => .done (.refused (.malformedFeed d))
  | .rejected (.badState code) => .done (.fault (.badState code))

/-- The sink of instance `d` answers (R131): its PAYLOAD step goes on with the answer (log 3). An answer nobody waits
for is refused (log 4). -/
def fetchAnswer (d : InstId) (code : Code) (s : State) : Fetched :=
  match s.decoder? d with
  | none => .done (.refused (.unexpectedAnswer d))
  | some x =>
    match x.feed with
    | none => .done (.refused (.unexpectedAnswer d))
    | some f =>
      if x.regs.inSink then
        .run .stepPayload { s.setDecoder d { x with feed := some { f with answer := some code } } with running := some d }
      else .done (.refused (.unexpectedAnswer d))

/-- Somebody writes the chunk last fed to instance `d` (R66): refused while its FEED is in progress, of no effect
afterwards (R216; log 21). -/
def fetchChunkWrite (d : InstId) (s : State) : Fetched :=
  match (s.decoder? d).bind Decoder.feed with
  | none => .done (.next s)
  | some _ => .done (.refused (.chunkMutated d))

/-- The next input, already taken from the list. -/
def fetchInput (inp : Input) (s : State) : Fetched :=
  match inp with
  | .command c => fetchDecoded (.command c) s
  | .answer d code => fetchAnswer d code s
  | .chunkWrite d _ => fetchChunkWrite d s

/-- A parse step passes: the chunk write that comes next, if any, is one parse step nearer (log 21). -/
def passStep : List Input → List Input
  | .chunkWrite d (n + 1) :: rest => .chunkWrite d n :: rest
  | inputs => inputs

/-- The state a parse step runs in: only the delay of the next chunk write has changed (log 21). -/
def State.tick (s : State) : State := { s with inputs := passStep s.inputs }

/-- The next parse step of the FEED that instance `d` executes (R88, R120). -/
def fetchParseStep (d : InstId) (s : State) : Fetched :=
  match s.decoder? d with
  | none => .done (.refused .noFeedRunning)
  | some x => fetchDecoded (.step x.regs.parseState) s.tick

/-- While a FEED executes, a chunk write whose time has come lands (R66; log 21), and otherwise the next parse step runs
(log 1). While none executes the next input lands; with none left the machine waits, unchanged (R210, R217; log 2). -/
def fetch (s : State) : Fetched :=
  match s.running with
  | some d =>
    match s.inputs with
    | .chunkWrite e 0 :: rest => fetchChunkWrite e { s with inputs := rest }
    | _ => fetchParseStep d s
  | none =>
    match s.inputs with
    | [] => .done (.next s)
    | inp :: rest => fetchInput inp { s with inputs := rest }

/-- The inputs without the chunk writes that come first. -/
def afterChunkWrites : List Input → List Input
  | .chunkWrite _ _ :: rest => afterChunkWrites rest
  | inputs => inputs

/-- Place a raw form where the machine takes its next instruction from (log 23). A command becomes the next input. A
parse step or header byte needs a FEED executing on instance 0 in the right state: STEP rows with one byte 0x00 left
in the chunk, header rows with their own byte, and no chunk write that would land first. -/
def placeRaw (raw : Raw) (s : State) : State :=
  let x := s.decoders.headD Decoder.created
  let feeding (ps : BitVec 3) (b : Byte) : State :=
    { s with
      decoders := { x with
        regs := { x.regs with parseState := ps, inSink := false }
        feed := some { chunk := [b], p := 0, answer := none } } :: s.decoders.tail
      running := some 0
      inputs := afterChunkWrites s.inputs }
  match raw with
  | .command c => { s with running := none, inputs := .command c :: s.inputs }
  | .step code => feeding code 0
  | .header1 b => feeding psStart b
  | .header2Length b => feeding psByte2 b
  | .header2Mask b => feeding psByte2 b

end Sys2Proof.Machine
end

