-- ==== Sys2Proof/Machine/Step.lean ====
section
/-! DEFINITION. One step of the machine: fetch, then run. -/

namespace Sys2Proof.Machine

/-- One step: a parse step of the executing FEED, or one input from outside. -/
def step (s : State) : Host.Outcome State Fault Refusal :=
  match fetch s with
  | .run i t => exec i t
  | .done r => r

/-- `s` with the table word `w` placed where `step` takes its next instruction from (log 11, log 23). -/
def State.withFetchWord (s : State) (_nbits w : Nat) : State := placeRaw (tableRaw (BitVec.ofNat 8 w)) s

end Sys2Proof.Machine
end

