-- ==== Sys2Proof/Machine/Assembler.lean ====
section
/-! DEFINITION. The textual command syntax and the pseudo-commands of spec/30_encoding.md rules R89 and R90, read into
instructions. The machine never calls this. Names of sinks and the Encoder's fresh buffers are the caller's (log 25). -/

namespace Sys2Proof.Machine

/-! ## Pseudo-commands (R90) -/

/-- The consecutive `k`-byte pieces of a byte string, the last one holding the rest; `fuel` bounds their number. -/
def splitEvery (k : Nat) : Nat → List Byte → List (List Byte)
  | 0, _ => []
  | _ + 1, [] => []
  | fuel + 1, b :: bs => (b :: bs).take k :: splitEvery k fuel ((b :: bs).drop k)

/-- `FEEDSPLIT d, k, [bytes]` with `k ≥ 1` (R90). -/
def feedSplit (d : InstId) (k : Nat) (bytes : List Byte) : List Instr :=
  (splitEvery k bytes.length bytes).map (Instr.feed d)

/-- `FEEDBYTES d, [bytes]` (R90). -/
def feedBytes (d : InstId) (bytes : List Byte) : List Instr := feedSplit d 1 bytes

/-- `.frame`: the first header byte, what the Encoder writes for the payload's length, the payload (R90). -/
def frameBytes (fin : Bool) (rsv : BitVec 3) (op : BitVec 4) (key : Option Key) (payload : List Byte) : List Byte :=
  hdr1Byte fin rsv op ::
    match key with
    | none => lengthField false (BitVec.ofNat 64 payload.length) ++ payload
    | some k => lengthField true (BitVec.ofNat 64 payload.length) ++ keyBytes k ++ payload

/-! ## Tokens -/

/-- The tokens of a line of R89. -/
inductive Token where
  | word (cs : List Char)
  | quoted (cs : List Char)
  | comma
  | lbracket
  | rbracket
  | plus
  /-- A quoted string without its end. -/
  | bad
deriving DecidableEq, Repr

/-- The word collected so far, if any, before the tokens after it. -/
def flushWord (acc : List Char) (rest : List Token) : List Token :=
  if acc.isEmpty then rest else .word acc.reverse :: rest

/-- The tokens of a line; `;` begins a comment (R89). -/
def lexChars : Bool → List Char → List Char → List Token
  | true, _, [] => [.bad]
  | false, acc, [] => flushWord acc []
  | true, acc, c :: cs =>
    if c = Char.ofNat 34 then .quoted acc.reverse :: lexChars false [] cs else lexChars true (c :: acc) cs
  | false, acc, c :: cs =>
    if c = ';' then flushWord acc []
    else if c = Char.ofNat 34 then flushWord acc (lexChars true [] cs)
    else if c = ' ' then flushWord acc (lexChars false [] cs)
    else if c = ',' then flushWord acc (.comma :: lexChars false [] cs)
    else if c = '[' then flushWord acc (.lbracket :: lexChars false [] cs)
    else if c = ']' then flushWord acc (.rbracket :: lexChars false [] cs)
    else if c = '+' then flushWord acc (.plus :: lexChars false [] cs)
    else lexChars false (c :: acc) cs

/-- The tokens of a line. -/
def lexLine (line : String) : List Token := lexChars false [] line.toList

/-! ## Numbers and names -/

/-- The value of a digit in base 10 or 16. -/
def digitValue (base : Nat) (c : Char) : Option Nat :=
  let n := c.toNat
  let v := if 48 ≤ n ∧ n ≤ 57 then n - 48 else if 97 ≤ n ∧ n ≤ 102 then n - 87 else if 65 ≤ n ∧ n ≤ 70 then n - 55 else 99
  if v < base then some v else none

/-- Digits in a base, most significant first. -/
def readDigits (base acc : Nat) : List Char → Option Nat
  | [] => some acc
  | c :: cs =>
    match digitValue base c with
    | some v => readDigits base (acc * base + v) cs
    | none => none

/-- A number, decimal or `0x` hex (R89). -/
def readNumber : List Char → Option Nat
  | [] => none
  | '0' :: 'x' :: c :: cs => readDigits 16 0 (c :: cs)
  | cs => readDigits 10 0 cs

/-- A number below a bound. -/
def readBelow (bound : Nat) (cs : List Char) : Option Nat :=
  match readNumber cs with
  | some n => if n < bound then some n else none
  | none => none

/-- What follows a prefix. -/
def stripPrefix : List Char → List Char → Option (List Char)
  | [], cs => some cs
  | _ :: _, [] => none
  | p :: ps, c :: cs => if p = c then stripPrefix ps cs else none

/-- `name=<number below bound>`. -/
def readField (name : String) (bound : Nat) (cs : List Char) : Option Nat :=
  (stripPrefix name.toList cs).bind (readBelow bound)

/-- `d<i>` (R89). -/
def readInst : List Char → Option InstId
  | 'd' :: c :: cs => readDigits 10 0 (c :: cs)
  | _ => none

/-- `0x<8 hex digits>` (R89). -/
def readKey : List Char → Option Key
  | '0' :: 'x' :: cs => if cs.length = 8 then (readDigits 16 0 cs).map (BitVec.ofNat 32) else none
  | _ => none

/-- `key=0x<8 hex digits>`. -/
def readKeyField (cs : List Char) : Option Key := (stripPrefix "key=".toList cs).bind readKey

/-! ## Byte strings -/

/-- The bytes up to the closing bracket, each two hex digits. -/
def readBytes : List Token → Option (List Byte × List Token)
  | .rbracket :: ts => some ([], ts)
  | .word cs :: ts =>
    if cs.length = 2 then
      match readDigits 16 0 cs, readBytes ts with
      | some v, some (bs, rest) => some (BitVec.ofNat 8 v :: bs, rest)
      | _, _ => none
    else none
  | _ => none

/-- The bytes of a quoted ASCII string (R89). -/
def asciiBytes (cs : List Char) : Option (List Byte) :=
  if cs.all fun c => c.toNat < 128 then some (cs.map fun c => BitVec.ofNat 8 c.toNat) else none

/-- One piece: `[hex bytes]` or a quoted string. -/
def readPiece : List Token → Option (List Byte × List Token)
  | .lbracket :: ts => readBytes ts
  | .quoted cs :: ts => (asciiBytes cs).map fun bs => (bs, ts)
  | _ => none

/-- The operands of `.frame` (R90). -/
structure FrameSpec where
  fin : Option Bool
  op : Option (BitVec 4)
  rsv : BitVec 3
  key : Option Key
deriving DecidableEq, Repr

/-- One operand of `.frame`. -/
def setFrameField (cs : List Char) (spec : FrameSpec) : Option FrameSpec :=
  match readField "fin=" 2 cs, readField "op=" 16 cs, readField "rsv=" 8 cs, readKeyField cs with
  | some v, _, _, _ => some { spec with fin := some (v == 1) }
  | _, some v, _, _ => some { spec with op := some (BitVec.ofNat 4 v) }
  | _, _, some v, _ => some { spec with rsv := BitVec.ofNat 3 v }
  | _, _, _, some k => some { spec with key := some k }
  | none, none, none, none => none

/-- The operands of `.frame`, each followed by a comma. -/
def readFrameFields : List Token → FrameSpec → Option (FrameSpec × List Token)
  | .word cs :: .comma :: ts, spec =>
    match setFrameField cs spec with
    | some spec' => readFrameFields ts spec'
    | none => none
  | ts, spec => some (spec, ts)

/-- One piece of a chunk: a piece, or a `.frame` literal whose payload is one piece (R90; log 25). -/
def readChunkPiece : List Token → Option (List Byte × List Token)
  | .word cs :: ts =>
    if cs = ".frame".toList then
      match readFrameFields ts { fin := none, op := none, rsv := 0, key := none } with
      | some ({ fin := some fin, op := some op, rsv := rsv, key := key }, ts') =>
        match readPiece ts' with
        | some (payload, rest) => some (frameBytes fin rsv op key payload, rest)
        | none => none
      | _ => none
    else none
  | ts => readPiece ts

/-- A chunk: pieces joined with `++`, to the end of the line (R89). -/
def readChunk : Nat → List Token → Option (List Byte)
  | 0, _ => none
  | fuel + 1, ts =>
    match readChunkPiece ts with
    | some (bs, []) => some bs
    | some (bs, .plus :: .plus :: rest) => (readChunk fuel rest).map fun more => bs ++ more
    | _ => none

/-! ## Lines and programs -/

/-- The number a sink's name stands for. -/
def sinkOf (sinks : List (String × SinkCtx)) (name : List Char) : Option SinkCtx :=
  (sinks.find? fun e => e.1.toList = name).map Prod.snd

/-- A line's operands after its mnemonic; `fresh` is the Encoder command's own fresh buffer (R89). -/
def assembleOperands (sinks : List (String × SinkCtx)) (fresh : BufferRef) (mnemonic : List Char) (ts : List Token) :
    Option (List Instr) :=
  if mnemonic = "INIT".toList then
    match ts with
    | [.word d, .comma, .word name] => (readInst d).bind fun d => (sinkOf sinks name).map fun s => [.init d s]
    | _ => none
  else if mnemonic = "FEED".toList then
    match ts with
    | .word d :: .comma :: ts => (readInst d).bind fun d => (readChunk ts.length ts).map fun c => [.feed d c]
    | _ => none
  else if mnemonic = "RESET".toList then
    match ts with
    | [.word d] => (readInst d).map fun d => [.reset d]
    | _ => none
  else if mnemonic = "STATUS".toList then
    match ts with
    | [.word d] => (readInst d).map fun d => [.status d]
    | _ => none
  else if mnemonic = "ENC_UNMASKED".toList then
    match ts with
    | [.word cap, .comma, .word len] =>
      match readField "cap=" (2 ^ 64) cap, readField "len=" (2 ^ 64) len with
      | some c, some l => some [.encUnmasked (BitVec.ofNat 64 c) (BitVec.ofNat 64 l) fresh]
      | _, _ => none
    | _ => none
  else if mnemonic = "ENC_MASKED".toList then
    match ts with
    | [.word cap, .comma, .word len, .comma, .word key] =>
      match readField "cap=" (2 ^ 64) cap, readField "len=" (2 ^ 64) len, readKeyField key with
      | some c, some l, some k => some [.encMasked (BitVec.ofNat 64 c) (BitVec.ofNat 64 l) fresh k]
      | _, _, _ => none
    | _ => none
  else if mnemonic = "FEEDSPLIT".toList then
    match ts with
    | .word d :: .comma :: .word k :: .comma :: ts =>
      match readInst d, readNumber k, readChunk ts.length ts with
      | some d, some (k + 1), some c => some (feedSplit d (k + 1) c)
      | _, _, _ => none
    | _ => none
  else if mnemonic = "FEEDBYTES".toList then
    match ts with
    | .word d :: .comma :: ts => (readInst d).bind fun d => (readChunk ts.length ts).map fun c => feedBytes d c
    | _ => none
  else none

/-- One line: nothing, or a command or pseudo-command (R89, R90). -/
def assembleLine (sinks : List (String × SinkCtx)) (fresh : BufferRef) (line : String) : Option (List Instr) :=
  match lexLine line with
  | [] => some []
  | .word mnemonic :: ts => assembleOperands sinks fresh mnemonic ts
  | _ => none

/-- A program, one command per line, each line's Encoder command with a buffer of its own (R89). -/
def assemble (sinks : List (String × SinkCtx)) : BufferRef → List String → Option (List Instr)
  | _, [] => some []
  | fresh, line :: lines =>
    match assembleLine sinks fresh line, assemble sinks (fresh + 1) lines with
    | some is, some rest => some (is ++ rest)
    | _, _ => none

end Sys2Proof.Machine
end

