-- ==== Sys2Proof/Safety.lean ====
section
/-! DEFINITION. The terms claims are stated in: the laws of spec/10_state.md rules R35 to R37 as one invariant, the
state after a header step or an error spelled out without the machine's own operations, and a FEED driven to its end
by an environment that answers every sink invocation. The machine uses none of this. -/

namespace Sys2Proof.Machine

/-! ## The invariant -/

/-- The declared length agrees with the captured length field: LEN7 itself, or 16 bits of it (R37, R80). -/
abbrev Regs.lengthOk (r : Regs) : Prop :=
  (r.len7.toNat ≤ 125 → r.expectedLen = r.len7.setWidth 64) ∧ (r.len7.toNat = 126 → r.expectedLen.toNat ≤ 0xFFFF)

/-- `expected_len` is bounded by what 2 or 8 bytes less the ones still needed can spell (R37, EXT_LEN). -/
abbrev Regs.extLenOk (r : Regs) : Prop :=
  1 ≤ r.remainingIntBytes.toNat ∧
  ((r.len7.toNat = 126 ∧ r.remainingIntBytes.toNat ≤ 2 ∧ r.expectedLen.toNat < 256 ^ (2 - r.remainingIntBytes.toNat)) ∨
   (r.len7.toNat = 127 ∧ r.remainingIntBytes.toNat ≤ 8 ∧ r.expectedLen.toNat < 256 ^ (8 - r.remainingIntBytes.toNat)))

/-- The register laws that hold before and after every step: R27, R28, R35 and the rows of R37; PAYLOAD holds
`cur_offset = expected_len` only for a frame of length 0 (R136). Outside ERROR the captured first header byte is
one the decoder accepts (R84; 0x00 at reset is one of them). -/
abbrev Regs.lawful (r : Regs) : Prop :=
  r.parseState.toNat ≤ 5 ∧
  r.remainingIntBytes.toNat ≤ 8 ∧
  r.curOffset.toNat ≤ r.expectedLen.toNat ∧
  (r.parseState = psStart ∨ r.parseState = psByte2 →
    r.curOffset = 0 ∧ r.expectedLen = 0 ∧ r.mask = 0 ∧ r.remainingIntBytes = 0) ∧
  (r.parseState = psExtLen → r.curOffset = 0 ∧ r.mask = 0 ∧ r.extLenOk) ∧
  (r.parseState = psMask →
    r.curOffset = 0 ∧ r.maskf = true ∧ 1 ≤ r.remainingIntBytes.toNat ∧ r.remainingIntBytes.toNat ≤ 4 ∧
    r.mask.toNat < 256 ^ (4 - r.remainingIntBytes.toNat) ∧ r.lengthOk) ∧
  (r.parseState = psPayload →
    r.remainingIntBytes = 0 ∧ (r.maskf = false → r.mask = 0) ∧ r.lengthOk ∧
    (r.curOffset.toNat < r.expectedLen.toNat ∨ (r.curOffset = 0 ∧ r.expectedLen = 0))) ∧
  (r.parseState ≠ psError → header1Legal r.headerByte1 = true)

/-- An instance between commands (R37): no FEED, no invocation, and in PAYLOAD `cur_offset < expected_len`. -/
abbrev Decoder.betweenCommands (x : Decoder) : Prop :=
  x.regs.inSink = false ∧ (x.regs.parseState = psPayload → x.regs.curOffset.toNat < x.regs.expectedLen.toNat)

/-- An instance in a FEED: bound (R103), the cursor in the chunk and the chunk's length in 64 bits (R30, R31), not in
ERROR (R138), an invocation only in PAYLOAD (R131), a header step only with a byte left (R120). -/
abbrev Decoder.inFeedLawful (x : Decoder) (f : Feed) : Prop :=
  x.regs.sinkBound = true ∧ f.p ≤ f.chunk.length ∧ f.chunk.length < 2 ^ 64 ∧ f.answer = none ∧
  x.regs.parseState ≠ psError ∧ (x.regs.inSink = true → x.regs.parseState = psPayload) ∧
  (isHeaderState x.regs.parseState = true → f.p < f.chunk.length)

/-- The laws of one instance; the ghost cause is recorded exactly in ERROR (R182). -/
abbrev Decoder.lawful (x : Decoder) : Prop :=
  x.regs.lawful ∧ (x.cause.isSome = true ↔ x.regs.parseState = psError) ∧
  (x.feed = none → x.betweenCommands) ∧ (∀ f, x.feed = some f → x.inFeedLawful f)

/-- The invariant of the machine: every instance lawful, the executing FEED the only one that does not wait for its
sink (R62), the output space in canonical form. -/
structure State.Inv (s : State) : Prop where
  /-- There are `P_INSTANCES` instances (R10). -/
  instances : s.decoders.length = Config.numInstances
  lawful : ∀ (d : InstId) (x : Decoder), s.decoders[d]? = some x → x.lawful
  /-- The executing instance is in a FEED and not waiting. -/
  executing : ∀ (d : InstId), s.running = some d → ∃ x f, s.decoders[d]? = some x ∧ x.feed = some f ∧ x.regs.inSink = false
  /-- Every other FEED waits for its sink. -/
  waiting : ∀ (d : InstId) (x : Decoder) (f : Feed), s.decoders[d]? = some x → x.feed = some f → x.regs.inSink = false → s.running = some d
  buffersWf : Buffers.wf s.buffers = true

/-! ## States spelled out -/

/-- Instance `d`, in state `x`, is executing the FEED `f`. -/
abbrev State.Feeding (s : State) (d : InstId) (x : Decoder) (f : Feed) : Prop :=
  s.running = some d ∧ s.decoders[d]? = some x ∧ x.feed = some f

/-- The chunk write that comes next, if one does: its instance and its delay (R66; log 21). -/
def State.nextChunkWrite (s : State) : Option (InstId × Nat) :=
  match s.inputs with
  | .chunkWrite e n :: _ => some (e, n)
  | _ => none

/-- A header step of `d` consumed one byte and left the registers `r`: the FEED goes on if a byte is left or PAYLOAD
was reached (R120, R125), and otherwise returns 0 (R139); nothing else changes. -/
def State.headerDone (s : State) (d : InstId) (x : Decoder) (f : Feed) (r : Regs) : State :=
  if f.p + 1 < f.chunk.length ∨ r.parseState = 4#3 then
    { s with
      decoders := s.decoders.set d { regs := r, feed := some { f with p := f.p + 1 }, cause := x.cause }
      running := some d }
  else
    { s with
      decoders := s.decoders.set d { regs := r, feed := none, cause := x.cause }
      running := none
      responses := s.responses ++ [.result d 0#32] }

/-- The FEED of `d` ended in ERROR with `code`, `r` being the registers before the entry (R183); nothing else changes. -/
def State.feedFailed (s : State) (d : InstId) (r : Regs) (cause : Cause) (code : Code) : State :=
  { s with
    decoders := s.decoders.set d { regs := { r with parseState := 5#3 }, feed := none, cause := some cause }
    running := none
    responses := s.responses ++ [.result d code] }

/-- The instance an instruction acts on: a command's operand, a parse step's executing instance; none for the Encoder. -/
def instrTarget (i : Instr) (s : State) : Option InstId :=
  match i with
  | .init d _ => some d
  | .feed d _ => some d
  | .reset d => some d
  | .status d => some d
  | .encUnmasked _ _ _ => none
  | .encMasked _ _ _ _ => none
  | _ => s.running

/-- An Encoder command has written `bytes` at the start of the buffer `buf` and returned their number; nothing else
changes, every byte of every buffer included (R164). -/
abbrev State.Encoded (s : State) (buf : BufferRef) (bytes : List Byte) (t : State) : Prop :=
  t.decoders = s.decoders ∧ t.running = s.running ∧ t.inputs = s.inputs ∧ t.requests = s.requests ∧
  t.responses = s.responses ++ [.count (BitVec.ofNat 64 bytes.length)] ∧
  ∀ b i, t.bufRead b i = if b = buf ∧ i < bytes.length then bytes[i]? else s.bufRead b i

/-- A number of machine steps in a row, if each gives a next state. -/
def stepMany : Nat → State → Option State
  | 0, s => some s
  | n + 1, s =>
    match step s with
    | .next t => stepMany n t
    | .fault _ => none
    | .refused _ => none

/-! ## A FEED with an answering sink -/

/-- A FEED under way, the parse steps made in it and the frames completed in it (R221). -/
structure FeedRun where
  state : State
  steps : Nat
  frames : Nat

/-- The environment of instance `d`: it acts only when no FEED executes, and then its sink gives its answer to the
latest request (R131). -/
def offerAnswer (ans : Nat → Code) (d : InstId) (s : State) : State :=
  match s.running with
  | some _ => s
  | none => { s with inputs := .answer d (ans s.requests.length) :: s.inputs }

/-- The registers of instance `d` show `parse_state` START. -/
def State.atStart (s : State) (d : InstId) : Bool :=
  match s.decoders[d]? with
  | some x => decide (x.regs.parseState = psStart)
  | none => false

/-- Run the FEED of instance `d` until it returns, within a number of machine steps. A PAYLOAD step is two machine
steps and is counted when it makes its request; a frame is counted when an answer brings the instance back to START. -/
def drive (ans : Nat → Code) (d : InstId) : Nat → FeedRun → Option FeedRun
  | fuel, run =>
    match (run.state.decoders[d]?).bind Decoder.feed with
    | none => some run
    | some _ =>
      match fuel with
      | 0 => none
      | fuel + 1 =>
        match step (offerAnswer ans d run.state) with
        | .next t =>
          drive ans d fuel {
            state := t
            steps := run.steps + if run.state.running.isSome then 1 else 0
            frames := run.frames + if run.state.running.isNone && t.atStart d then 1 else 0 }
        | .fault _ => none
        | .refused _ => none

/-- Issue `FEED d, chunk` and run it to its end, the sink answering request number `k` with `ans k`. -/
def deliver (ans : Nat → Code) (d : InstId) (s : State) (chunk : List Byte) : Option FeedRun :=
  match exec (.feed d chunk) s with
  | .next t => drive ans d (4 * chunk.length + 4) { state := t, steps := 0, frames := 0 }
  | .fault _ => none
  | .refused _ => none

/-- Deliver a stream in pieces, every answer being `RES_SUCCESS`. -/
def deliverAll (d : InstId) : State → List (List Byte) → Option State
  | s, [] => some s
  | s, c :: cs =>
    match deliver (fun _ => resSuccess) d s c with
    | some run => deliverAll d run.state cs
    | none => none

/-- The payloads of the frames completed so far, and the payload bytes of the frame in progress. -/
abbrev Payloads := List (List Byte) × List Byte

/-- One sink request's slice; the request marked `last` ends its frame (R137). -/
def addRequest (acc : Payloads) (r : SinkRequest) : Payloads :=
  if r.last then (acc.1 ++ [acc.2 ++ r.bytes], []) else (acc.1, acc.2 ++ r.bytes)

/-- What a list of sink requests hands out, from what was handed out before. -/
def payloads (acc : Payloads) (rs : List SinkRequest) : Payloads := rs.foldl addRequest acc

/-- The sink requests made between two states. -/
def newRequests (s t : State) : List SinkRequest := t.requests.drop s.requests.length

/-- Sink requests follow one another within their frames: each starts at the offset the earlier slices of its frame add
up to, and is marked `last` exactly when it reaches the frame's length (R137). -/
def slicesFollow : Nat → List SinkRequest → Prop
  | _, [] => True
  | off, r :: rs =>
    r.curOffset.toNat = off ∧ r.bytes.length = r.k ∧ (r.last = true ↔ off + r.k = r.expectedLen.toNat) ∧
    slicesFollow (if r.last then 0 else off + r.k) rs

/-- The machine is idle, nobody is about to write a chunk (R66), and instance `d` is ready for a FEED: bound and not in
ERROR. -/
abbrev State.readyFor (s : State) (d : InstId) : Prop :=
  s.Inv ∧ s.running = none ∧ s.nextChunkWrite = none ∧ ∃ x, s.decoders[d]? = some x ∧ x.feed = none ∧ x.regs.sinkBound = true ∧ x.regs.parseState ≠ psError

/-! ## The stream a byte at a time (R57, R63) -/

/-- A frame in PAYLOAD with nothing left to come is complete (R134, R136). -/
def settleFrame (r : Regs) (acc : Payloads) : Regs × Payloads :=
  if r.parseState = psPayload ∧ r.curOffset = r.expectedLen then (r.completeFrame, acc.1 ++ [acc.2], []) else (r, acc)

/-- One header byte on the registers; a rejected first byte gives ERROR (R121 to R130). -/
def wireHeader (r : Regs) (b : Byte) : Regs :=
  if r.parseState = psStart then
    match startStep b r with
    | (r', none) => r'
    | (r', some _) => { r' with parseState := psError }
  else if r.parseState = psByte2 then byte2Step b r
  else if r.parseState = psExtLen then extLenStep b r
  else if r.parseState = psMask then maskStep b r
  else r

/-- One byte of the wire stream, the sink accepting everything: what it does to the registers and to the payloads
handed out, whatever the chunks. -/
def wireByte (w : Regs × Payloads) (b : Byte) : Regs × Payloads :=
  if w.1.parseState = psPayload then
    settleFrame { w.1 with curOffset := w.1.curOffset + 1 } (w.2.1, w.2.2 ++ [b])
  else settleFrame (wireHeader w.1 b) w.2

/-- A stretch of the wire stream. -/
def wireBytes (w : Regs × Payloads) (bs : List Byte) : Regs × Payloads := bs.foldl wireByte w

end Sys2Proof.Machine
end

