-- ==== Sys2Proof/Certificates/Slice0/Obligations.lean ====
section
/-! DEFINITION. The statements for the provers. `State.Feeding s d x f` says that instance `d`, in state `x`, is
executing the FEED `f`. A next state is written out as an update of the state before, so that it says what is left
unchanged as well: every other instance, every other register, every buffer, the inputs and the earlier responses. The
ghost field `cause` (log 16) and the lists `responses` and `requests` (log 20) are the model's own. A write to a chunk
can land between parse steps (R66; log 21): `s.nextChunkWrite = none` says that none is coming, which leaves the inputs
as they are, `s.nextChunkWrite ≠ some (e, 0)` that none is due now, and `s.tick` is `s` after one parse step has passed
for the write that is coming. -/

open Sys2Proof Sys2Proof.Machine

/-! ## Reset and the host's commands -/

/-- R39, with R38's values; nothing is said of `sink_ctx`, which the spec leaves unspecified. -/
def Obligations.CreatedInstancesHoldResetValues : Prop :=
  ∀ d, d < Config.numInstances →
    (∃ x, State.reset.decoders[d]? = some x ∧ x.regs.parseState = 0 ∧ x.regs.curOffset = 0 ∧ x.regs.expectedLen = 0 ∧
      x.regs.mask = 0 ∧ x.regs.headerByte1 = 0 ∧ x.regs.headerByte2 = 0 ∧ x.regs.remainingIntBytes = 0 ∧
      x.regs.inSink = false ∧ x.regs.sinkBound = false) ∧
    ∀ chunk, exec (.feed d chunk) State.reset = .refused (.noSink d)

/-- R100. The ghost cause is forgotten with the error (log 16). -/
def Obligations.InitBindsAndResets : Prop :=
  (∀ d ctx, decode (.command { op := 0x01, inst := d, sinkCtx := ctx }) = .instr (.init d ctx)) ∧
  ∀ (s : State) (d : InstId) (ctx : SinkCtx) (x : Decoder), s.decoders[d]? = some x →
    (x.regs.inSink = true → exec (.init d ctx) s = .refused (.reentrant d)) ∧
    (x.regs.inSink = false → exec (.init d ctx) s = .next { s with
      decoders := s.decoders.set d {
        regs := {
          sinkBound := true, sinkCtx := ctx, curOffset := 0, expectedLen := 0, mask := 0, headerByte1 := 0
          headerByte2 := 0, parseState := 0, remainingIntBytes := 0, inSink := false }
        feed := x.feed, cause := none }
      responses := s.responses ++ [.result d 0] })

/-- R104. The ghost cause is forgotten with the error (log 16). -/
def Obligations.ResetKeepsTheBinding : Prop :=
  (∀ d, decode (.command { op := 0x03, inst := d }) = .instr (.reset d)) ∧
  ∀ (s : State) (d : InstId) (x : Decoder), s.decoders[d]? = some x →
    (x.regs.inSink = true → exec (.reset d) s = .refused (.reentrant d)) ∧
    (x.regs.inSink = false → exec (.reset d) s = .next { s with
      decoders := s.decoders.set d {
        regs := {
          sinkBound := x.regs.sinkBound, sinkCtx := x.regs.sinkCtx, curOffset := 0, expectedLen := 0, mask := 0
          headerByte1 := 0, headerByte2 := 0, parseState := 0, remainingIntBytes := 0, inSink := false }
        feed := x.feed, cause := none }
      responses := s.responses ++ [.result d 0] })

/-- R105, R41: the registers but `sink_ctx`, in every state, and no side effect; during an invocation the values from
before it (R131). -/
def Obligations.StatusReturnsTheRegisters : Prop :=
  (∀ d, decode (.command { op := 0x04, inst := d }) = .instr (.status d)) ∧
  (∀ (s : State) (d : InstId) (x : Decoder), s.decoders[d]? = some x →
    exec (.status d) s = .next { s with
      responses := s.responses ++ [.snapshot d {
        parseState := x.regs.parseState, remainingIntBytes := x.regs.remainingIntBytes
        headerByte1 := x.regs.headerByte1, headerByte2 := x.regs.headerByte2, mask := x.regs.mask
        expectedLen := x.regs.expectedLen, curOffset := x.regs.curOffset, sinkBound := x.regs.sinkBound
        inSink := x.regs.inSink }] }) ∧
  ∀ (s : State) (d : InstId) (x : Decoder) (f : Feed), s.Feeding d x f → x.regs.parseState = 4 → x.regs.inSink = false →
    ∃ t, exec .stepPayload s = .next t ∧
      exec (.status d) t = .next { t with
        responses := t.responses ++ [.snapshot d {
          parseState := 4, remainingIntBytes := x.regs.remainingIntBytes, headerByte1 := x.regs.headerByte1
          headerByte2 := x.regs.headerByte2, mask := x.regs.mask, expectedLen := x.regs.expectedLen
          curOffset := x.regs.curOffset, sinkBound := x.regs.sinkBound, inSink := true }] }

/-- R102: in ERROR a FEED answers 1 and changes nothing, whatever its chunk. -/
def Obligations.FeedInErrorReturnsInvalid : Prop :=
  ∀ (s : State) (d : InstId) (chunk : List Byte) (x : Decoder), s.decoders[d]? = some x → x.regs.inSink = false →
    x.regs.sinkBound = true → x.regs.parseState = 5 →
    exec (.feed d chunk) s = .next { s with responses := s.responses ++ [.result d 1] }

/-- R101, the beginning: outside ERROR the FEED takes its chunk with the cursor at 0, and in a header state with an
empty chunk it returns 0 at once (R139); no register changes. -/
def Obligations.FeedTakesTheChunk : Prop :=
  ∀ (s : State) (d : InstId) (chunk : List Byte) (x : Decoder), s.decoders[d]? = some x → x.regs.inSink = false →
    x.regs.sinkBound = true → x.regs.parseState.toNat ≤ 4 →
    exec (.feed d chunk) s = .next (
      if chunk = [] ∧ x.regs.parseState.toNat ≤ 3 then
        { s with
          decoders := s.decoders.set d { regs := x.regs, feed := none, cause := x.cause }
          running := none
          responses := s.responses ++ [.result d 0] }
      else
        { s with
          decoders := s.decoders.set d { regs := x.regs, feed := some { chunk := chunk, p := 0, answer := none }, cause := x.cause }
          running := some d })

/-- R103: an unbound instance refuses FEED, and does not refuse RESET and STATUS. -/
def Obligations.FeedNeedsASink : Prop :=
  ∀ (s : State) (d : InstId) (x : Decoder), s.decoders[d]? = some x → x.regs.inSink = false → x.regs.sinkBound = false →
    (∀ chunk, exec (.feed d chunk) s = .refused (.noSink d)) ∧
    (∃ t, exec (.reset d) s = .next t) ∧ (∃ t, exec (.status d) s = .next t)

/-- R106: while an invocation of `d` is outstanding, whatever its other registers hold, FEED, RESET and INIT on `d` are
refused; STATUS on `d`, the Encoder, and the commands of an instance `e` without an invocation are not. -/
def Obligations.ReentrantCommandsRefused : Prop :=
  ∀ (s : State) (d : InstId) (x : Decoder), s.decoders[d]? = some x → x.regs.inSink = true →
    (∀ chunk, exec (.feed d chunk) s = .refused (.reentrant d)) ∧
    exec (.reset d) s = .refused (.reentrant d) ∧
    (∀ ctx, exec (.init d ctx) s = .refused (.reentrant d)) ∧
    (∃ t, exec (.status d) s = .next t) ∧
    (∀ cap pl buf key, (∃ t, exec (.encUnmasked cap pl buf) s = .next t) ∧ ∃ t, exec (.encMasked cap pl buf key) s = .next t) ∧
    ∀ (e : InstId) (y : Decoder), e ≠ d → s.decoders[e]? = some y → y.regs.inSink = false →
      (∀ ctx, ∃ t, exec (.init e ctx) s = .next t) ∧ (∃ t, exec (.reset e) s = .next t) ∧ (∃ t, exec (.status e) s = .next t) ∧
      ∀ chunk, y.regs.sinkBound = true → ∃ t, exec (.feed e chunk) s = .next t

/-- R211: after RESET the machine is in the very state a fresh INIT with the same binding gives, wherever the instance
was; and RESET twice leaves the instances as RESET once. -/
def Obligations.ResetIsAFreshInit : Prop :=
  ∀ (s : State) (d : InstId) (x : Decoder), s.decoders[d]? = some x → x.regs.sinkBound = true →
    exec (.reset d) s = exec (.init d x.regs.sinkCtx) s ∧
    ∀ t, exec (.reset d) s = .next t → ∃ u, exec (.reset d) t = .next u ∧ u.decoders = t.decoders

/-! ## The Encoder -/

/-- R161. That every byte of a different buffer stays as it was rests on log 9: different references are taken to be
different buffers. -/
def Obligations.EncUnmaskedWritesLength : Prop :=
  (∀ cap pl buf, decode (.command { op := 0x10, capacity := cap, payloadLength := pl, buffer := buf }) =
    .instr (.encUnmasked cap pl buf)) ∧
  ∀ (s : State) (cap pl : Len) (buf : BufferRef),
    (pl.toNat < 126 →
      (cap.toNat < 1 → exec (.encUnmasked cap pl buf) s = .next { s with responses := s.responses ++ [.count 0] }) ∧
      (1 ≤ cap.toNat → ∃ t, exec (.encUnmasked cap pl buf) s = .next t ∧ s.Encoded buf [0#1 ++ pl.extractLsb' 0 7] t)) ∧
    (126 ≤ pl.toNat → pl.toNat ≤ 0xFFFF →
      (cap.toNat < 3 → exec (.encUnmasked cap pl buf) s = .next { s with responses := s.responses ++ [.count 0] }) ∧
      (3 ≤ cap.toNat → ∃ t, exec (.encUnmasked cap pl buf) s = .next t ∧
        s.Encoded buf [0x7E, pl.extractLsb' 8 8, pl.extractLsb' 0 8] t)) ∧
    (0xFFFF < pl.toNat →
      (cap.toNat < 9 → exec (.encUnmasked cap pl buf) s = .next { s with responses := s.responses ++ [.count 0] }) ∧
      (9 ≤ cap.toNat → ∃ t, exec (.encUnmasked cap pl buf) s = .next t ∧
        s.Encoded buf [0x7F, pl.extractLsb' 56 8, pl.extractLsb' 48 8, pl.extractLsb' 40 8, pl.extractLsb' 32 8,
          pl.extractLsb' 24 8, pl.extractLsb' 16 8, pl.extractLsb' 8 8, pl.extractLsb' 0 8] t))

/-- R162. That every byte of a different buffer stays as it was rests on log 9. -/
def Obligations.EncMaskedWritesLengthAndKey : Prop :=
  (∀ cap pl buf k, decode (.command { op := 0x11, capacity := cap, payloadLength := pl, buffer := buf, maskKey := k }) =
    .instr (.encMasked cap pl buf k)) ∧
  ∀ (s : State) (cap pl : Len) (buf : BufferRef) (k : Key),
    (pl.toNat < 126 →
      (cap.toNat < 5 → exec (.encMasked cap pl buf k) s = .next { s with responses := s.responses ++ [.count 0] }) ∧
      (5 ≤ cap.toNat → ∃ t, exec (.encMasked cap pl buf k) s = .next t ∧
        s.Encoded buf [1#1 ++ pl.extractLsb' 0 7, k.extractLsb' 24 8, k.extractLsb' 16 8, k.extractLsb' 8 8, k.extractLsb' 0 8] t)) ∧
    (126 ≤ pl.toNat → pl.toNat ≤ 0xFFFF →
      (cap.toNat < 7 → exec (.encMasked cap pl buf k) s = .next { s with responses := s.responses ++ [.count 0] }) ∧
      (7 ≤ cap.toNat → ∃ t, exec (.encMasked cap pl buf k) s = .next t ∧
        s.Encoded buf [0xFE, pl.extractLsb' 8 8, pl.extractLsb' 0 8,
          k.extractLsb' 24 8, k.extractLsb' 16 8, k.extractLsb' 8 8, k.extractLsb' 0 8] t)) ∧
    (0xFFFF < pl.toNat →
      (cap.toNat < 13 → exec (.encMasked cap pl buf k) s = .next { s with responses := s.responses ++ [.count 0] }) ∧
      (13 ≤ cap.toNat → ∃ t, exec (.encMasked cap pl buf k) s = .next t ∧
        s.Encoded buf [0xFF, pl.extractLsb' 56 8, pl.extractLsb' 48 8, pl.extractLsb' 40 8, pl.extractLsb' 32 8,
          pl.extractLsb' 24 8, pl.extractLsb' 16 8, pl.extractLsb' 8 8, pl.extractLsb' 0 8,
          k.extractLsb' 24 8, k.extractLsb' 16 8, k.extractLsb' 8 8, k.extractLsb' 0 8] t))

/-- R163, R164: both commands always answer a count; with the count 0 no byte of any buffer changes; otherwise it is
within the capacity, every byte below it is written and none at or above it. That no byte of a different buffer changes
rests on log 9. -/
def Obligations.EncoderWritesExactlyItsCount : Prop :=
  ∀ (s : State) (cap pl : Len) (buf : BufferRef) (k : Key) (i : Instr),
    (i = .encUnmasked cap pl buf ∨ i = .encMasked cap pl buf k) →
    ∃ t h, exec i s = .next t ∧ t.responses = s.responses ++ [.count (BitVec.ofNat 64 h)] ∧ h ≤ 13 ∧
      (h = 0 → ∀ b j, t.bufRead b j = s.bufRead b j) ∧
      (0 < h → h ≤ cap.toNat ∧ (∀ j, j < h → (t.bufRead buf j).isSome) ∧
        ∀ b j, (b ≠ buf ∨ h ≤ j) → t.bufRead b j = s.bufRead b j)

/-- R165: whatever the two states, the same operands give the same count and the same bytes; neither command is ever
refused, and neither writes a register. -/
def Obligations.EncoderIsAPureFunction : Prop :=
  ∀ (s s' : State) (cap pl : Len) (buf : BufferRef) (k : Key) (i : Instr),
    (i = .encUnmasked cap pl buf ∨ i = .encMasked cap pl buf k) →
    ∃ t t' h, exec i s = .next t ∧ exec i s' = .next t' ∧ t.decoders = s.decoders ∧
      t.responses = s.responses ++ [.count (BitVec.ofNat 64 h)] ∧ t'.responses = s'.responses ++ [.count (BitVec.ofNat 64 h)] ∧
      ∀ j, j < h → t.bufRead buf j = t'.bufRead buf j

/-! ## The first header byte -/

/-- R82: the six accepted rows, FIN either way, all end in BYTE2 with the byte captured. -/
def Obligations.AcceptedFirstBytesGoToByte2 : Prop :=
  ∀ (s : State) (d : InstId) (x : Decoder) (f : Feed) (fin : Bool), s.Feeding d x f → f.p < f.chunk.length →
    ∀ e : Instr × Byte,
      e ∈ [(.hdr1Continuation fin, 0x00), (.hdr1Text fin, 0x01), (.hdr1Binary fin, 0x02),
        (.hdr1Close fin, 0x08), (.hdr1Ping fin, 0x09), ((.hdr1Pong fin, 0x0A) : Instr × Byte)] →
      exec e.1 s = .next (s.headerDone d x f
        { x.regs with headerByte1 := e.2 ||| (if fin then 0x80 else 0x00), parseState := 1 })

/-- R122 for the rows: RSV1, RSV2 or RSV3 set, every other bit either way. -/
def Obligations.ReservedBitRowsEndInError : Prop :=
  ∀ (s : State) (d : InstId) (x : Decoder) (f : Feed), s.Feeding d x f → f.p < f.chunk.length →
    ∀ (a b c : Bool) (op : BitVec 4),
      exec (.hdr1Rsv1Set a b c op) s = .next (s.feedFailed d
        { x.regs with headerByte1 := BitVec.ofBool a ++ 1#1 ++ BitVec.ofBool b ++ BitVec.ofBool c ++ op } .rsv 1) ∧
      exec (.hdr1Rsv2Set a b c op) s = .next (s.feedFailed d
        { x.regs with headerByte1 := BitVec.ofBool a ++ BitVec.ofBool b ++ 1#1 ++ BitVec.ofBool c ++ op } .rsv 1) ∧
      exec (.hdr1Rsv3Set a b c op) s = .next (s.feedFailed d
        { x.regs with headerByte1 := BitVec.ofBool a ++ BitVec.ofBool b ++ BitVec.ofBool c ++ 1#1 ++ op } .rsv 1)

/-- R123 for the rows: the ten reserved opcodes, FIN either way. -/
def Obligations.ReservedOpcodeRowsEndInError : Prop :=
  ∀ (s : State) (d : InstId) (x : Decoder) (f : Feed) (fin : Bool) (low : BitVec 2), s.Feeding d x f → f.p < f.chunk.length →
    ∀ e : Instr × Byte,
      e ∈ [(.hdr1Reserved3 fin, 0x03), (.hdr1Reserved4To7 fin low, 0x04 + low.setWidth 8), (.hdr1ReservedB fin, 0x0B),
        ((.hdr1ReservedCToF fin low, 0x0C + low.setWidth 8) : Instr × Byte)] →
      exec e.1 s = .next (s.feedFailed d
        { x.regs with headerByte1 := e.2 ||| (if fin then 0x80 else 0x00) } .opcode 1)

/-- R121, with the checks of R122 and R123 in that order: START selects the step, and its effect on every byte. -/
def Obligations.StartStepCapturesAndChecks : Prop :=
  ∀ (s : State) (d : InstId) (x : Decoder) (f : Feed) (b : Byte), s.Feeding d x f → f.chunk[f.p]? = some b →
    (x.regs.parseState = 0 → s.nextChunkWrite = none → step s = exec .stepStart s) ∧
    exec .stepStart s = .next (
      if b.extractLsb' 4 3 ≠ 0 then s.feedFailed d { x.regs with headerByte1 := b } .rsv 1
      else if b.extractLsb' 0 4 ∈ [0x3#4, 0x4#4, 0x5#4, 0x6#4, 0x7#4, 0xB#4, 0xC#4, 0xD#4, 0xE#4, 0xF#4] then
        s.feedFailed d { x.regs with headerByte1 := b } .opcode 1
      else s.headerDone d x f { x.regs with headerByte1 := b, parseState := 1 })

/-- R84: in START exactly the 12 bytes of the list lead to BYTE2; every other byte leads to ERROR. -/
def Obligations.ExactlyTwelveFirstBytesAreLegal : Prop :=
  ∀ (s : State) (d : InstId) (x : Decoder) (f : Feed) (b : Byte), s.Feeding d x f → f.chunk[f.p]? = some b →
    (∀ e, s.nextChunkWrite ≠ some (e, 0)) → x.regs.parseState = 0 →
    ∃ t y, step s = .next t ∧ t.decoders[d]? = some y ∧
      y.regs.parseState =
        if b ∈ [0x00#8, 0x01#8, 0x02#8, 0x08#8, 0x09#8, 0x0A#8, 0x80#8, 0x81#8, 0x82#8, 0x88#8, 0x89#8, 0x8A#8] then 1 else 5

/-! ## The second header byte, the extended length, the mask key -/

/-- R124 for the rows of an extended length, MASKF either way. -/
def Obligations.ExtendedLengthRowsSetTheCount : Prop :=
  ∀ (s : State) (d : InstId) (x : Decoder) (f : Feed) (maskf : Bool), s.Feeding d x f → f.p < f.chunk.length →
    exec (.hdr2Len16 maskf) s = .next (s.headerDone d x f
      { x.regs with headerByte2 := BitVec.ofBool maskf ++ 126#7, remainingIntBytes := 2, parseState := 2 }) ∧
    exec (.hdr2Len64 maskf) s = .next (s.headerDone d x f
      { x.regs with headerByte2 := BitVec.ofBool maskf ++ 127#7, remainingIntBytes := 8, parseState := 2 })

/-- R124, R125 for the literal row: the length is LEN7, and MASKF selects MASK or PAYLOAD. -/
def Obligations.LiteralLengthRowSetsTheLength : Prop :=
  ∀ (s : State) (d : InstId) (x : Decoder) (f : Feed) (maskf : Bool) (len7 : BitVec 7), s.Feeding d x f →
    f.p < f.chunk.length → len7.toNat ≤ 125 →
    exec (.hdr2Len7Literal maskf len7) s = .next (s.headerDone d x f
      { x.regs with
        headerByte2 := BitVec.ofBool maskf ++ len7, expectedLen := len7.setWidth 64
        remainingIntBytes := if maskf then 4 else 0, parseState := if maskf then 3 else 4 })

/-- R124, R125 for the mask rows, LEN7 any value. -/
def Obligations.MaskFlagRowsSelectThePhase : Prop :=
  ∀ (s : State) (d : InstId) (x : Decoder) (f : Feed) (len7 : BitVec 7), s.Feeding d x f → f.p < f.chunk.length →
    exec (.hdr2Masked len7) s = .next (s.headerDone d x f (
      if len7 = 126 then { x.regs with headerByte2 := 1#1 ++ len7, remainingIntBytes := 2, parseState := 2 }
      else if len7 = 127 then { x.regs with headerByte2 := 1#1 ++ len7, remainingIntBytes := 8, parseState := 2 }
      else { x.regs with headerByte2 := 1#1 ++ len7, expectedLen := len7.setWidth 64, remainingIntBytes := 4, parseState := 3 })) ∧
    exec (.hdr2Unmasked len7) s = .next (s.headerDone d x f (
      if len7 = 126 then { x.regs with headerByte2 := 0#1 ++ len7, remainingIntBytes := 2, parseState := 2 }
      else if len7 = 127 then { x.regs with headerByte2 := 0#1 ++ len7, remainingIntBytes := 8, parseState := 2 }
      else { x.regs with headerByte2 := 0#1 ++ len7, expectedLen := len7.setWidth 64, remainingIntBytes := 0, parseState := 4 }))

/-- R124, with R125's AFTER_LENGTH spelled out: BYTE2 selects the step, and its effect on every byte. -/
def Obligations.Byte2StepReadsTheLengthField : Prop :=
  ∀ (s : State) (d : InstId) (x : Decoder) (f : Feed) (b : Byte), s.Feeding d x f → f.chunk[f.p]? = some b →
    (x.regs.parseState = 1 → s.nextChunkWrite = none → step s = exec .stepByte2 s) ∧
    exec .stepByte2 s = .next (s.headerDone d x f (
      if (b.extractLsb' 0 7).toNat ≤ 125 then
        { x.regs with
          headerByte2 := b, expectedLen := (b.extractLsb' 0 7).setWidth 64
          remainingIntBytes := if b.getLsbD 7 then 4 else 0, parseState := if b.getLsbD 7 then 3 else 4 }
      else if b.extractLsb' 0 7 = 126 then { x.regs with headerByte2 := b, remainingIntBytes := 2, parseState := 2 }
      else { x.regs with headerByte2 := b, remainingIntBytes := 8, parseState := 2 }))

/-- R127, with R125's AFTER_LENGTH spelled out: one byte of the extended length; the last one leads to MASK or PAYLOAD. -/
def Obligations.ExtLenStepAccumulates : Prop :=
  ∀ (s : State) (d : InstId) (x : Decoder) (f : Feed) (b : Byte), s.Feeding d x f → f.chunk[f.p]? = some b →
    x.regs.parseState = 2 → (s.nextChunkWrite = none → step s = exec .stepExtLen s) ∧
    exec .stepExtLen s = .next (s.headerDone d x f (
      if x.regs.remainingIntBytes ≠ 1 then
        { x.regs with
          expectedLen := (x.regs.expectedLen <<< 8) ||| b.setWidth 64, remainingIntBytes := x.regs.remainingIntBytes - 1 }
      else
        { x.regs with
          expectedLen := (x.regs.expectedLen <<< 8) ||| b.setWidth 64
          remainingIntBytes := if x.regs.headerByte2.getLsbD 7 then 4 else 0
          parseState := if x.regs.headerByte2.getLsbD 7 then 3 else 4 }))

/-- R129, R130: one byte of the mask key; the last one leads to PAYLOAD, and the FEED goes on even at the chunk's end. -/
def Obligations.MaskStepAccumulates : Prop :=
  ∀ (s : State) (d : InstId) (x : Decoder) (f : Feed) (b : Byte), s.Feeding d x f → f.chunk[f.p]? = some b →
    x.regs.parseState = 3 → (s.nextChunkWrite = none → step s = exec .stepMask s) ∧
    exec .stepMask s = .next (s.headerDone d x f
      { x.regs with
        mask := (x.regs.mask <<< 8) ||| b.setWidth 32
        remainingIntBytes := x.regs.remainingIntBytes - 1
        parseState := if x.regs.remainingIntBytes = 1 then 4 else 3 })

/-- R81: from the start of the key field, four steps over four bytes of the chunk assemble the key, the first byte most
significant, and leave the instance in PAYLOAD. -/
def Obligations.MaskKeyIsBigEndian : Prop :=
  ∀ (s : State) (d : InstId) (x : Decoder) (f : Feed) (k0 k1 k2 k3 : Byte) (rest : List Byte), s.Feeding d x f →
    s.nextChunkWrite = none → x.regs.parseState = 3 → x.regs.remainingIntBytes = 4 → x.regs.mask = 0 →
    f.chunk.drop f.p = k0 :: k1 :: k2 :: k3 :: rest →
    stepMany 4 s = some { s with
      decoders := s.decoders.set d {
        regs := { x.regs with mask := k0 ++ k1 ++ k2 ++ k3, remainingIntBytes := 0, parseState := 4 }
        feed := some { f with p := f.p + 4 }, cause := x.cause } }

/-- R80: from the start of the length field, two or eight steps over the field's bytes assemble the length, the first
byte most significant, and leave the instance in MASK or PAYLOAD as MASKF says; further bytes follow in the chunk. -/
def Obligations.ExtendedLengthIsBigEndian : Prop :=
  ∀ (s : State) (d : InstId) (x : Decoder) (f : Feed) (a : Byte) (rest : List Byte), s.Feeding d x f →
    s.nextChunkWrite = none → x.regs.parseState = 2 → x.regs.expectedLen = 0 →
    (∀ x0 x1, x.regs.remainingIntBytes = 2 → f.chunk.drop f.p = x0 :: x1 :: a :: rest →
      stepMany 2 s = some { s with
        decoders := s.decoders.set d {
          regs := { x.regs with
            expectedLen := (x0 ++ x1).setWidth 64, remainingIntBytes := if x.regs.headerByte2.getLsbD 7 then 4 else 0
            parseState := if x.regs.headerByte2.getLsbD 7 then 3 else 4 }
          feed := some { f with p := f.p + 2 }, cause := x.cause } }) ∧
    (∀ x0 x1 x2 x3 x4 x5 x6 x7, x.regs.remainingIntBytes = 8 →
      f.chunk.drop f.p = x0 :: x1 :: x2 :: x3 :: x4 :: x5 :: x6 :: x7 :: a :: rest →
      stepMany 8 s = some { s with
        decoders := s.decoders.set d {
          regs := { x.regs with
            expectedLen := x0 ++ x1 ++ x2 ++ x3 ++ x4 ++ x5 ++ x6 ++ x7
            remainingIntBytes := if x.regs.headerByte2.getLsbD 7 then 4 else 0
            parseState := if x.regs.headerByte2.getLsbD 7 then 3 else 4 }
          feed := some { f with p := f.p + 8 }, cause := x.cause } })

/-- R85: from every lawful state, no second header byte, no extended length byte and no mask key byte is rejected: the
step completes, the instance is not in ERROR and no failure is answered. -/
def Obligations.LaterHeaderBytesNeverRejected : Prop :=
  ∀ (s : State) (d : InstId) (x : Decoder) (f : Feed), s.Inv → s.Feeding d x f →
    (∀ e, s.nextChunkWrite ≠ some (e, 0)) → (x.regs.parseState = 1 ∨ x.regs.parseState = 2 ∨ x.regs.parseState = 3) →
    ∃ t y, step s = .next t ∧ t.decoders[d]? = some y ∧ y.regs.parseState ≠ 5 ∧ y.cause = x.cause ∧
      (t.responses = s.responses ∨ t.responses = s.responses ++ [.result d 0])

/-- A header row is the step on the byte it spells (the model's own reading of the table, log 12, log 13): wherever the
chunk holds a byte, the START step and the byte's HDR1 row agree, and so do the BYTE2 step and both of its HDR2 rows. -/
def Obligations.HeaderRowsAgreeWithTheSteps : Prop :=
  ∀ (s : State) (d : InstId) (x : Decoder) (f : Feed) (b : Byte), s.Feeding d x f → f.chunk[f.p]? = some b →
    exec (decodeHeader1 b) s = exec .stepStart s ∧
    exec (decodeHeader2Length b) s = exec .stepByte2 s ∧
    exec (decodeHeader2Mask b) s = exec .stepByte2 s

/-! ## The payload and the sink -/

/-- R131, R132, the first half: one request for the bytes both left and expected, `in_sink` set, the FEED waiting; no
other register changes. That the step waits between its two halves is the model's (log 3). -/
def Obligations.PayloadStepAsksTheSink : Prop :=
  ∀ (s : State) (d : InstId) (x : Decoder) (f : Feed), s.Feeding d x f → x.regs.inSink = false →
    ∃ k, k = min (f.chunk.length - f.p) (x.regs.expectedLen - x.regs.curOffset).toNat ∧
    exec .stepPayload s = .next { s with
      decoders := s.decoders.set d { regs := { x.regs with inSink := true }, feed := some f, cause := x.cause }
      running := none
      requests := s.requests ++ [{
        inst := d, sinkCtx := x.regs.sinkCtx, base := f.p, k := k
        last := decide (x.regs.curOffset + BitVec.ofNat 64 k = x.regs.expectedLen)
        bytes := (f.chunk.drop f.p).take k
        curOffset := x.regs.curOffset, expectedLen := x.regs.expectedLen, mask := x.regs.mask }] }

/-- R133: the sink accepted and more payload is expected than the chunk holds. -/
def Obligations.PartialOutcomeAdvances : Prop :=
  ∀ (s : State) (d : InstId) (x : Decoder) (f : Feed), s.Feeding d x f → x.regs.inSink = true → f.answer = some 0 →
    f.chunk.length - f.p < (x.regs.expectedLen - x.regs.curOffset).toNat →
    exec .stepPayload s = .next { s with
      decoders := s.decoders.set d {
        regs := { x.regs with inSink := false, curOffset := x.regs.curOffset + BitVec.ofNat 64 (f.chunk.length - f.p) }
        feed := none, cause := x.cause }
      running := none
      responses := s.responses ++ [.result d 0] } ∧
    (x.regs.curOffset.toNat ≤ x.regs.expectedLen.toNat →
      (x.regs.curOffset + BitVec.ofNat 64 (f.chunk.length - f.p)).toNat = x.regs.curOffset.toNat + (f.chunk.length - f.p) ∧
      x.regs.curOffset.toNat + (f.chunk.length - f.p) < x.regs.expectedLen.toNat)

/-- R134: the sink accepted the rest of the frame: the per-frame registers are cleared, the header bytes stay, and the
FEED goes on behind the slice or returns 0 at the chunk's end. -/
def Obligations.CompleteOutcomeEndsTheFrame : Prop :=
  ∀ (s : State) (d : InstId) (x : Decoder) (f : Feed) (k : Nat), s.Feeding d x f → x.regs.inSink = true → f.answer = some 0 →
    k = (x.regs.expectedLen - x.regs.curOffset).toNat → k ≤ f.chunk.length - f.p →
    exec .stepPayload s = .next (
      if f.p + k < f.chunk.length then
        { s with
          decoders := s.decoders.set d {
            regs := { x.regs with inSink := false, curOffset := 0, expectedLen := 0, mask := 0, parseState := 0 }
            feed := some { chunk := f.chunk, p := f.p + k, answer := none }, cause := x.cause }
          running := some d }
      else
        { s with
          decoders := s.decoders.set d {
            regs := { x.regs with inSink := false, curOffset := 0, expectedLen := 0, mask := 0, parseState := 0 }
            feed := none, cause := x.cause }
          running := none
          responses := s.responses ++ [.result d 0] })

/-- R135: any other answer, `RES_INVALID` included and whatever the outcome would have been, is passed through. -/
def Obligations.SinkRejectionPassesThrough : Prop :=
  ∀ (s : State) (d : InstId) (x : Decoder) (f : Feed) (code : Code), s.Feeding d x f → x.regs.inSink = true →
    f.answer = some code → code ≠ 0 →
    exec .stepPayload s = .next (s.feedFailed d { x.regs with inSink := false } .sink code)

/-- R131: an answer that arrives runs the second half of the PAYLOAD step of the instance that waits, with that answer. -/
def Obligations.AnAnswerResumesItsFeed : Prop :=
  ∀ (s : State) (d : InstId) (x : Decoder) (f : Feed) (code : Code) (rest : List Input), s.running = none →
    s.inputs = .answer d code :: rest → s.decoders[d]? = some x → x.feed = some f → x.regs.inSink = true →
    step s = exec .stepPayload { s with
      inputs := rest
      decoders := s.decoders.set d { x with feed := some { f with answer := some code } }
      running := some d }

/-- R217, R131: in a lawful state an instance whose sink has not answered stays exactly as it is, whatever else the
machine does, until its answer is the next input; and with no input at all the machine does not move (log 2). -/
def Obligations.OnlyTheAnswerEndsTheWait : Prop :=
  (∀ (s t : State) (d : InstId) (x : Decoder), s.Inv → s.decoders[d]? = some x → x.regs.inSink = true → step s = .next t →
    (∀ code rest, s.running = none → s.inputs ≠ .answer d code :: rest) → t.decoders[d]? = some x) ∧
  ∀ s : State, s.running = none → s.inputs = [] → step s = .next s

/-- R136: in a lawful state the slice of a PAYLOAD step is empty exactly for a frame of length 0, or with no byte left
and payload still expected. -/
def Obligations.EmptySliceCases : Prop :=
  ∀ (s : State) (d : InstId) (x : Decoder) (f : Feed), s.Inv → s.Feeding d x f →
    (∀ e, s.nextChunkWrite ≠ some (e, 0)) → x.regs.parseState = 4 → ∃ t r, step s = .next t ∧ t.requests = s.requests ++ [r] ∧
      (r.bytes = [] ↔ (x.regs.expectedLen = 0 ∨ (f.p = f.chunk.length ∧ x.regs.curOffset.toNat < x.regs.expectedLen.toNat)))

/-! ## ERROR and suspension -/

/-- STEP_ERROR in an executing FEED returns `RES_INVALID` and writes no register: the arm of R101's loop that the spec
calls not reachable (the model's reading, log 27). -/
def Obligations.StepErrorReturnsInvalid : Prop :=
  ∀ (s : State) (d : InstId) (x : Decoder) (f : Feed), s.Feeding d x f →
    exec .stepError s = .next { s with
      decoders := s.decoders.set d { regs := x.regs, feed := none, cause := x.cause }
      running := none
      responses := s.responses ++ [.result d 1] }

/-- R138: from a lawful state no step leaves an instance in ERROR with a FEED still in progress. -/
def Obligations.NoStepRunsInError : Prop :=
  ∀ (s t : State) (d : InstId) (y : Decoder), s.Inv → step s = .next t → t.decoders[d]? = some y → y.regs.parseState = 5 →
    y.feed = none ∧ t.running ≠ some d

/-- R180, R182, R183 with R121 to R123 and R135: from a lawful state, a step that brings an instance into ERROR is the
START step of its FEED on a rejected byte (a reserved bit set, or a reserved opcode), or the arrival of its sink's
rejection, and it does nothing but what the entry says. The ghost cause is log 16's, `tick` log 21's. -/
def Obligations.ErrorEntryDoesNothingElse : Prop :=
  ∀ (s t : State) (d : InstId) (x y : Decoder), s.Inv → step s = .next t → s.decoders[d]? = some x →
    t.decoders[d]? = some y → x.regs.parseState ≠ 5 → y.regs.parseState = 5 →
    (∃ f b cause, s.Feeding d x f ∧ x.regs.parseState = 0 ∧ f.chunk[f.p]? = some b ∧
      (b.extractLsb' 4 3 ≠ 0 ∨
        b.extractLsb' 0 4 ∈ [0x3#4, 0x4#4, 0x5#4, 0x6#4, 0x7#4, 0xB#4, 0xC#4, 0xD#4, 0xE#4, 0xF#4]) ∧
      cause = (if b.extractLsb' 4 3 ≠ 0 then Cause.rsv else Cause.opcode) ∧
      t = s.tick.feedFailed d { x.regs with headerByte1 := b } cause 1) ∨
    (∃ f code rest, s.running = none ∧ s.inputs = .answer d code :: rest ∧ x.feed = some f ∧ x.regs.parseState = 4 ∧ code ≠ 0 ∧
      t = { s with inputs := rest }.feedFailed d { x.regs with inSink := false } .sink code)

/-- R36: from a lawful state, a step with an instance in ERROR leaves the instance as it was, unless the step is an INIT or RESET of it. -/
def Obligations.ErrorIsTerminalForFeed : Prop :=
  ∀ (s t : State) (d : InstId) (x : Decoder), s.Inv → step s = .next t → s.decoders[d]? = some x → x.regs.parseState = 5 →
    t.decoders[d]? = some x ∨
    ∃ c rest, s.running = none ∧ s.inputs = .command c :: rest ∧ c.inst = d ∧ (c.op = 0x01 ∨ c.op = 0x03) ∧
      ∃ y, t.decoders[d]? = some y ∧ y.regs.parseState = 0

/-- R139: a header step that consumes the chunk's last byte and does not reach PAYLOAD or ERROR returns 0; and the next
FEED with a byte takes up the same state with its own first byte, its first step being that state's (`tick` is log 21's). -/
def Obligations.SuspendAndResume : Prop :=
  (∀ (s t : State) (d : InstId) (x y : Decoder) (f : Feed), s.Feeding d x f →
    (∀ e, s.nextChunkWrite ≠ some (e, 0)) → x.regs.parseState.toNat ≤ 3 → f.p + 1 = f.chunk.length →
    step s = .next t → t.decoders[d]? = some y → y.regs.parseState.toNat ≤ 3 →
    t = { s.tick with
      decoders := s.decoders.set d { regs := y.regs, feed := none, cause := x.cause }
      running := none
      responses := s.responses ++ [.result d 0] }) ∧
  ∀ (s : State) (d : InstId) (x : Decoder) (b : Byte) (rest : List Byte), s.decoders[d]? = some x → x.regs.inSink = false →
    x.regs.sinkBound = true → x.regs.parseState.toNat ≤ 3 →
    ∃ t, exec (.feed d (b :: rest)) s = .next t ∧
      t.Feeding d { x with feed := some { chunk := b :: rest, p := 0, answer := none } } { chunk := b :: rest, p := 0, answer := none } ∧
      (s.nextChunkWrite = none →
        (x.regs.parseState = 0 → step t = exec .stepStart t) ∧ (x.regs.parseState = 1 → step t = exec .stepByte2 t) ∧
        (x.regs.parseState = 2 → step t = exec .stepExtLen t) ∧ (x.regs.parseState = 3 → step t = exec .stepMask t))

/-! ## Frames -/

/-- R40: every instruction that answers a next state leaves every instance but its own as it was; the Encoder has none. -/
def Obligations.OtherInstancesUnchanged : Prop :=
  ∀ (i : Instr) (s t : State), exec i s = .next t → t.decoders.length = s.decoders.length ∧
    ∀ e, instrTarget i s ≠ some e → t.decoders[e]? = s.decoders[e]?

/-- R54: only the Encoder's commands store to memory, only in their own buffer (that a different buffer
reference is a different buffer is log 9); no instruction takes an input away, and responses and requests, the model's
own lists (log 20), are only added to. -/
def Obligations.OnlyTheEncoderStores : Prop :=
  ∀ (i : Instr) (s t : State), exec i s = .next t →
    (∀ b j, (∀ cap pl, i ≠ .encUnmasked cap pl b ∧ ∀ k, i ≠ .encMasked cap pl b k) → t.bufRead b j = s.bufRead b j) ∧
    t.inputs = s.inputs ∧ (∃ rs, t.responses = s.responses ++ rs ∧ rs.length ≤ 1) ∧
    ∃ rq, t.requests = s.requests ++ rq ∧ rq.length ≤ 1

/-- R21: no instruction but INIT writes the sink binding, of any instance. -/
def Obligations.OnlyInitWritesTheBinding : Prop :=
  ∀ (i : Instr) (s t : State), exec i s = .next t → (∀ d ctx, i ≠ .init d ctx) →
    ∀ (d : InstId) (x : Decoder), s.decoders[d]? = some x →
      ∃ y : Decoder, t.decoders[d]? = some y ∧ y.regs.sinkBound = x.regs.sinkBound ∧ y.regs.sinkCtx = x.regs.sinkCtx

/-- R22 to R28: each frame register is written by INIT, RESET and its own steps only. `cur_offset` by PAYLOAD;
`expected_len` by BYTE2, EXT_LEN and PAYLOAD; `mask` by MASK and PAYLOAD; `header_byte1` by START; `header_byte2` by
BYTE2; `remaining_int_bytes` by BYTE2, EXT_LEN and MASK. The steps stand for their header rows too. -/
def Obligations.RegistersWrittenByTheirStepsOnly : Prop :=
  ∀ (i : Instr) (s t : State) (d : InstId) (x y : Decoder), exec i s = .next t → (∀ e ctx, i ≠ .init e ctx) →
    (∀ e, i ≠ .reset e) → s.decoders[d]? = some x → t.decoders[d]? = some y →
    (i ≠ .stepPayload → y.regs.curOffset = x.regs.curOffset) ∧
    (i ≠ .stepPayload → i ≠ .stepMask → y.regs.mask = x.regs.mask) ∧
    (i ≠ .stepPayload → i ≠ .stepExtLen → i ≠ .stepByte2 → (∀ b, i ≠ decodeHeader2Length b ∧ i ≠ decodeHeader2Mask b) →
      (∀ m l, i ≠ .hdr2Len7Literal m l) → y.regs.expectedLen = x.regs.expectedLen) ∧
    (i ≠ .stepStart → (∀ b, i ≠ decodeHeader1 b) → i.wf = true → y.regs.headerByte1 = x.regs.headerByte1) ∧
    (i ≠ .stepByte2 → (∀ b, i ≠ decodeHeader2Length b ∧ i ≠ decodeHeader2Mask b) → (∀ m l, i ≠ .hdr2Len7Literal m l) →
      y.regs.headerByte2 = x.regs.headerByte2 ∧
      (i ≠ .stepExtLen → i ≠ .stepMask → y.regs.remainingIntBytes = x.regs.remainingIntBytes))

/-- R194, R40: INIT, RESET and STATUS commands to two different instances give each instance the same registers and the
same response in either order. -/
def Obligations.CommandsToDifferentInstancesCommute : Prop :=
  ∀ (s s1 s2 : State) (i j : Instr) (d e : InstId), d ≠ e →
    (i = .reset d ∨ i = .status d ∨ ∃ ctx, i = .init d ctx) → (j = .reset e ∨ j = .status e ∨ ∃ ctx, j = .init e ctx) →
    exec i s = .next s1 → exec j s = .next s2 →
    ∃ t u r q, exec j s1 = .next t ∧ exec i s2 = .next u ∧ t.decoders = u.decoders ∧
      s1.responses = s.responses ++ [r] ∧ s2.responses = s.responses ++ [q] ∧
      t.responses = s.responses ++ [r, q] ∧ u.responses = s.responses ++ [q, r]

/-- R120 (the model's own refusal, log 14): a parse step or header row is refused while no FEED executes. -/
def Obligations.ParseStepsNeedAFeed : Prop :=
  ∀ (i : Instr) (s : State), s.running = none → instrTarget i s = none →
    (∀ cap pl b, i ≠ .encUnmasked cap pl b ∧ ∀ k, i ≠ .encMasked cap pl b k) → exec i s = .refused .noFeedRunning

/-! ## The machine -/

/-- R88, R101: while no chunk write is due, the step of a FEED is the parse step of its `parse_state`, that of a command
the command its record spells, and codes 6 and 7 fault. A parse step counts the delay of a coming chunk write down and
runs in a state otherwise the same. The control around it is the model's (log 1, log 2, log 21). -/
def Obligations.StepRunsTheDecodedInstruction : Prop :=
  (∀ (s : State) (d : InstId) (x : Decoder), s.running = some d → s.decoders[d]? = some x →
    (∀ e, s.nextChunkWrite ≠ some (e, 0)) →
    (x.regs.parseState = 0 → step s = exec .stepStart s.tick) ∧ (x.regs.parseState = 1 → step s = exec .stepByte2 s.tick) ∧
    (x.regs.parseState = 2 → step s = exec .stepExtLen s.tick) ∧ (x.regs.parseState = 3 → step s = exec .stepMask s.tick) ∧
    (x.regs.parseState = 4 → step s = exec .stepPayload s.tick) ∧ (x.regs.parseState = 5 → step s = exec .stepError s.tick) ∧
    (6 ≤ x.regs.parseState.toNat → step s = .fault (.badState x.regs.parseState))) ∧
  (∀ s : State, s.nextChunkWrite = none → s.tick = s) ∧
  (∀ (s : State) (e : InstId) (n : Nat) (rest : List Input), s.inputs = .chunkWrite e (n + 1) :: rest →
    s.tick = { s with inputs := .chunkWrite e n :: rest }) ∧
  ∀ (s : State) (c : RawCommand) (rest : List Input) (i : Instr), s.running = none → s.inputs = .command c :: rest →
    decode (.command c) = .instr i → step s = exec i { s with inputs := rest }

/-- R73: every command code but the six is refused, whatever the operands. -/
def Obligations.UnknownCommandCodesRefused : Prop :=
  ∀ (s : State) (c : RawCommand) (rest : List Input), s.running = none → s.inputs = .command c :: rest →
    c.op ∉ [0x01#8, 0x02#8, 0x03#8, 0x04#8, 0x10#8, 0x11#8] → step s = .refused (.unknownCommand c.op)

/-- R66: a write to the chunk of a FEED in progress is refused, between the FEED's parse steps as well as while it waits
for its sink; a FEED that makes `k` parse steps without a pause and is still in progress then is refused by the write
that comes after `k` of them. After the FEED a write has no effect on the machine (R216). When a write lands is the
model's (log 21). -/
def Obligations.ChunkMustNotChange : Prop :=
  (∀ (s : State) (d : InstId) (x : Decoder) (n : Nat) (rest : List Input), s.inputs = .chunkWrite d n :: rest →
    s.decoders[d]? = some x → (s.running = none ∨ n = 0) →
    (∀ f, x.feed = some f → step s = .refused (.chunkMutated d)) ∧
    (x.feed = none → step s = .next { s with inputs := rest })) ∧
  ∀ (k : Nat) (s t : State) (d : InstId) (y : Decoder) (f : Feed) (rest : List Input), s.inputs = .chunkWrite d k :: rest →
    stepMany k s = some t → (∀ j u, j < k → stepMany j s = some u → u.running = some d) →
    t.decoders[d]? = some y → y.feed = some f → step t = .refused (.chunkMutated d)

/-- The invariant holds after reset. -/
def Obligations.InvHoldsAtReset : Prop := State.reset.Inv

/-- R140 and R37: every step keeps the register laws, the control's laws and the canonical form of the buffers. -/
def Obligations.EveryStepKeepsInv : Prop :=
  ∀ s t : State, s.Inv → step s = .next t → t.Inv

/-- R190, R27: from a lawful state a step never meets `parse_state` code 6 or 7 and never looks for a FEED in vain. -/
def Obligations.LawfulStatesNeverFault : Prop :=
  ∀ s : State, s.Inv → (∀ e, step s ≠ .fault e) ∧ step s ≠ .refused .noFeedRunning ∧ ∀ m, step s ≠ .refused (.notModelled m)

/-! ## Encodings -/

/-- Every well-formed instruction decodes from its encoding, with every operand. -/
def Obligations.DecodeInvertsEncode : Prop :=
  ∀ i : Instr, i.wf = true → decode (encode i) = .instr i

/-- A few words of the opcode table, written out from R70, R88, R75 and R76. That a first byte with several reserved bits
is the row of the first of them is log 12's reading, and that a second byte is read as a length row or as a mask row
log 13's. -/
def Obligations.TableWordsDecode : Prop :=
  decode (.command { op := 0b00000011, inst := 1 }) = .instr (.reset 1) ∧
  decode (.step 0b010) = .instr .stepExtLen ∧
  decode (.header1 0b10000001) = .instr (.hdr1Text true) ∧
  decode (.header1 0b00001111) = .instr (.hdr1ReservedCToF false 0b11) ∧
  decode (.header1 0b01010011) = .instr (.hdr1Rsv1Set false false true 0x3) ∧
  decode (.header2Length 0b11111110) = .instr (.hdr2Len16 true) ∧
  decode (.header2Length 0b00000101) = .instr (.hdr2Len7Literal false 5) ∧
  decode (.header2Mask 0b10000101) = .instr (.hdr2Masked 5)

/-- R90: FEEDSPLIT gives FEEDs of its instance whose chunks are, in order, the bytes, none empty and none longer than `k`. -/
def Obligations.FeedSplitKeepsTheBytes : Prop :=
  ∀ (d : InstId) (k : Nat) (bytes : List Byte), 1 ≤ k →
    ∃ pieces : List (List Byte), feedSplit d k bytes = pieces.map (Instr.feed d) ∧ pieces.flatten = bytes ∧
      (∀ c ∈ pieces, 1 ≤ c.length ∧ c.length ≤ k) ∧ ∀ c ∈ pieces.dropLast, c.length = k

/-! ## Whole FEEDs -/

/-- R221: from a lawful state, a FEED whose sink answers, whatever it answers, returns within `n + f + 1` parse steps,
`f` being the frames completed in it. The drive is that of `deliver`: nobody else acts meanwhile, and nobody is about to
write the chunk (R66). -/
def Obligations.FeedsEnd : Prop :=
  ∀ (ans : Nat → Code) (d : InstId) (s : State) (chunk : List Byte) (x : Decoder), s.Inv → s.running = none →
    s.nextChunkWrite = none → s.decoders[d]? = some x → x.feed = none → x.regs.sinkBound = true →
    ∃ run, deliver ans d s chunk = some run ∧ (run.state.decoders[d]?).bind Decoder.feed = none ∧
      run.steps ≤ chunk.length + run.frames + 1

/-- R222: a chunk of `n` bytes completes at most half of `n`, rounded up, frames. -/
def Obligations.FramesPerChunkBounded : Prop :=
  ∀ (ans : Nat → Code) (d : InstId) (s : State) (chunk : List Byte) (run : FeedRun), s.readyFor d →
    deliver ans d s chunk = some run → run.frames ≤ (chunk.length + 1) / 2

/-- R141: with a sink that accepts everything, the registers at the end, all slices joined, and the slices of each frame
joined do not depend on how the stream is cut into chunks (shown for streams with an error in them as well). -/
def Obligations.ChunkBoundariesDoNotMatter : Prop :=
  ∀ (d : InstId) (s : State) (cut cut' : List (List Byte)), s.readyFor d → cut.flatten = cut'.flatten →
    ∃ t t' y y', deliverAll d s cut = some t ∧ deliverAll d s cut' = some t' ∧
      t.decoders[d]? = some y ∧ t'.decoders[d]? = some y' ∧ y.regs = y'.regs ∧
      (newRequests s t).flatMap (fun r => r.bytes) = (newRequests s t').flatMap (fun r => r.bytes) ∧
      payloads ([], []) (newRequests s t) = payloads ([], []) (newRequests s t')

/-- R137, R63: the slices of a stream follow one another within their frames, from the offset the instance was at. -/
def Obligations.SlicesFollowInOrder : Prop :=
  ∀ (d : InstId) (s t : State) (x : Decoder) (cut : List (List Byte)), s.readyFor d → s.decoders[d]? = some x →
    deliverAll d s cut = some t → slicesFollow x.regs.curOffset.toNat (newRequests s t)

/-- R167: a legal first byte, what an Encoder command wrote in its buffer `buf` (the bytes `e`), and a payload of the
declared length, fed in any cut to an instance in START: the sink gets exactly the payload, one invocation is the last,
the mask is the key throughout (0 if unmasked), the first byte is kept and the instance is in START again. -/
def Obligations.EncodedFramesRoundTrip : Prop :=
  ∀ (d : InstId) (s s0 t0 : State) (x : Decoder) (b1 : Byte) (cap pl : Len) (buf : BufferRef) (key : Key) (i : Instr)
    (e payload : List Byte) (cut : List (List Byte)), s.readyFor d → s.decoders[d]? = some x → x.regs.parseState = 0 →
    b1 ∈ [0x00#8, 0x01#8, 0x02#8, 0x08#8, 0x09#8, 0x0A#8, 0x80#8, 0x81#8, 0x82#8, 0x88#8, 0x89#8, 0x8A#8] →
    (i = .encUnmasked cap pl buf ∨ i = .encMasked cap pl buf key) → exec i s0 = .next t0 → 0 < e.length →
    t0.responses = s0.responses ++ [.count (BitVec.ofNat 64 e.length)] → e.length ≤ 13 →
    (∀ j, j < e.length → t0.bufRead buf j = e[j]?) → payload.length = pl.toNat → cut.flatten = b1 :: e ++ payload →
    ∃ t y, deliverAll d s cut = some t ∧ t.decoders[d]? = some y ∧ y.regs.headerByte1 = b1 ∧ y.regs.parseState = 0 ∧
      payloads ([], []) (newRequests s t) = ([payload], []) ∧
      ((newRequests s t).filter (fun r => r.last)).length = 1 ∧
      ∀ r ∈ newRequests s t, r.mask = if i = .encMasked cap pl buf key then key else 0
end

