-- ==== Sys2Proof/Laws/Fields.lean ====
section
/-! SUPPORT. The header bit fields of the bytes built from them, the rows against the checks, and the big-endian
accumulations as numbers. -/

namespace Sys2Proof

@[simp] theorem finOf_hdr1Byte (fin : Bool) (rsv : BitVec 3) (op : BitVec 4) : finOf (hdr1Byte fin rsv op) = fin := by
  revert fin rsv op; decide

@[simp] theorem rsvOf_hdr1Byte (fin : Bool) (rsv : BitVec 3) (op : BitVec 4) : rsvOf (hdr1Byte fin rsv op) = rsv := by
  revert fin rsv op; decide

@[simp] theorem opcodeOf_hdr1Byte (fin : Bool) (rsv : BitVec 3) (op : BitVec 4) : opcodeOf (hdr1Byte fin rsv op) = op := by
  revert fin rsv op; decide

@[simp] theorem maskfOf_hdr2Byte (m : Bool) (l : BitVec 7) : maskfOf (hdr2Byte m l) = m := by
  revert m l; decide

@[simp] theorem len7Of_hdr2Byte (m : Bool) (l : BitVec 7) : len7Of (hdr2Byte m l) = l := by
  revert m l; decide

/-- A first header byte is its fields. -/
theorem hdr1Byte_fields (b : Byte) : hdr1Byte (finOf b) (rsvOf b) (opcodeOf b) = b := by
  revert b; decide

/-- A second header byte is its fields. -/
theorem hdr2Byte_fields (b : Byte) : hdr2Byte (maskfOf b) (len7Of b) = b := by
  revert b; decide

/-- The reserved bits are the three flags. -/
theorem rsvBits_flags (b : Byte) : rsvBits (rsv1Of b) (rsv2Of b) (rsv3Of b) = rsvOf b := by
  revert b; decide

namespace Machine

@[simp] theorem reservedBitSet_hdr1Byte (fin : Bool) (rsv : BitVec 3) (op : BitVec 4) :
    reservedBitSet (hdr1Byte fin rsv op) = decide (rsv ≠ 0) := by
  simp [reservedBitSet]

/-- Some flag set: the reserved bits are not 000. -/
theorem rsvBits_eq_zero_iff (a b c : Bool) : rsvBits a b c = 0 ↔ a = false ∧ b = false ∧ c = false := by
  revert a b c; decide

/-- The extended length's accumulation as a number (R127): exact while no set bit is shifted out. -/
theorem accLen_toNat {v : Len} (h : v.toNat < 2 ^ 56) (b : Byte) : (accLen v b).toNat = v.toNat * 256 + b.toNat := by
  have hb := b.isLt
  rw [accLen, BitVec.toNat_or, BitVec.toNat_shiftLeft, BitVec.toNat_setWidth, Nat.shiftLeft_eq]
  have e1 : v.toNat * 2 ^ 8 % 2 ^ 64 = v.toNat <<< 8 := by rw [Nat.shiftLeft_eq]; omega
  have e2 : b.toNat % 2 ^ 64 = b.toNat := by omega
  rw [e1, e2, ← Nat.shiftLeft_add_eq_or_of_lt hb, Nat.shiftLeft_eq]

/-- The mask key's accumulation as a number (R129). -/
theorem accKey_toNat {v : Key} (h : v.toNat < 2 ^ 24) (b : Byte) : (accKey v b).toNat = v.toNat * 256 + b.toNat := by
  have hb := b.isLt
  rw [accKey, BitVec.toNat_or, BitVec.toNat_shiftLeft, BitVec.toNat_setWidth, Nat.shiftLeft_eq]
  have e1 : v.toNat * 2 ^ 8 % 2 ^ 32 = v.toNat <<< 8 := by rw [Nat.shiftLeft_eq]; omega
  have e2 : b.toNat % 2 ^ 32 = b.toNat := by omega
  rw [e1, e2, ← Nat.shiftLeft_add_eq_or_of_lt hb, Nat.shiftLeft_eq]

/-- The bytes of the chosen form are as many as `HLEN` says (R160). -/
@[simp] theorem lengthField_length (m : Bool) (pl : Len) : (lengthField m pl).length = formLen (lengthForm pl) := by
  unfold lengthField; cases lengthForm pl <;> rfl

@[simp] theorem keyBytes_length (k : Key) : (keyBytes k).length = 4 := rfl

/-! ## Whole fields (R80, R81) -/

/-- Four accumulated bytes are their concatenation (R81). -/
theorem accKey_four (k0 k1 k2 k3 : Byte) :
    accKey (accKey (accKey (accKey 0 k0) k1) k2) k3 = k0 ++ k1 ++ k2 ++ k3 := by
  apply BitVec.eq_of_getLsbD_eq
  intro i hi
  change _ = BitVec.getLsbD (w := 8 + 8 + 8 + 8) (k0 ++ k1 ++ k2 ++ k3) i
  rw [BitVec.getLsbD_append, BitVec.getLsbD_append, BitVec.getLsbD_append]
  simp only [accKey]
  interval_cases i <;> simp

/-- Two accumulated bytes are their concatenation, zero-extended (R80). -/
theorem accLen_two (x0 x1 : Byte) : accLen (accLen 0 x0) x1 = (x0 ++ x1).setWidth 64 := by
  apply BitVec.eq_of_getLsbD_eq
  intro i hi
  rw [BitVec.getLsbD_setWidth, BitVec.getLsbD_append]
  simp only [accLen]
  interval_cases i <;> simp

/-- Eight accumulated bytes are their concatenation (R80). -/
theorem accLen_eight (x0 x1 x2 x3 x4 x5 x6 x7 : Byte) :
    accLen (accLen (accLen (accLen (accLen (accLen (accLen (accLen 0 x0) x1) x2) x3) x4) x5) x6) x7 =
      x0 ++ x1 ++ x2 ++ x3 ++ x4 ++ x5 ++ x6 ++ x7 := by
  apply BitVec.eq_of_getLsbD_eq
  intro i hi
  change _ = BitVec.getLsbD (w := 8 + 8 + 8 + 8 + 8 + 8 + 8 + 8) (x0 ++ x1 ++ x2 ++ x3 ++ x4 ++ x5 ++ x6 ++ x7) i
  rw [BitVec.getLsbD_append, BitVec.getLsbD_append, BitVec.getLsbD_append, BitVec.getLsbD_append, BitVec.getLsbD_append,
    BitVec.getLsbD_append, BitVec.getLsbD_append]
  simp only [accLen]
  interval_cases i <;> simp

end Machine

end Sys2Proof
end

