-- ==== Sys2Proof/Laws/Memory.lean ====
section
/-! SUPPORT. The laws of the Encoder's output space: read after write, and the canonical form kept by every write. -/

namespace Sys2Proof.Machine

/-! ## Sparse data -/

theorem sparseGet_put_same {α : Type} (k : Nat) (v : α) (m : List (Nat × α)) :
    sparseGet k (sparsePut k v m) = some v := by
  induction m with
  | nil => simp [sparsePut, sparseGet]
  | cons e rest ih =>
    obtain ⟨k', v'⟩ := e
    simp only [sparsePut]
    split
    · simp [sparseGet]
    · split
      · simp [sparseGet]
      · rename_i _ hne
        simp [sparseGet, Ne.symm hne, ih]

theorem sparseGet_put_other {α : Type} {k j : Nat} (h : j ≠ k) (v : α) (m : List (Nat × α)) :
    sparseGet j (sparsePut k v m) = sparseGet j m := by
  induction m with
  | nil => simp [sparsePut, sparseGet, Ne.symm h]
  | cons e rest ih =>
    obtain ⟨k', v'⟩ := e
    simp only [sparsePut]
    split
    · simp [sparseGet, Ne.symm h]
    · split
      · rename_i _ heq
        subst heq
        simp [sparseGet, Ne.symm h]
      · simp [sparseGet, ih]

theorem sparseRising_cons {α : Type} {k : Nat} {v : α} {m : List (Nat × α)} :
    sparseRising ((k, v) :: m) = true ↔ (∀ e ∈ m.head?, k < e.1) ∧ sparseRising m = true := by
  cases m with
  | nil => simp [sparseRising]
  | cons e rest => obtain ⟨k', v'⟩ := e; simp [sparseRising]

/-- The least key after a write is the old least key or the written one. -/
theorem sparsePut_head {α : Type} {k : Nat} {v : α} {m : List (Nat × α)} {e : Nat × α}
    (h : (sparsePut k v m).head? = some e) : e.1 = k ∨ m.head?.map Prod.fst = some e.1 := by
  cases m with
  | nil => simp [sparsePut] at h; simp [← h]
  | cons e' rest =>
    obtain ⟨k', v'⟩ := e'
    simp only [sparsePut] at h
    split at h
    · simp at h; simp [← h]
    · split at h <;> simp at h <;> simp [← h]

theorem sparseRising_put {α : Type} (k : Nat) (v : α) {m : List (Nat × α)} (h : sparseRising m = true) :
    sparseRising (sparsePut k v m) = true := by
  induction m with
  | nil => rfl
  | cons e rest ih =>
    obtain ⟨k', v'⟩ := e
    have hr := sparseRising_cons.mp h
    simp only [sparsePut]
    split
    · rename_i hlt
      exact sparseRising_cons.mpr ⟨by simpa using hlt, h⟩
    · split
      · rename_i _ heq
        subst heq
        exact sparseRising_cons.mpr hr
      · refine sparseRising_cons.mpr ⟨fun e he => ?_, ih hr.2⟩
        rcases sparsePut_head he with h1 | h1
        · omega
        · cases rest with
          | nil => simp at h1
          | cons e2 r2 =>
            simp at h1
            have := hr.1 e2 (by simp)
            omega

theorem mem_sparsePut {α : Type} {k : Nat} {v : α} {m : List (Nat × α)} {e : Nat × α}
    (h : e ∈ sparsePut k v m) : e = (k, v) ∨ e ∈ m := by
  induction m with
  | nil => simpa [sparsePut] using h
  | cons e' rest ih =>
    obtain ⟨k', v'⟩ := e'
    simp only [sparsePut] at h
    split at h
    · simpa using h
    · split at h
      · rcases List.mem_cons.mp h with h | h
        · exact .inl h
        · exact .inr (List.mem_cons_of_mem _ h)
      · rcases List.mem_cons.mp h with h | h
        · exact .inr (h ▸ List.mem_cons_self)
        · exact (ih h).imp_right (List.mem_cons_of_mem _)

theorem sparsePut_ne_nil {α : Type} (k : Nat) (v : α) (m : List (Nat × α)) : sparsePut k v m ≠ [] := by
  cases m with
  | nil => simp [sparsePut]
  | cons e rest =>
    simp only [sparsePut]
    split
    · simp
    · split <;> simp

theorem mem_of_sparseGet {α : Type} {k : Nat} {v : α} {m : List (Nat × α)} (h : sparseGet k m = some v) :
    (k, v) ∈ m := by
  induction m with
  | nil => simp [sparseGet] at h
  | cons e rest ih =>
    obtain ⟨k', v'⟩ := e
    simp only [sparseGet] at h
    split at h
    · simp_all
    · exact List.mem_cons_of_mem _ (ih h)

/-! ## One output space -/

@[simp] theorem Memory.read_write_same (m : Memory) (i : Nat) (v : Byte) : (m.write i v).read i = some v :=
  sparseGet_put_same i v m

theorem Memory.read_write_other {i j : Nat} (h : j ≠ i) (m : Memory) (v : Byte) :
    (Memory.write m i v).read j = Memory.read m j :=
  sparseGet_put_other h v m

theorem Memory.wf_write {m : Memory} (h : m.wf = true) (i : Nat) (v : Byte) : (m.write i v).wf = true :=
  sparseRising_put i v h

/-! ## All output spaces -/

/-- What one `BufWrite` can do: its byte is there, every other byte of every buffer is as before. -/
theorem Buffers.read_write (bs : Buffers) (buf buf' : BufferRef) (i j : Nat) (v : Byte) :
    (Buffers.of (Buffers.write bs buf i v) buf').read j =
      if buf' = buf ∧ j = i then some v else (Buffers.of bs buf').read j := by
  by_cases hb : buf' = buf
  · subst hb
    simp only [Buffers.of, Buffers.write, sparseGet_put_same, Option.getD_some]
    by_cases hj : j = i
    · subst hj; simp
    · simp [hj, Memory.read_write_other hj]
  · simp [Buffers.of, Buffers.write, sparseGet_put_other hb, hb]

theorem Buffers.of_wf {bs : Buffers} (h : Buffers.wf bs = true) (buf : BufferRef) : (Buffers.of bs buf).wf = true := by
  unfold Buffers.of
  cases hg : sparseGet buf bs with
  | none => rfl
  | some m =>
    have := mem_of_sparseGet hg
    simp only [Buffers.wf, Bool.and_eq_true, List.all_eq_true] at h
    exact (h.2 _ this).1

theorem Buffers.wf_write {bs : Buffers} (h : Buffers.wf bs = true) (buf : BufferRef) (i : Nat) (v : Byte) :
    Buffers.wf (Buffers.write bs buf i v) = true := by
  have hof := Buffers.of_wf h buf
  simp only [Buffers.wf, Bool.and_eq_true, List.all_eq_true] at h ⊢
  refine ⟨sparseRising_put _ _ h.1, fun e he => ?_⟩
  rcases mem_sparsePut he with rfl | he
  · exact ⟨Memory.wf_write hof i v, by simp [Memory.write, sparsePut_ne_nil]⟩
  · exact h.2 e he

theorem Buffers.wf_writeFrom {bs : Buffers} (h : Buffers.wf bs = true) (buf : BufferRef) (i : Nat) (vs : List Byte) :
    Buffers.wf (Buffers.writeFrom bs buf i vs) = true := by
  induction vs generalizing bs i with
  | nil => exact h
  | cons v vs ih => exact ih (Buffers.wf_write h buf i v) (i + 1)

/-- What successive writes can do: the bytes stand in order from index `i` of `buf`, every other byte is as before. -/
theorem Buffers.read_writeFrom (bs : Buffers) (buf buf' : BufferRef) (i j : Nat) (vs : List Byte) :
    (Buffers.of (Buffers.writeFrom bs buf i vs) buf').read j =
      if buf' = buf ∧ i ≤ j ∧ j < i + vs.length then vs[j - i]? else (Buffers.of bs buf').read j := by
  induction vs generalizing bs i with
  | nil =>
    have : ¬ (buf' = buf ∧ i ≤ j ∧ j < i + ([] : List Byte).length) := by simp
    rw [if_neg this]; rfl
  | cons v vs ih =>
    rw [Buffers.writeFrom, ih, Buffers.read_write]
    by_cases hb : buf' = buf
    · by_cases hj : j = i
      · subst hj; simp [hb]
      · by_cases hin : i + 1 ≤ j ∧ j < i + 1 + vs.length
        · have h2 : i ≤ j ∧ j < i + (v :: vs).length := by simp; omega
          obtain ⟨m, rfl⟩ : ∃ m, j = i + 1 + m := ⟨j - (i + 1), by omega⟩
          have e1 : i + 1 + m - (i + 1) = m := by omega
          have e2 : i + 1 + m - i = m + 1 := by omega
          rw [if_pos ⟨hb, hin⟩, if_pos ⟨hb, h2⟩, e1, e2, List.getElem?_cons_succ]
        · have h2 : ¬ (i ≤ j ∧ j < i + (v :: vs).length) := by simp; omega
          simp only [hb, hj, hin, h2, and_false, if_false]
    · simp [hb]

end Sys2Proof.Machine
end

