-- ==== Sys2Proof/Laws/State.lean ====
section
/-! SUPPORT. One lemma per field per update of State and of the registers. -/

namespace Sys2Proof.Machine

/-! ## Updates of State -/

@[simp] theorem State.setDecoder_decoders (s : State) (d : InstId) (x : Decoder) :
    (s.setDecoder d x).decoders = s.decoders.set d x := rfl
@[simp] theorem State.setDecoder_running (s : State) (d : InstId) (x : Decoder) :
    (s.setDecoder d x).running = s.running := rfl
@[simp] theorem State.setDecoder_inputs (s : State) (d : InstId) (x : Decoder) :
    (s.setDecoder d x).inputs = s.inputs := rfl
@[simp] theorem State.setDecoder_responses (s : State) (d : InstId) (x : Decoder) :
    (s.setDecoder d x).responses = s.responses := rfl
@[simp] theorem State.setDecoder_requests (s : State) (d : InstId) (x : Decoder) :
    (s.setDecoder d x).requests = s.requests := rfl
@[simp] theorem State.setDecoder_buffers (s : State) (d : InstId) (x : Decoder) :
    (s.setDecoder d x).buffers = s.buffers := rfl

@[simp] theorem State.respond_decoders (s : State) (r : Response) :
    (s.respond r).decoders = s.decoders := rfl
@[simp] theorem State.respond_running (s : State) (r : Response) :
    (s.respond r).running = s.running := rfl
@[simp] theorem State.respond_inputs (s : State) (r : Response) :
    (s.respond r).inputs = s.inputs := rfl
@[simp] theorem State.respond_responses (s : State) (r : Response) :
    (s.respond r).responses = s.responses ++ [r] := rfl
@[simp] theorem State.respond_requests (s : State) (r : Response) :
    (s.respond r).requests = s.requests := rfl
@[simp] theorem State.respond_buffers (s : State) (r : Response) :
    (s.respond r).buffers = s.buffers := rfl

@[simp] theorem State.endFeed_decoders (s : State) (d : InstId) (x : Decoder) (c : Code) :
    (s.endFeed d x c).decoders = s.decoders.set d { x with feed := none } := rfl
@[simp] theorem State.endFeed_running (s : State) (d : InstId) (x : Decoder) (c : Code) :
    (s.endFeed d x c).running = none := rfl
@[simp] theorem State.endFeed_inputs (s : State) (d : InstId) (x : Decoder) (c : Code) :
    (s.endFeed d x c).inputs = s.inputs := rfl
@[simp] theorem State.endFeed_responses (s : State) (d : InstId) (x : Decoder) (c : Code) :
    (s.endFeed d x c).responses = s.responses ++ [.result d c] := rfl
@[simp] theorem State.endFeed_requests (s : State) (d : InstId) (x : Decoder) (c : Code) :
    (s.endFeed d x c).requests = s.requests := rfl
@[simp] theorem State.endFeed_buffers (s : State) (d : InstId) (x : Decoder) (c : Code) :
    (s.endFeed d x c).buffers = s.buffers := rfl

@[simp] theorem State.enterError_decoders (s : State) (d : InstId) (x : Decoder) (cause : Cause) (c : Code) :
    (s.enterError d x cause c).decoders = s.decoders.set d
      { regs := { x.regs with parseState := psError }, feed := none, cause := some cause } := rfl
@[simp] theorem State.enterError_running (s : State) (d : InstId) (x : Decoder) (cause : Cause) (c : Code) :
    (s.enterError d x cause c).running = none := rfl
@[simp] theorem State.enterError_inputs (s : State) (d : InstId) (x : Decoder) (cause : Cause) (c : Code) :
    (s.enterError d x cause c).inputs = s.inputs := rfl
@[simp] theorem State.enterError_responses (s : State) (d : InstId) (x : Decoder) (cause : Cause) (c : Code) :
    (s.enterError d x cause c).responses = s.responses ++ [.result d c] := rfl
@[simp] theorem State.enterError_requests (s : State) (d : InstId) (x : Decoder) (cause : Cause) (c : Code) :
    (s.enterError d x cause c).requests = s.requests := rfl
@[simp] theorem State.enterError_buffers (s : State) (d : InstId) (x : Decoder) (cause : Cause) (c : Code) :
    (s.enterError d x cause c).buffers = s.buffers := rfl

@[simp] theorem State.sinkInvoke_decoders (s : State) (d : InstId) (x : Decoder) (f : Feed) :
    (s.sinkInvoke d x f).decoders = s.decoders.set d
      { regs := { x.regs with inSink := true }, feed := some f, cause := x.cause } := rfl
@[simp] theorem State.sinkInvoke_running (s : State) (d : InstId) (x : Decoder) (f : Feed) :
    (s.sinkInvoke d x f).running = none := rfl
@[simp] theorem State.sinkInvoke_inputs (s : State) (d : InstId) (x : Decoder) (f : Feed) :
    (s.sinkInvoke d x f).inputs = s.inputs := rfl
@[simp] theorem State.sinkInvoke_responses (s : State) (d : InstId) (x : Decoder) (f : Feed) :
    (s.sinkInvoke d x f).responses = s.responses := rfl
@[simp] theorem State.sinkInvoke_requests (s : State) (d : InstId) (x : Decoder) (f : Feed) :
    (s.sinkInvoke d x f).requests = s.requests ++ [sinkRequest d x.regs f] := rfl
@[simp] theorem State.sinkInvoke_buffers (s : State) (d : InstId) (x : Decoder) (f : Feed) :
    (s.sinkInvoke d x f).buffers = s.buffers := rfl

theorem State.decoder?_setDecoder_same {s : State} {d : InstId} {y : Decoder} (h : s.decoder? d = some y) (x : Decoder) :
    (s.setDecoder d x).decoder? d = some x := by
  have hd : d < s.decoders.length := by
    simpa using (List.getElem?_eq_some_iff.mp h).1
  simp [State.decoder?, hd]

theorem State.decoder?_setDecoder_other (s : State) {d e : InstId} (h : e ≠ d) (x : Decoder) :
    (s.setDecoder d x).decoder? e = s.decoder? e := by
  simp [State.decoder?, List.getElem?_set_ne (Ne.symm h)]

/-! ## Updates of the registers -/

@[simp] theorem Regs.clear_sinkBound (r : Regs) : r.clear.sinkBound = r.sinkBound := rfl
@[simp] theorem Regs.clear_sinkCtx (r : Regs) : r.clear.sinkCtx = r.sinkCtx := rfl
@[simp] theorem Regs.clear_curOffset (r : Regs) : r.clear.curOffset = 0 := rfl
@[simp] theorem Regs.clear_expectedLen (r : Regs) : r.clear.expectedLen = 0 := rfl
@[simp] theorem Regs.clear_mask (r : Regs) : r.clear.mask = 0 := rfl
@[simp] theorem Regs.clear_headerByte1 (r : Regs) : r.clear.headerByte1 = 0 := rfl
@[simp] theorem Regs.clear_headerByte2 (r : Regs) : r.clear.headerByte2 = 0 := rfl
@[simp] theorem Regs.clear_parseState (r : Regs) : r.clear.parseState = psStart := rfl
@[simp] theorem Regs.clear_remainingIntBytes (r : Regs) : r.clear.remainingIntBytes = 0 := rfl
@[simp] theorem Regs.clear_inSink (r : Regs) : r.clear.inSink = false := rfl

@[simp] theorem Regs.completeFrame_sinkBound (r : Regs) : r.completeFrame.sinkBound = r.sinkBound := rfl
@[simp] theorem Regs.completeFrame_sinkCtx (r : Regs) : r.completeFrame.sinkCtx = r.sinkCtx := rfl
@[simp] theorem Regs.completeFrame_curOffset (r : Regs) : r.completeFrame.curOffset = 0 := rfl
@[simp] theorem Regs.completeFrame_expectedLen (r : Regs) : r.completeFrame.expectedLen = 0 := rfl
@[simp] theorem Regs.completeFrame_mask (r : Regs) : r.completeFrame.mask = 0 := rfl
@[simp] theorem Regs.completeFrame_headerByte1 (r : Regs) : r.completeFrame.headerByte1 = r.headerByte1 := rfl
@[simp] theorem Regs.completeFrame_headerByte2 (r : Regs) : r.completeFrame.headerByte2 = r.headerByte2 := rfl
@[simp] theorem Regs.completeFrame_parseState (r : Regs) : r.completeFrame.parseState = psStart := rfl
@[simp] theorem Regs.completeFrame_remainingIntBytes (r : Regs) : r.completeFrame.remainingIntBytes = r.remainingIntBytes := rfl
@[simp] theorem Regs.completeFrame_inSink (r : Regs) : r.completeFrame.inSink = r.inSink := rfl

/-- Clearing is idempotent (R211). -/
@[simp] theorem Regs.clear_clear (r : Regs) : r.clear.clear = r.clear := rfl

/-! ## A parse step passes (log 21) -/

@[simp] theorem State.tick_decoders (s : State) : s.tick.decoders = s.decoders := rfl
@[simp] theorem State.tick_running (s : State) : s.tick.running = s.running := rfl
@[simp] theorem State.tick_responses (s : State) : s.tick.responses = s.responses := rfl
@[simp] theorem State.tick_requests (s : State) : s.tick.requests = s.requests := rfl
@[simp] theorem State.tick_buffers (s : State) : s.tick.buffers = s.buffers := rfl
@[simp] theorem State.tick_inputs (s : State) : s.tick.inputs = passStep s.inputs := rfl

end Sys2Proof.Machine
end

