-- ==== Sys2Proof/Laws/Ops.lean ====
section
/-! SUPPORT. One lemma per shared operation: everything it can do. Later proofs cite these and do not unfold. -/

namespace Sys2Proof.Machine

/-! ## The executing FEED -/

theorem State.current_eq_some {s : State} {d : InstId} {x : Decoder} {f : Feed} :
    s.current = some (d, x, f) ↔ s.Feeding d x f := by
  unfold State.current State.Feeding State.decoder?
  constructor
  · intro h
    split at h
    · simp at h
    · split at h
      · simp at h
      · split at h
        · simp at h
        · simp only [Option.some.injEq, Prod.mk.injEq] at h
          obtain ⟨rfl, rfl, rfl⟩ := h
          exact ⟨by assumption, by assumption, by assumption⟩
  · rintro ⟨h1, h2, h3⟩
    simp [h1, h2, h3]

theorem State.inFeed_feeding {s : State} {d : InstId} {x : Decoder} {f : Feed} (h : s.Feeding d x f)
    (k : InstId → Decoder → Feed → State) : s.inFeed k = .next (k d x f) := by
  simp [State.inFeed, State.current_eq_some.mpr h]

/-- What a parse step's frame can do: it answers a next state exactly in a FEED. -/
theorem State.inFeed_next {s t : State} {k : InstId → Decoder → Feed → State} :
    s.inFeed k = .next t ↔ ∃ d x f, s.Feeding d x f ∧ t = k d x f := by
  constructor
  · intro h
    unfold State.inFeed at h
    split at h
    · simp at h
    · rename_i d x f hc
      exact ⟨d, x, f, State.current_eq_some.mp hc, by simpa using h.symm⟩
  · rintro ⟨d, x, f, hf, rfl⟩
    exact State.inFeed_feeding hf k

/-- What the guard of INIT, FEED and RESET can do (R106). -/
theorem State.withIdle_next {s t : State} {d : InstId} {k : Decoder → Result} :
    s.withIdle d k = .next t ↔ ∃ x, s.decoders[d]? = some x ∧ x.regs.inSink = false ∧ k x = .next t := by
  unfold State.withIdle State.decoder?
  cases hd : s.decoders[d]? with
  | none => simp
  | some x => cases hi : x.regs.inSink <;> simp [hi]

theorem State.withIdle_idle {s : State} {d : InstId} {x : Decoder} (hd : s.decoders[d]? = some x)
    (hi : x.regs.inSink = false) (k : Decoder → Result) : s.withIdle d k = k x := by
  simp [State.withIdle, State.decoder?, hd, hi]

theorem State.withIdle_reentrant {s : State} {d : InstId} {x : Decoder} (hd : s.decoders[d]? = some x)
    (hi : x.regs.inSink = true) (k : Decoder → Result) : s.withIdle d k = .refused (.reentrant d) := by
  simp [State.withIdle, State.decoder?, hd, hi]

/-! ## The FEED loop -/

theorem isHeaderState_iff {ps : BitVec 3} : isHeaderState ps = true ↔ ps.toNat ≤ 3 := by
  revert ps; decide

/-- The head of the loop suspends (R139). -/
theorem State.resume_suspends {s : State} {d : InstId} {x : Decoder} {f : Feed}
    (hs : isHeaderState x.regs.parseState = true) (hp : f.chunk.length ≤ f.p) :
    s.resume d x f = s.endFeed d x resSuccess := by
  simp [State.resume, hs, hp]

/-- The head of the loop goes on (R120). -/
theorem State.resume_goesOn {s : State} {d : InstId} {x : Decoder} {f : Feed}
    (h : isHeaderState x.regs.parseState = false ∨ f.p < f.chunk.length) :
    s.resume d x f = { s.setDecoder d { x with feed := some f } with running := some d } := by
  rcases h with h | h
  · simp [State.resume, h]
  · have : ¬ f.chunk.length ≤ f.p := by omega
    simp [State.resume, this]

/-- What the head of the loop can do. -/
theorem State.resume_cases (s : State) (d : InstId) (x : Decoder) (f : Feed) :
    (isHeaderState x.regs.parseState = true ∧ f.chunk.length ≤ f.p ∧ s.resume d x f = s.endFeed d x resSuccess) ∨
    ((isHeaderState x.regs.parseState = true → f.p < f.chunk.length) ∧
      s.resume d x f = { s.setDecoder d { x with feed := some f } with running := some d }) := by
  by_cases hs : isHeaderState x.regs.parseState = true
  · by_cases hp : f.chunk.length ≤ f.p
    · exact .inl ⟨hs, hp, State.resume_suspends hs hp⟩
    · exact .inr ⟨fun _ => by omega, State.resume_goesOn (.inr (by omega))⟩
  · exact .inr ⟨fun h => absurd h hs, State.resume_goesOn (.inl (by simpa using hs))⟩

/-- The head of the loop touches the instance's FEED, the control and the responses only. -/
@[simp] theorem State.resume_frame (s : State) (d : InstId) (x : Decoder) (f : Feed) :
    (s.resume d x f).inputs = s.inputs ∧ (s.resume d x f).requests = s.requests ∧
      (s.resume d x f).buffers = s.buffers := by
  rcases s.resume_cases d x f with ⟨_, _, h⟩ | ⟨_, h⟩ <;> simp [h]

/-- After a header step without error the machine is as spelled out. -/
theorem State.resume_headerDone {s : State} {d : InstId} {x : Decoder} {f : Feed} {r : Regs}
    (hr : r.parseState.toNat ≤ 4) :
    s.resume d { x with regs := r } { f with p := f.p + 1 } = s.headerDone d x f r := by
  unfold State.headerDone
  split
  · rename_i h
    rw [State.resume_goesOn]
    · rfl
    · rcases h with h | h
      · exact .inr h
      · left
        simp [h, isHeaderState, psStart, psByte2, psExtLen, psMask]
  · rename_i h
    push Not at h
    rw [State.resume_suspends]
    · rfl
    · refine isHeaderState_iff.mpr ?_
      have : r.parseState.toNat ≠ 4 := fun h4 => h.2 (by apply BitVec.eq_of_toNat_eq; simpa using h4)
      simp only
      omega
    · exact h.1

/-- The entry into ERROR is as spelled out (R183). -/
theorem State.enterError_feedFailed (s : State) (d : InstId) (x : Decoder) (cause : Cause) (code : Code) :
    s.enterError d x cause code = s.feedFailed d x.regs cause code := rfl

/-! ## Header steps -/

theorem State.headerStep_byte {s : State} {d : InstId} {x : Decoder} {f : Feed} {b : Byte}
    (h : s.Feeding d x f) (hb : f.chunk[f.p]? = some b) (act : Byte → Regs → Regs × Option Cause) :
    s.headerStep act = .next (s.afterHeader d x f (act b x.regs)) := by
  rw [State.headerStep, State.inFeed_feeding h]; simp [hb]

theorem State.headerStep_end {s : State} {d : InstId} {x : Decoder} {f : Feed}
    (h : s.Feeding d x f) (hb : f.chunk.length ≤ f.p) (act : Byte → Regs → Regs × Option Cause) :
    s.headerStep act = .next (s.resume d x f) := by
  rw [State.headerStep, State.inFeed_feeding h]; simp [List.getElem?_eq_none hb]

theorem State.headerRow_byte {s : State} {d : InstId} {x : Decoder} {f : Feed}
    (h : s.Feeding d x f) (hp : f.p < f.chunk.length) (act : Byte → Regs → Regs × Option Cause) (b : Byte) :
    s.headerRow act b = .next (s.afterHeader d x f (act b x.regs)) := by
  rw [State.headerRow, State.inFeed_feeding h]; simp [hp]

/-- A header row is the header step where the chunk holds the row's byte (log 12). -/
theorem State.headerRow_eq_headerStep {s : State} {d : InstId} {x : Decoder} {f : Feed} {b : Byte}
    (h : s.Feeding d x f) (hb : f.chunk[f.p]? = some b) (act : Byte → Regs → Regs × Option Cause) :
    s.headerRow act b = s.headerStep act := by
  rw [State.headerStep_byte h hb, State.headerRow_byte h (List.getElem?_eq_some_iff.mp hb).1]

theorem State.afterHeader_noError (s : State) (d : InstId) (x : Decoder) (f : Feed)
    (act : Byte → Regs → Regs) (b : Byte) (hr : (act b x.regs).parseState.toNat ≤ 4) :
    s.afterHeader d x f (noError act b x.regs) = s.headerDone d x f (act b x.regs) :=
  State.resume_headerDone hr

/-! ## The START step -/

theorem startStep_accepts {b : Byte} (h : header1Legal b = true) (r : Regs) :
    startStep b r = ({ r with headerByte1 := b, parseState := psByte2 }, none) := by
  simp only [header1Legal, Bool.and_eq_true, Bool.not_eq_true'] at h
  simp [startStep, h.1, h.2]

theorem startStep_rsv {b : Byte} (h : reservedBitSet b = true) (r : Regs) :
    startStep b r = ({ r with headerByte1 := b }, some .rsv) := by
  simp [startStep, h]

theorem startStep_opcode {b : Byte} (h : reservedBitSet b = false) (ho : opcodeAccepted (opcodeOf b) = false) (r : Regs) :
    startStep b r = ({ r with headerByte1 := b }, some .opcode) := by
  simp [startStep, h, ho]

/-- What the START step can do (R121 to R123). -/
theorem startStep_cases (b : Byte) (r : Regs) :
    (header1Legal b = true ∧ startStep b r = ({ r with headerByte1 := b, parseState := psByte2 }, none)) ∨
    (∃ c, startStep b r = ({ r with headerByte1 := b }, some c)) := by
  by_cases h : reservedBitSet b = true
  · exact .inr ⟨_, startStep_rsv h r⟩
  · by_cases ho : opcodeAccepted (opcodeOf b) = true
    · have : header1Legal b = true := by simp [header1Legal, h, ho]
      exact .inl ⟨this, startStep_accepts this r⟩
    · exact .inr ⟨_, startStep_opcode (by simpa using h) (by simpa using ho) r⟩

/-! ## The length, the mask key -/

theorem afterLength_masked {r : Regs} (h : r.maskf = true) :
    afterLength r = { r with remainingIntBytes := 4, parseState := psMask } := by simp [afterLength, h]

theorem afterLength_unmasked {r : Regs} (h : r.maskf = false) :
    afterLength r = { r with remainingIntBytes := 0, parseState := psPayload } := by simp [afterLength, h]

theorem afterLength_parseState_le (r : Regs) : (afterLength r).parseState.toNat ≤ 4 := by
  unfold afterLength; split <;> simp [psMask, psPayload]

theorem byte2Step_parseState_le (b : Byte) (r : Regs) : (byte2Step b r).parseState.toNat ≤ 4 := by
  unfold byte2Step
  split
  · simp [psExtLen]
  · split
    · simp [psExtLen]
    · exact afterLength_parseState_le _

theorem extLenStep_parseState_le (b : Byte) {r : Regs} (h : r.parseState.toNat ≤ 4) :
    (extLenStep b r).parseState.toNat ≤ 4 := by
  unfold extLenStep
  simp only
  split
  · exact afterLength_parseState_le _
  · exact h

theorem maskStep_parseState_le (b : Byte) {r : Regs} (h : r.parseState.toNat ≤ 4) :
    (maskStep b r).parseState.toNat ≤ 4 := by
  unfold maskStep
  simp only
  split
  · simp [psPayload]
  · exact h

/-- What no header step writes: the sink binding, `in_sink` and `cur_offset` (R140). -/
theorem afterLength_frame (r : Regs) : (afterLength r).sinkBound = r.sinkBound ∧ (afterLength r).sinkCtx = r.sinkCtx ∧
    (afterLength r).inSink = r.inSink ∧ (afterLength r).curOffset = r.curOffset := by
  unfold afterLength; split <;> simp

theorem byte2Step_frame (b : Byte) (r : Regs) : (byte2Step b r).sinkBound = r.sinkBound ∧
    (byte2Step b r).sinkCtx = r.sinkCtx ∧ (byte2Step b r).inSink = r.inSink ∧ (byte2Step b r).curOffset = r.curOffset := by
  unfold byte2Step
  simp only
  split
  · simp
  · split
    · simp
    · exact afterLength_frame _

theorem extLenStep_frame (b : Byte) (r : Regs) : (extLenStep b r).sinkBound = r.sinkBound ∧
    (extLenStep b r).sinkCtx = r.sinkCtx ∧ (extLenStep b r).inSink = r.inSink ∧ (extLenStep b r).curOffset = r.curOffset := by
  unfold extLenStep
  simp only
  split
  · exact afterLength_frame _
  · simp

theorem maskStep_frame (b : Byte) (r : Regs) : (maskStep b r).sinkBound = r.sinkBound ∧
    (maskStep b r).sinkCtx = r.sinkCtx ∧ (maskStep b r).inSink = r.inSink ∧ (maskStep b r).curOffset = r.curOffset := by
  unfold maskStep
  simp only
  split <;> simp

/-! ## The payload -/

theorem State.payloadStep_request {s : State} {d : InstId} {x : Decoder} {f : Feed}
    (h : s.Feeding d x f) (hi : x.regs.inSink = false) : s.payloadStep = .next (s.sinkInvoke d x f) := by
  rw [State.payloadStep, State.inFeed_feeding h]; simp [hi]

theorem State.payloadStep_answer {s : State} {d : InstId} {x : Decoder} {f : Feed} {code : Code}
    (h : s.Feeding d x f) (hi : x.regs.inSink = true) (ha : f.answer = some code) :
    s.payloadStep = .next (s.sinkAnswered d x f code) := by
  rw [State.payloadStep, State.inFeed_feeding h]; simp [hi, ha]

/-- Sink rejection (R135). -/
theorem State.sinkAnswered_rejected {s : State} {d : InstId} {x : Decoder} {f : Feed} {code : Code} (h : code ≠ resSuccess) :
    s.sinkAnswered d x f code = s.enterError d { x with regs := { x.regs with inSink := false } } .sink code := by
  simp [State.sinkAnswered, h]

/-- Partial outcome (R133). -/
theorem State.sinkAnswered_partial {s : State} {d : InstId} {x : Decoder} {f : Feed} (h : f.left < x.regs.rem) :
    s.sinkAnswered d x f resSuccess =
      s.endFeed d { x with regs := { x.regs with inSink := false, curOffset := x.regs.advanced f.left } } resSuccess := by
  have h' : f.left < Regs.rem { x.regs with inSink := false } := h
  have hk : sliceLen { x.regs with inSink := false } f = f.left := Nat.min_eq_left (Nat.le_of_lt h')
  simp [State.sinkAnswered, h', hk, Regs.advanced]

/-- Complete outcome (R134). -/
theorem State.sinkAnswered_complete {s : State} {d : InstId} {x : Decoder} {f : Feed} (h : x.regs.rem ≤ f.left) :
    s.sinkAnswered d x f resSuccess =
      s.resume d { x with regs := { x.regs with inSink := false }.completeFrame }
        { f with p := f.p + x.regs.rem, answer := none } := by
  have h' : ¬ f.left < Regs.rem { x.regs with inSink := false } := by
    have : Regs.rem { x.regs with inSink := false } = x.regs.rem := rfl
    omega
  have hk : sliceLen { x.regs with inSink := false } f = x.regs.rem := Nat.min_eq_right h
  simp [State.sinkAnswered, h', hk]

/-! ## The Encoder -/

theorem State.emit_short {s : State} {cap : Len} {buf : BufferRef} {h : Nat} {bytes : List Byte} (hc : cap.toNat < h) :
    s.emit cap buf h bytes = s.respond (.count 0) := by
  simp [State.emit, hc]

theorem State.emit_fits {s : State} {cap : Len} {buf : BufferRef} {h : Nat} {bytes : List Byte} (hc : h ≤ cap.toNat) :
    s.emit cap buf h bytes =
      { s with buffers := Buffers.writeFrom s.buffers buf 0 bytes, responses := s.responses ++ [.count (BitVec.ofNat 64 h)] } := by
  simp [State.emit, Nat.not_lt.mpr hc, State.respond]

end Sys2Proof.Machine
end

