-- ==== Sys2Proof/Laws/Exec.lean ====
section
/-! SUPPORT. What one instruction can do when it answers a next state, said once: the one instance it touches, how that
instance's registers can change, and what everything else keeps. -/

namespace Sys2Proof.Machine

/-- From `s` to `t` nothing changed but instance `d`, the control, and at most one response and one request added. -/
structure Touched (s : State) (d : InstId) (y : Decoder) (t : State) : Prop where
  decoders : t.decoders = s.decoders.set d y
  inputs : t.inputs = s.inputs
  buffers : t.buffers = s.buffers
  responses : ∃ rs, t.responses = s.responses ++ rs ∧ rs.length ≤ 1
  requests : ∃ rq, t.requests = s.requests ++ rq ∧ rq.length ≤ 1

/-- The ways a first header byte can change the registers. -/
def Header1Change (r r' : Regs) : Prop := r' = r ∨ ∃ b ps, r' = { r with headerByte1 := b, parseState := ps }

/-- The ways a second header byte can change the registers. -/
def Header2Change (r r' : Regs) : Prop := r' = r ∨ ∃ b, r' = byte2Step b r

/-- The ways a PAYLOAD step can change the registers: the request, the wait, and the three outcomes. -/
def PayloadChange (r r' : Regs) : Prop :=
  r' = r ∨ r' = { r with inSink := true } ∨ r' = { r with inSink := false, parseState := psError } ∨
  (∃ k, r' = { r with inSink := false, curOffset := r.advanced k }) ∨ r' = Regs.completeFrame { r with inSink := false }

/-- The ways an instruction can change its instance's registers. -/
def RegsChange (i : Instr) (r r' : Regs) : Prop :=
  match i with
  | .init _ ctx => r' = { r.clear with sinkBound := true, sinkCtx := ctx }
  | .feed _ _ => r' = r
  | .reset _ => r' = r.clear
  | .status _ => r' = r
  | .encUnmasked _ _ _ => False
  | .encMasked _ _ _ _ => False
  | .stepStart => Header1Change r r'
  | .stepByte2 => Header2Change r r'
  | .stepExtLen => r' = r ∨ ∃ b, r' = extLenStep b r
  | .stepMask => r' = r ∨ ∃ b, r' = maskStep b r
  | .stepPayload => PayloadChange r r'
  | .stepError => r' = r
  | .hdr1Continuation _ => Header1Change r r'
  | .hdr1Text _ => Header1Change r r'
  | .hdr1Binary _ => Header1Change r r'
  | .hdr1Close _ => Header1Change r r'
  | .hdr1Ping _ => Header1Change r r'
  | .hdr1Pong _ => Header1Change r r'
  | .hdr1Rsv1Set _ _ _ _ => Header1Change r r'
  | .hdr1Rsv2Set _ _ _ _ => Header1Change r r'
  | .hdr1Rsv3Set _ _ _ _ => Header1Change r r'
  | .hdr1Reserved3 _ => Header1Change r r'
  | .hdr1Reserved4To7 _ _ => Header1Change r r'
  | .hdr1ReservedB _ => Header1Change r r'
  | .hdr1ReservedCToF _ _ => Header1Change r r'
  | .hdr2Len16 _ => Header2Change r r'
  | .hdr2Len64 _ => Header2Change r r'
  | .hdr2Len7Literal _ _ => Header2Change r r'
  | .hdr2Masked _ => Header2Change r r'
  | .hdr2Unmasked _ => Header2Change r r'

/-- Setting an instance to what it is changes nothing. -/
theorem set_self {l : List Decoder} {d : Nat} {x : Decoder} (h : l[d]? = some x) : l.set d x = l := by
  obtain ⟨hd, rfl⟩ := List.getElem?_eq_some_iff.mp h
  exact List.set_getElem_self hd

/-- A FEED that returns touches its instance, whose registers are as given. -/
theorem State.endFeed_touched (s : State) (d : InstId) (x : Decoder) (code : Code) :
    Touched s d { x with feed := none } (s.endFeed d x code) :=
  ⟨rfl, rfl, rfl, ⟨[_], rfl, by simp⟩, ⟨[], by simp, by simp⟩⟩

/-- The head of the loop touches the instance, whose registers are as given. -/
theorem State.resume_touched (s : State) (d : InstId) (x : Decoder) (f : Feed) :
    ∃ y, Touched s d y (s.resume d x f) ∧ y.regs = x.regs ∧ y.cause = x.cause := by
  rcases s.resume_cases d x f with ⟨-, -, h⟩ | ⟨-, h⟩ <;> rw [h]
  · exact ⟨_, s.endFeed_touched d x resSuccess, rfl, rfl⟩
  · exact ⟨_, ⟨rfl, rfl, rfl, ⟨[], by simp, by simp⟩, ⟨[], by simp, by simp⟩⟩, rfl, rfl⟩

/-- What a header step leaves behind. -/
theorem State.afterHeader_touched (s : State) (d : InstId) (x : Decoder) (f : Feed) (res : Regs × Option Cause) :
    ∃ y, Touched s d y (s.afterHeader d x f res) ∧
      ((res.2 = none ∧ y.regs = res.1) ∨ (res.2 ≠ none ∧ y.regs = { res.1 with parseState := psError })) := by
  obtain ⟨r, c⟩ := res
  cases c with
  | none =>
    obtain ⟨y, h1, h2, -⟩ := s.resume_touched d { x with regs := r } { f with p := f.p + 1 }
    exact ⟨y, h1, .inl ⟨rfl, h2⟩⟩
  | some c => exact ⟨_, s.endFeed_touched d _ resInvalid, .inr ⟨by simp, rfl⟩⟩

/-- What a parse step answers a next state with: the executing FEED. -/
theorem State.headerStep_next {s t : State} {act : Byte → Regs → Regs × Option Cause} (h : s.headerStep act = .next t) :
    ∃ d x f, s.Feeding d x f ∧ ((∃ b, t = s.afterHeader d x f (act b x.regs)) ∨ t = s.resume d x f) := by
  obtain ⟨d, x, f, hf, ht⟩ := State.inFeed_next.mp h
  refine ⟨d, x, f, hf, ?_⟩
  split at ht
  · exact .inl ⟨_, ht⟩
  · exact .inr ht

theorem State.headerRow_next {s t : State} {act : Byte → Regs → Regs × Option Cause} {b : Byte}
    (h : s.headerRow act b = .next t) :
    ∃ d x f, s.Feeding d x f ∧ ((∃ b, t = s.afterHeader d x f (act b x.regs)) ∨ t = s.resume d x f) := by
  obtain ⟨d, x, f, hf, ht⟩ := State.inFeed_next.mp h
  refine ⟨d, x, f, hf, ?_⟩
  split at ht
  · exact .inl ⟨_, ht⟩
  · exact .inr ht

/-- What the second half of a PAYLOAD step leaves behind. -/
theorem State.sinkAnswered_touched (s : State) (d : InstId) (x : Decoder) (f : Feed) (code : Code) :
    ∃ y, Touched s d y (s.sinkAnswered d x f code) ∧ PayloadChange x.regs y.regs := by
  by_cases hc : code = resSuccess
  · subst hc
    by_cases hlt : f.left < x.regs.rem
    · rw [State.sinkAnswered_partial hlt]
      exact ⟨_, s.endFeed_touched d _ _, .inr (.inr (.inr (.inl ⟨f.left, rfl⟩)))⟩
    · rw [State.sinkAnswered_complete (Nat.not_lt.mp hlt)]
      obtain ⟨y, h1, h2, -⟩ := s.resume_touched d { x with regs := { x.regs with inSink := false }.completeFrame }
        { f with p := f.p + x.regs.rem, answer := none }
      exact ⟨y, h1, .inr (.inr (.inr (.inr h2)))⟩
  · rw [State.sinkAnswered_rejected hc]
    exact ⟨_, s.endFeed_touched d _ _, .inr (.inr (.inl rfl))⟩

theorem State.payloadStep_next {s t : State} (h : s.payloadStep = .next t) :
    ∃ d x f, s.Feeding d x f ∧ ∃ y, Touched s d y t ∧ PayloadChange x.regs y.regs := by
  obtain ⟨d, x, f, hf, ht⟩ := State.inFeed_next.mp h
  refine ⟨d, x, f, hf, ?_⟩
  split at ht
  · split at ht
    · refine ⟨x, ?_, .inl rfl⟩
      rw [ht]
      refine ⟨?_, rfl, rfl, ⟨[], by simp, by simp⟩, ⟨[], by simp, by simp⟩⟩
      exact (set_self hf.2.1).symm
    · rw [ht]; exact s.sinkAnswered_touched d x f _
  · rw [ht]
    exact ⟨_, ⟨rfl, rfl, rfl, ⟨[], by simp, by simp⟩, ⟨[_], rfl, by simp⟩⟩, .inr (.inl rfl)⟩

/-- What one instruction can do. -/
theorem exec_cases {i : Instr} {s t : State} (h : exec i s = .next t) :
    (∃ cap pl buf k n bytes, (i = .encUnmasked cap pl buf ∨ i = .encMasked cap pl buf k) ∧ t = s.emit cap buf n bytes) ∨
    ∃ d x y, instrTarget i s = some d ∧ s.decoders[d]? = some x ∧ Touched s d y t ∧ RegsChange i x.regs y.regs := by
  have hset : ∀ (d : InstId) (x : Decoder), s.decoders[d]? = some x → s.decoders = s.decoders.set d x := fun d x hx =>
    (set_self hx).symm
  have hrow1 : ∀ b, s.headerRow startStep b = .next t →
      ∃ d x y, s.running = some d ∧ s.decoders[d]? = some x ∧ Touched s d y t ∧ Header1Change x.regs y.regs := by
    intro b h
    obtain ⟨d, x, f, hf, ⟨b', rfl⟩ | rfl⟩ := State.headerRow_next h
    · obtain ⟨y, h1, h2⟩ := s.afterHeader_touched d x f (startStep b' x.regs)
      refine ⟨d, x, y, hf.1, hf.2.1, h1, .inr ?_⟩
      rcases startStep_cases b' x.regs with ⟨-, he⟩ | ⟨c, he⟩ <;> rw [he] at h2 <;> rcases h2 with ⟨-, h2⟩ | ⟨-, h2⟩ <;>
        exact ⟨_, _, h2⟩
    · obtain ⟨y, h1, h2, -⟩ := s.resume_touched d x f
      exact ⟨d, x, y, hf.1, hf.2.1, h1, .inl h2⟩
  have hact : ∀ act : Byte → Regs → Regs, (s.headerStep (noError act) = .next t ∨ ∃ b, s.headerRow (noError act) b = .next t) →
      ∃ d x y, s.running = some d ∧ s.decoders[d]? = some x ∧ Touched s d y t ∧ (y.regs = x.regs ∨ ∃ b, y.regs = act b x.regs) := by
    intro act h
    have h' : ∃ d x f, s.Feeding d x f ∧ ((∃ b, t = s.afterHeader d x f (noError act b x.regs)) ∨ t = s.resume d x f) := by
      rcases h with h | ⟨b, h⟩
      · exact State.headerStep_next h
      · exact State.headerRow_next h
    obtain ⟨d, x, f, hf, ⟨b', rfl⟩ | rfl⟩ := h'
    · obtain ⟨y, h1, ⟨-, h2⟩ | ⟨h2, -⟩⟩ := s.afterHeader_touched d x f (noError act b' x.regs)
      · exact ⟨d, x, y, hf.1, hf.2.1, h1, .inr ⟨b', h2⟩⟩
      · exact absurd rfl h2
    · obtain ⟨y, h1, h2, -⟩ := s.resume_touched d x f
      exact ⟨d, x, y, hf.1, hf.2.1, h1, .inl h2⟩
  cases i
  case init d ctx =>
    obtain ⟨x, hx, -, hk⟩ := State.withIdle_next.mp h
    cases hk
    exact .inr ⟨d, x, _, rfl, hx, ⟨rfl, rfl, rfl, ⟨[_], rfl, by simp⟩, ⟨[], by simp, by simp⟩⟩, rfl⟩
  case reset d =>
    obtain ⟨x, hx, -, hk⟩ := State.withIdle_next.mp h
    cases hk
    exact .inr ⟨d, x, _, rfl, hx, ⟨rfl, rfl, rfl, ⟨[_], rfl, by simp⟩, ⟨[], by simp, by simp⟩⟩, rfl⟩
  case feed d c =>
    obtain ⟨x, hx, -, hk⟩ := State.withIdle_next.mp h
    split at hk
    · cases hk
    · split at hk
      · cases hk
        exact .inr ⟨d, x, x, rfl, hx, ⟨hset d x hx, rfl, rfl, ⟨[_], rfl, by simp⟩, ⟨[], by simp, by simp⟩⟩, rfl⟩
      · cases hk
        obtain ⟨y, h1, h2, -⟩ := s.resume_touched d x { chunk := c, p := 0, answer := none }
        exact .inr ⟨d, x, y, rfl, hx, h1, h2⟩
  case status d =>
    have h' : execStatus d s = .next t := h
    unfold execStatus at h'
    split at h'
    · cases h'
    · rename_i x hx
      cases h'
      exact .inr ⟨d, x, x, rfl, hx, ⟨hset d x hx, rfl, rfl, ⟨[_], rfl, by simp⟩, ⟨[], by simp, by simp⟩⟩, rfl⟩
  case encUnmasked cap pl buf => cases h; exact .inl ⟨cap, pl, buf, 0, _, _, .inl rfl, rfl⟩
  case encMasked cap pl buf k => cases h; exact .inl ⟨cap, pl, buf, k, _, _, .inr rfl, rfl⟩
  case stepStart =>
    right
    obtain ⟨d, x, f, hf, ⟨b', rfl⟩ | rfl⟩ := State.headerStep_next h
    · obtain ⟨y, h1, h2⟩ := s.afterHeader_touched d x f (startStep b' x.regs)
      refine ⟨d, x, y, hf.1, hf.2.1, h1, .inr ?_⟩
      rcases startStep_cases b' x.regs with ⟨-, he⟩ | ⟨c, he⟩ <;> rw [he] at h2 <;> rcases h2 with ⟨-, h2⟩ | ⟨-, h2⟩ <;>
        exact ⟨_, _, h2⟩
    · obtain ⟨y, h1, h2, -⟩ := s.resume_touched d x f
      exact ⟨d, x, y, hf.1, hf.2.1, h1, .inl h2⟩
  case stepByte2 => exact .inr (hact byte2Step (.inl h))
  case stepExtLen => exact .inr (hact extLenStep (.inl h))
  case stepMask => exact .inr (hact maskStep (.inl h))
  case stepPayload =>
    obtain ⟨d, x, f, hf, y, h1, h2⟩ := State.payloadStep_next h
    exact .inr ⟨d, x, y, hf.1, hf.2.1, h1, h2⟩
  case stepError =>
    obtain ⟨d, x, f, hf, rfl⟩ := State.inFeed_next.mp h
    exact .inr ⟨d, x, _, hf.1, hf.2.1, s.endFeed_touched d x resInvalid, rfl⟩
  case hdr2Len16 => exact .inr (hact byte2Step (.inr ⟨_, h⟩))
  case hdr2Len64 => exact .inr (hact byte2Step (.inr ⟨_, h⟩))
  case hdr2Len7Literal => exact .inr (hact byte2Step (.inr ⟨_, h⟩))
  case hdr2Masked => exact .inr (hact byte2Step (.inr ⟨_, h⟩))
  case hdr2Unmasked => exact .inr (hact byte2Step (.inr ⟨_, h⟩))
  all_goals exact .inr (hrow1 _ h)

end Sys2Proof.Machine
end

