-- ==== Sys2Proof/Laws/Steps.lean ====
section
/-! SUPPORT. Every parse step keeps the register laws of spec/10_state.md rule R37 (spec/41_decoder_steps.md rule R140). -/

namespace Sys2Proof.Machine

/-- The reset values are lawful whatever the registers were (R38). -/
theorem Regs.lawful_clear (r : Regs) (bound : Bool) (ctx : SinkCtx) :
    Regs.lawful { r.clear with sinkBound := bound, sinkCtx := ctx } := by
  refine ⟨by simp [psStart], by simp, by simp, fun _ => ⟨rfl, rfl, rfl, rfl⟩, ?_, ?_, ?_, fun _ => (by decide : header1Legal 0 = true)⟩ <;>
    intro h <;> exact absurd h (by simp [psStart, psExtLen, psMask, psPayload])

theorem Regs.lawful_created : Regs.created.lawful := Regs.lawful_clear Regs.created false 0

/-- In ERROR only R27, R28 and R35 are left of the laws: the entry keeps them (R183). -/
theorem Regs.lawful_error {r : Regs} (h : r.lawful) (b : Byte) (i : Bool) :
    Regs.lawful { r with headerByte1 := b, inSink := i, parseState := psError } := by
  obtain ⟨-, h2, h3, -⟩ := h
  refine ⟨by simp [psError], h2, h3, ?_, ?_, ?_, ?_, ?_⟩ <;> intro hh <;>
    exact absurd hh (by simp [psStart, psByte2, psExtLen, psMask, psPayload, psError])

/-- START accepts a legal byte (R121). -/
theorem Regs.lawful_start {r : Regs} (h : r.lawful) (hs : r.parseState = psStart) {b : Byte} (hb : header1Legal b = true) :
    Regs.lawful { r with headerByte1 := b, parseState := psByte2 } := by
  obtain ⟨-, h2, h3, h4, -⟩ := h
  refine ⟨by simp [psByte2], h2, h3, fun _ => h4 (.inl hs), ?_, ?_, ?_, fun _ => hb⟩ <;> intro hh <;>
    exact absurd hh (by simp [psByte2, psExtLen, psMask, psPayload])

/-- `AFTER_LENGTH` reaches MASK or PAYLOAD lawfully (R125). -/
theorem Regs.lawful_afterLength {r : Regs} (hc : r.curOffset = 0) (hm : r.mask = 0) (hl : r.lengthOk)
    (hh : header1Legal r.headerByte1 = true) : (afterLength r).lawful := by
  cases hf : r.maskf with
  | true =>
    rw [afterLength_masked hf]
    refine ⟨by simp [psMask], by simp, by simp [hc], ?_, ?_, fun _ => ⟨hc, hf, by simp, by simp, by simp [hm], hl⟩, ?_, fun _ => hh⟩
      <;> intro h <;> exact absurd h (by simp [psMask, psStart, psByte2, psExtLen, psPayload])
  | false =>
    rw [afterLength_unmasked hf]
    refine ⟨by simp [psPayload], by simp, by simp [hc], ?_, ?_, ?_, fun _ => ⟨rfl, fun _ => hm, hl, ?_⟩, fun _ => hh⟩
    · intro h; exact absurd h (by simp [psStart, psByte2, psPayload])
    · intro h; exact absurd h (by simp [psExtLen, psPayload])
    · intro h; exact absurd h (by simp [psMask, psPayload])
    · by_cases h0 : r.expectedLen = 0
      · exact .inr ⟨hc, h0⟩
      · left
        have : r.expectedLen.toNat ≠ 0 := fun h => h0 (BitVec.eq_of_toNat_eq (by simpa using h))
        simp [hc]; omega

/-- BYTE2 reaches a lawful state on every byte (R124). -/
theorem Regs.lawful_byte2 {r : Regs} (h : r.lawful) (hs : r.parseState = psByte2) (b : Byte) : (byte2Step b r).lawful := by
  obtain ⟨-, h2, h3, h4, -, -, -, h8⟩ := h
  obtain ⟨hc, he, hm, hr⟩ := h4 (.inr hs)
  have hh := h8 (by rw [hs]; decide)
  unfold byte2Step
  simp only
  split
  · rename_i hL
    have hL7 : (len7Of b).toNat = 126 := by rw [hL]; rfl
    refine ⟨by simp [psExtLen], by simp, by simp [hc], ?_, fun _ => ⟨hc, hm, ?_⟩, ?_, ?_, fun _ => hh⟩
    · intro h; exact absurd h (by simp [psStart, psByte2, psExtLen])
    · exact ⟨by simp, .inl ⟨hL7, by simp, by simp [he]⟩⟩
    · intro h; exact absurd h (by simp [psMask, psExtLen])
    · intro h; exact absurd h (by simp [psPayload, psExtLen])
  · split
    · rename_i _ hL
      have hL7 : (len7Of b).toNat = 127 := by rw [hL]; rfl
      refine ⟨by simp [psExtLen], by simp, by simp [hc], ?_, fun _ => ⟨hc, hm, ?_⟩, ?_, ?_, fun _ => hh⟩
      · intro h; exact absurd h (by simp [psStart, psByte2, psExtLen])
      · exact ⟨by simp, .inr ⟨hL7, by simp, by simp [he]⟩⟩
      · intro h; exact absurd h (by simp [psMask, psExtLen])
      · intro h; exact absurd h (by simp [psPayload, psExtLen])
    · rename_i h126 h127
      refine Regs.lawful_afterLength hc hm ⟨fun _ => rfl, fun h => absurd ?_ h126⟩ hh
      exact BitVec.eq_of_toNat_eq h

/-- EXT_LEN reaches a lawful state (R127, R128). -/
theorem Regs.lawful_extLen {r : Regs} (h : r.lawful) (hs : r.parseState = psExtLen) (b : Byte) : (extLenStep b r).lawful := by
  obtain ⟨h1, h2, h3, -, h5, -, -, h8⟩ := h
  obtain ⟨hc, hm, hge, hx⟩ := h5 hs
  have hh := h8 (by rw [hs]; decide)
  have hb := b.isLt
  have hdec : (r.remainingIntBytes - 1).toNat = r.remainingIntBytes.toNat - 1 := by
    have := r.remainingIntBytes.isLt
    rw [BitVec.toNat_sub]; simp; omega
  have hlt56 : r.expectedLen.toNat < 2 ^ 56 := by
    rcases hx with ⟨-, hle, hlt⟩ | ⟨-, hle, hlt⟩
    · calc r.expectedLen.toNat < 256 ^ (2 - r.remainingIntBytes.toNat) := hlt
        _ ≤ 256 ^ 7 := Nat.pow_le_pow_right (by decide) (by omega)
        _ = 2 ^ 56 := by decide
    · calc r.expectedLen.toNat < 256 ^ (8 - r.remainingIntBytes.toNat) := hlt
        _ ≤ 256 ^ 7 := Nat.pow_le_pow_right (by decide) (by omega)
        _ = 2 ^ 56 := by decide
  have hacc := accLen_toNat hlt56 b
  have hgrow : ∀ n : Nat, 1 ≤ r.remainingIntBytes.toNat → r.remainingIntBytes.toNat ≤ n →
      r.expectedLen.toNat < 256 ^ (n - r.remainingIntBytes.toNat) →
      (accLen r.expectedLen b).toNat < 256 ^ (n - (r.remainingIntBytes.toNat - 1)) := by
    intro n h1 h2 h3
    have e : n - (r.remainingIntBytes.toNat - 1) = (n - r.remainingIntBytes.toNat) + 1 := by omega
    rw [e, Nat.pow_succ, hacc]
    omega
  unfold extLenStep
  simp only
  split
  · rename_i hz
    have hr1 : r.remainingIntBytes.toNat = 1 := by
      have : (r.remainingIntBytes - 1).toNat = 0 := by rw [hz]; rfl
      omega
    refine Regs.lawful_afterLength hc hm ⟨fun h => ?_, fun h => ?_⟩ hh
    · exfalso
      have h' : r.len7.toNat ≤ 125 := h
      rcases hx with ⟨h126, -⟩ | ⟨h127, -⟩ <;> omega
    · have h' : r.len7.toNat = 126 := h
      rcases hx with ⟨-, hle, hlt⟩ | ⟨h127, -⟩
      · have := hgrow 2 hge hle hlt
        simp [hr1] at this
        simp only
        omega
      · omega
  · rename_i hz
    have hr1 : r.remainingIntBytes.toNat ≠ 1 := by
      intro h1
      exact hz (BitVec.eq_of_toNat_eq (by rw [hdec, h1]; rfl))
    refine ⟨h1, by simp only [hdec]; omega, by simp [hc], ?_, fun _ => ⟨hc, hm, ?_⟩, ?_, ?_, fun _ => hh⟩
    · intro h; simp only [hs] at h; exact absurd h (by decide)
    · refine ⟨by simp only [hdec]; omega, ?_⟩
      rcases hx with ⟨hL, hle, hlt⟩ | ⟨hL, hle, hlt⟩
      · exact .inl ⟨hL, by simp only [hdec]; omega, by simp only [hdec]; exact hgrow 2 hge hle hlt⟩
      · exact .inr ⟨hL, by simp only [hdec]; omega, by simp only [hdec]; exact hgrow 8 hge hle hlt⟩
    · intro h; simp only [hs] at h; exact absurd h (by decide)
    · intro h; simp only [hs] at h; exact absurd h (by decide)

/-- MASK reaches a lawful state (R129, R130). -/
theorem Regs.lawful_mask {r : Regs} (h : r.lawful) (hs : r.parseState = psMask) (b : Byte) : (maskStep b r).lawful := by
  obtain ⟨h1, h2, h3, -, -, h6, -, h8⟩ := h
  obtain ⟨hc, hf, hge, hle, hlt, hlen⟩ := h6 hs
  have hh := h8 (by rw [hs]; decide)
  have hb := b.isLt
  have hdec : (r.remainingIntBytes - 1).toNat = r.remainingIntBytes.toNat - 1 := by
    have := r.remainingIntBytes.isLt
    rw [BitVec.toNat_sub]; simp; omega
  have hlt24 : r.mask.toNat < 2 ^ 24 := by
    calc r.mask.toNat < 256 ^ (4 - r.remainingIntBytes.toNat) := hlt
      _ ≤ 256 ^ 3 := Nat.pow_le_pow_right (by decide) (by omega)
      _ = 2 ^ 24 := by decide
  unfold maskStep
  simp only
  split
  · rename_i hz
    refine ⟨by simp [psPayload], by simp only [hdec]; omega, h3, ?_, ?_, ?_, fun _ => ⟨hz, ?_, hlen, ?_⟩, fun _ => hh⟩
    · intro h; exact absurd h (by simp [psStart, psByte2, psPayload])
    · intro h; exact absurd h (by simp [psExtLen, psPayload])
    · intro h; exact absurd h (by simp [psMask, psPayload])
    · intro h
      have h' : r.maskf = false := h
      rw [hf] at h'; cases h'
    · by_cases h0 : r.expectedLen = 0
      · exact .inr ⟨hc, h0⟩
      · left
        have : r.expectedLen.toNat ≠ 0 := fun h => h0 (BitVec.eq_of_toNat_eq (by simpa using h))
        simp [hc]; omega
  · rename_i hz
    have hr1 : r.remainingIntBytes.toNat ≠ 1 := by
      intro h1
      exact hz (BitVec.eq_of_toNat_eq (by rw [hdec, h1]; rfl))
    refine ⟨h1, by simp only [hdec]; omega, h3, ?_, ?_, fun _ => ⟨hc, hf, by simp only [hdec]; omega, by simp only [hdec]; omega, ?_, hlen⟩,
      ?_, fun _ => hh⟩
    · intro h; simp only [hs] at h; exact absurd h (by decide)
    · intro h; simp only [hs] at h; exact absurd h (by decide)
    · have e : 4 - (r.remainingIntBytes.toNat - 1) = (4 - r.remainingIntBytes.toNat) + 1 := by omega
      simp only [hdec, e, Nat.pow_succ, accKey_toNat hlt24 b]
      omega
    · intro h; simp only [hs] at h; exact absurd h (by decide)

/-- Under R35 the payload still expected is a plain difference. -/
theorem Regs.rem_eq {r : Regs} (h : r.curOffset.toNat ≤ r.expectedLen.toNat) :
    r.rem = r.expectedLen.toNat - r.curOffset.toNat := by
  have := r.expectedLen.isLt
  have := r.curOffset.isLt
  rw [Regs.rem, BitVec.toNat_sub]; omega

/-- A partial outcome advances `cur_offset` and stays below `expected_len` (R133). -/
theorem Regs.advanced_toNat {r : Regs} (h : r.curOffset.toNat ≤ r.expectedLen.toNat) {k : Nat} (hk : k < r.rem) :
    (r.advanced k).toNat = r.curOffset.toNat + k ∧ r.curOffset.toNat + k < r.expectedLen.toNat := by
  rw [Regs.rem_eq h] at hk
  have := r.expectedLen.isLt
  rw [Regs.advanced, BitVec.toNat_add, BitVec.toNat_ofNat]
  omega

/-- A PAYLOAD step's registers after a partial outcome are lawful (R133). -/
theorem Regs.lawful_partial {r : Regs} (h : r.lawful) (hs : r.parseState = psPayload) {k : Nat} (hk : k < r.rem) (i : Bool) :
    Regs.lawful { r with inSink := i, curOffset := r.advanced k } := by
  obtain ⟨h1, h2, h3, -, -, -, h7, h8⟩ := h
  obtain ⟨hr, hm, hl, -⟩ := h7 hs
  obtain ⟨e, hlt⟩ := Regs.advanced_toNat h3 hk
  refine ⟨h1, h2, by simp only [e]; omega, ?_, ?_, ?_, fun _ => ⟨hr, hm, hl, .inl (by simp only [e]; exact hlt)⟩, h8⟩ <;>
    · intro hh; simp only [hs] at hh; exact absurd hh (by decide)

/-- The registers after a complete outcome are lawful (R134). -/
theorem Regs.lawful_complete {r : Regs} (h : r.lawful) (hs : r.parseState = psPayload) (i : Bool) :
    Regs.lawful { r with inSink := i }.completeFrame := by
  obtain ⟨h1, h2, h3, -, -, -, h7, h8⟩ := h
  obtain ⟨hr, -⟩ := h7 hs
  have hh := h8 (by rw [hs]; decide)
  refine ⟨by simp [psStart], h2, by simp, fun _ => ⟨rfl, rfl, rfl, hr⟩, ?_, ?_, ?_, fun _ => hh⟩ <;>
    intro hh <;> exact absurd hh (by simp [psStart, psExtLen, psMask, psPayload])

end Sys2Proof.Machine
end

