-- ==== Sys2Proof/Laws/Step.lean ====
section
/-! SUPPORT. What one step of the machine can do, said once. -/

namespace Sys2Proof.Machine

/-- The parse step a code selects (R88). -/
theorem decodeStep_cases {code : BitVec 3} {i : Instr} (h : decodeStep code = .instr i) :
    (code = psStart ∧ i = .stepStart) ∨ (code = psByte2 ∧ i = .stepByte2) ∨ (code = psExtLen ∧ i = .stepExtLen) ∨
    (code = psMask ∧ i = .stepMask) ∨ (code = psPayload ∧ i = .stepPayload) ∨ (code = psError ∧ i = .stepError) := by
  unfold decodeStep at h
  repeat' split at h
  all_goals simp_all

/-- A rejected code names no state (R88). -/
theorem decodeStep_rejected {code : BitVec 3} {why : DecodeError} (h : decodeStep code = .rejected why) :
    why = .badState code ∧ 6 ≤ code.toNat := by
  unfold decodeStep at h
  repeat' split at h
  all_goals first | contradiction | skip
  rename_i h0 h1 h2 h3 h4 h5
  refine ⟨by simpa using h.symm, ?_⟩
  have all : ∀ c : BitVec 3, c = psStart ∨ c = psByte2 ∨ c = psExtLen ∨ c = psMask ∨ c = psPayload ∨ c = psError ∨
      6 ≤ c.toNat := by decide
  rcases all code with h | h | h | h | h | h | h
  exacts [absurd h h0, absurd h h1, absurd h h2, absurd h h3, absurd h h4, absurd h h5, h]

/-- The instruction a command record spells (R70). -/
theorem decodeCommand_cases {c : RawCommand} {i : Instr} (h : decodeCommand c = .instr i) :
    (c.op = 0x01 ∧ i = .init c.inst c.sinkCtx) ∨
    (c.op = 0x02 ∧ c.chunk.length = c.n.toNat ∧ i = .feed c.inst c.chunk) ∨
    (c.op = 0x03 ∧ i = .reset c.inst) ∨ (c.op = 0x04 ∧ i = .status c.inst) ∨
    (c.op = 0x10 ∧ i = .encUnmasked c.capacity c.payloadLength c.buffer) ∨
    (c.op = 0x11 ∧ i = .encMasked c.capacity c.payloadLength c.buffer c.maskKey) := by
  unfold decodeCommand at h
  repeat' split at h
  all_goals simp_all

/-! ## Chunk writes (R66; log 21) -/

/-- With no chunk write coming, a parse step passes without a trace in the inputs. -/
theorem State.tick_quiet {s : State} (h : s.nextChunkWrite = none) : s.tick = s := by
  have : passStep s.inputs = s.inputs := by
    unfold State.nextChunkWrite at h
    unfold passStep
    split <;> simp_all
  rw [State.tick, this]

/-- A state with no chunk write coming has none due. -/
theorem State.not_due_of_quiet {s : State} (h : s.nextChunkWrite = none) (e : InstId) : s.nextChunkWrite ≠ some (e, 0) := by
  simp [h]

/-- Whether a chunk write comes next depends on the inputs alone. -/
theorem State.nextChunkWrite_congr {s t : State} (h : t.inputs = s.inputs) : t.nextChunkWrite = s.nextChunkWrite := by
  simp [State.nextChunkWrite, h]

/-- With a FEED executing and no chunk write due, the parse step is fetched. -/
theorem fetch_executing {s : State} {d : InstId} (hr : s.running = some d) (hw : ∀ e, s.nextChunkWrite ≠ some (e, 0)) :
    fetch s = fetchParseStep d s := by
  unfold fetch
  simp only [hr]
  split
  · rename_i e rest h
    exact absurd (by simp [State.nextChunkWrite, h]) (hw e)
  · rfl

/-- A chunk write whose time has come lands whether or not a FEED executes. -/
theorem fetch_chunkWrite {s : State} {e : InstId} {n : Nat} {rest : List Input} (hc : s.inputs = .chunkWrite e n :: rest)
    (hn : s.running = none ∨ n = 0) : fetch s = fetchChunkWrite e { s with inputs := rest } := by
  rcases Option.eq_none_or_eq_some s.running with hr | ⟨d, hr⟩
  · simp [fetch, hr, hc, fetchInput]
  · obtain rfl : n = 0 := hn.resolve_left (by simp [hr])
    simp [fetch, hr, hc]

/-- A chunk write that lands: refused in a FEED in progress (R66), otherwise without effect (R216). -/
theorem step_chunkWrite {s : State} {e : InstId} {n : Nat} {rest : List Input} (hc : s.inputs = .chunkWrite e n :: rest)
    (hn : s.running = none ∨ n = 0) :
    step s = if (s.decoders[e]?).bind Decoder.feed = none then .next { s with inputs := rest } else .refused (.chunkMutated e) := by
  simp only [step, fetch_chunkWrite hc hn, fetchChunkWrite, State.decoder?]
  cases h : (s.decoders[e]?).bind Decoder.feed <;> simp

/-! ## The other steps -/

/-- With a FEED executing and no chunk write due, the step is the parse step of its instance's `parse_state` (R88, R120). -/
theorem step_executing {s : State} {d : InstId} {x : Decoder} {i : Instr} (hr : s.running = some d)
    (hw : ∀ e, s.nextChunkWrite ≠ some (e, 0)) (hx : s.decoders[d]? = some x)
    (hi : decodeStep x.regs.parseState = .instr i) : step s = exec i s.tick := by
  simp [step, fetch_executing hr hw, fetchParseStep, State.decoder?, hx, fetchDecoded, decode, hi]

/-- The same with no chunk write coming at all. -/
theorem step_running {s : State} {d : InstId} {x : Decoder} {i : Instr} (hr : s.running = some d)
    (hw : s.nextChunkWrite = none) (hx : s.decoders[d]? = some x)
    (hi : decodeStep x.regs.parseState = .instr i) : step s = exec i s := by
  rw [step_executing hr (State.not_due_of_quiet hw) hx hi, State.tick_quiet hw]

/-- With no FEED executing and a command next, the step is that command. -/
theorem step_command {s : State} {c : RawCommand} {rest : List Input} {i : Instr} (hr : s.running = none)
    (hc : s.inputs = .command c :: rest) (hi : decodeCommand c = .instr i) :
    step s = exec i { s with inputs := rest } := by
  simp [step, fetch, hr, hc, fetchInput, fetchDecoded, decode, hi]

/-- With no FEED executing and no input the machine waits (R210, R217). -/
theorem step_idle {s : State} (hr : s.running = none) (hn : s.inputs = []) : step s = .next s := by
  simp [step, fetch, hr, hn]

/-- The second half of a PAYLOAD step forgets the old FEED of its instance and who was running. -/
theorem State.sinkAnswered_setDecoder (s : State) (d : InstId) (x y : Decoder) (f : Feed) (a : Option Code) (code : Code)
    (fd : Option Feed) (rn : Option InstId) :
    { s.setDecoder d y with running := rn }.sinkAnswered d { x with feed := fd } { f with answer := a } code =
      s.sinkAnswered d x f code := by
  have hk : sliceLen { x.regs with inSink := false } { f with answer := a } = sliceLen { x.regs with inSink := false } f := rfl
  have hl : Feed.left { f with answer := a } = f.left := rfl
  unfold State.sinkAnswered
  simp only [hk, hl]
  split
  · simp [State.enterError, State.endFeed, State.setDecoder]
  · split
    · simp [State.endFeed, State.setDecoder]
    · unfold State.resume
      simp only
      split
      · simp [State.endFeed, State.setDecoder]
      · simp [State.setDecoder]

/-- The sink's answer runs the second half of its PAYLOAD step (R131). -/
theorem step_answer {s : State} {d : InstId} {code : Code} {rest : List Input} {x : Decoder} {f : Feed}
    (hr : s.running = none) (hc : s.inputs = .answer d code :: rest) (hx : s.decoders[d]? = some x)
    (hf : x.feed = some f) (hi : x.regs.inSink = true) :
    step s = .next ({ s with inputs := rest }.sinkAnswered d x f code) := by
  have hd : d < s.decoders.length := (List.getElem?_eq_some_iff.mp hx).1
  let y : Decoder := { x with feed := some { f with answer := some code } }
  let t : State := { { s with inputs := rest }.setDecoder d y with running := some d }
  have hft : fetch s = .run .stepPayload t := by
    simp [fetch, hr, hc, fetchInput, fetchAnswer, State.decoder?, hx, hf, hi, t, y]
  have hfeeding : t.Feeding d y { f with answer := some code } := by
    refine ⟨rfl, ?_, rfl⟩
    simp [t, State.setDecoder, hd]
  have hp := State.payloadStep_answer hfeeding hi rfl
  have : step s = exec .stepPayload t := by simp [step, hft]
  rw [this]
  show t.payloadStep = _
  rw [hp]
  exact congrArg _ (State.sinkAnswered_setDecoder { s with inputs := rest } d x y f _ code _ _)

/-- What a step can do when it answers a next state. -/
theorem step_cases {s t : State} (h : step s = .next t) :
    (∃ d x i, s.running = some d ∧ s.decoders[d]? = some x ∧ decodeStep x.regs.parseState = .instr i ∧
      exec i s.tick = .next t) ∨
    (s.running = none ∧ s.inputs = [] ∧ t = s) ∨
    (∃ c rest i, s.running = none ∧ s.inputs = .command c :: rest ∧ decodeCommand c = .instr i ∧
      exec i { s with inputs := rest } = .next t) ∨
    (∃ d code rest x f, s.running = none ∧ s.inputs = .answer d code :: rest ∧ s.decoders[d]? = some x ∧
      x.feed = some f ∧ x.regs.inSink = true ∧ t = { s with inputs := rest }.sinkAnswered d x f code) ∨
    (∃ d n rest, s.inputs = .chunkWrite d n :: rest ∧ (s.running = none ∨ n = 0) ∧
      (s.decoders[d]?).bind Decoder.feed = none ∧ t = { s with inputs := rest }) := by
  have write : ∀ {d n rest}, s.inputs = .chunkWrite d n :: rest → (s.running = none ∨ n = 0) →
      (s.decoders[d]?).bind Decoder.feed = none ∧ t = { s with inputs := rest } := by
    intro d n rest hc hn
    rw [step_chunkWrite hc hn] at h
    split at h
    · rename_i hf; exact ⟨hf, by simpa using h.symm⟩
    · contradiction
  rcases Option.eq_none_or_eq_some s.running with hr | ⟨d, hr⟩
  case inr =>
    by_cases hw : ∃ e, s.nextChunkWrite = some (e, 0)
    · obtain ⟨e, hw⟩ := hw
      obtain ⟨rest, hc⟩ : ∃ rest, s.inputs = .chunkWrite e 0 :: rest := by
        unfold State.nextChunkWrite at hw
        split at hw
        · rename_i rest hc; simp at hw; exact ⟨rest, by rw [hc, hw.1, hw.2]⟩
        · contradiction
      exact .inr (.inr (.inr (.inr ⟨e, 0, rest, hc, .inr rfl, write hc (.inr rfl)⟩)))
    left
    have hw : ∀ e, s.nextChunkWrite ≠ some (e, 0) := fun e he => hw ⟨e, he⟩
    cases hx : s.decoders[d]? with
    | none => simp [step, fetch_executing hr hw, fetchParseStep, State.decoder?, hx] at h
    | some x =>
      cases hi : decodeStep x.regs.parseState with
      | instr i => exact ⟨d, x, i, hr, hx, hi, by rw [← step_executing hr hw hx hi]; exact h⟩
      | rejected why =>
        obtain ⟨rfl, -⟩ := decodeStep_rejected hi
        simp [step, fetch_executing hr hw, fetchParseStep, State.decoder?, hx, fetchDecoded, decode, hi] at h
  case inl =>
    right
    cases hc : s.inputs with
    | nil => exact .inl ⟨hr, rfl, by simpa [step_idle hr hc] using h.symm⟩
    | cons inp rest =>
      right
      cases inp with
      | command c =>
        left
        cases hi : decodeCommand c with
        | instr i => exact ⟨c, rest, i, hr, rfl, hi, by rw [← step_command hr hc hi]; exact h⟩
        | rejected why => cases why <;> simp [step, fetch, hr, hc, fetchInput, fetchDecoded, decode, hi] at h
      | answer d code =>
        right; left
        cases hx : s.decoders[d]? with
        | none => simp [step, fetch, hr, hc, fetchInput, fetchAnswer, State.decoder?, hx] at h
        | some x =>
          cases hf : x.feed with
          | none => simp [step, fetch, hr, hc, fetchInput, fetchAnswer, State.decoder?, hx, hf] at h
          | some f =>
            cases hi : x.regs.inSink with
            | false => simp [step, fetch, hr, hc, fetchInput, fetchAnswer, State.decoder?, hx, hf, hi] at h
            | true => exact ⟨d, code, rest, x, f, hr, rfl, hx, hf, hi, by simpa [step_answer hr hc hx hf hi] using h.symm⟩
      | chunkWrite d n => exact .inr (.inr ⟨d, n, rest, rfl, .inl hr, write hc (.inl hr)⟩)

end Sys2Proof.Machine
end

