-- ==== Sys2Proof/Laws/Feed.lean ====
section
/-! SUPPORT. A FEED driven by an answering sink: its machine steps one parse step at a time, its end within the bound
of spec/70_reset_and_hazards.md rule R221, and its effect as that of the wire bytes one at a time. -/

namespace Sys2Proof.Machine

/-! ## Driving one parse step -/

theorem drive_done {ans : Nat → Code} {d : InstId} {run : FeedRun} (fuel : Nat)
    (h : (run.state.decoders[d]?).bind Decoder.feed = none) : drive ans d fuel run = some run := by
  cases fuel <;> simp [drive, h]

/-- One machine step of a FEED that executes. -/
theorem drive_step {ans : Nat → Code} {d : InstId} {s t : State} {x : Decoder} {f : Feed} {n k fuel : Nat}
    (h : s.Feeding d x f) (hs : step s = .next t) :
    drive ans d (fuel + 1) { state := s, steps := n, frames := k } =
      drive ans d fuel { state := t, steps := n + 1, frames := k } := by
  obtain ⟨h1, h2, h3⟩ := h
  simp [drive, h2, h3, offerAnswer, h1, hs]

/-- One machine step of a FEED that waits for its sink. -/
theorem drive_wait {ans : Nat → Code} {d : InstId} {s t : State} {f : Feed} {n k fuel : Nat} (hr : s.running = none)
    (hb : (s.decoders[d]?).bind Decoder.feed = some f) (hs : step (offerAnswer ans d s) = .next t) :
    drive ans d (fuel + 1) { state := s, steps := n, frames := k } =
      drive ans d fuel { state := t, steps := n, frames := k + if t.atStart d then 1 else 0 } := by
  simp [drive, hb, hs, hr]

/-- The byte a header step is about to consume, acting on the registers. -/
def headerAct (r : Regs) (b : Byte) : Regs × Option Cause :=
  if r.parseState = psStart then startStep b r
  else if r.parseState = psByte2 then noError byte2Step b r
  else if r.parseState = psExtLen then noError extLenStep b r
  else noError maskStep b r

/-- A FEED goes on executing while a parse step passes. -/
theorem State.Feeding.tick {s : State} {d : InstId} {x : Decoder} {f : Feed} (h : s.Feeding d x f) : s.tick.Feeding d x f := h

/-- A header step of the executing FEED, whatever the header state, no chunk write being due. -/
theorem step_header_tick {s : State} {d : InstId} {x : Decoder} {f : Feed} {b : Byte} (h : s.Feeding d x f)
    (hw : ∀ e, s.nextChunkWrite ≠ some (e, 0)) (hh : isHeaderState x.regs.parseState = true) (hb : f.chunk[f.p]? = some b) :
    step s = .next (s.tick.afterHeader d x f (headerAct x.regs b)) := by
  have key : ∀ {i : Instr} {act}, decodeStep x.regs.parseState = .instr i → exec i s.tick = s.tick.headerStep act →
      act b x.regs = headerAct x.regs b → step s = .next (s.tick.afterHeader d x f (headerAct x.regs b)) := by
    intro i act h1 h2 h3
    rw [step_executing h.1 hw h.2.1 h1, h2, State.headerStep_byte h.tick hb, h3]
  simp only [isHeaderState, decide_eq_true_eq] at hh
  rcases hh with hh | hh | hh | hh
  · exact key (i := .stepStart) (act := startStep) (by rw [hh]; rfl) rfl (by simp [headerAct, hh])
  · exact key (i := .stepByte2) (act := noError byte2Step) (by rw [hh]; rfl) rfl (by simp [headerAct, hh, psStart, psByte2])
  · exact key (i := .stepExtLen) (act := noError extLenStep) (by rw [hh]; rfl) rfl
      (by simp [headerAct, hh, psStart, psByte2, psExtLen])
  · exact key (i := .stepMask) (act := noError maskStep) (by rw [hh]; rfl) rfl
      (by simp [headerAct, hh, psStart, psByte2, psExtLen, psMask])

/-- A header step with no chunk write coming. -/
theorem step_header {s : State} {d : InstId} {x : Decoder} {f : Feed} {b : Byte} (h : s.Feeding d x f)
    (hq : s.nextChunkWrite = none) (hh : isHeaderState x.regs.parseState = true) (hb : f.chunk[f.p]? = some b) :
    step s = .next (s.afterHeader d x f (headerAct x.regs b)) := by
  rw [step_header_tick h (State.not_due_of_quiet hq) hh hb, State.tick_quiet hq]

/-- The request half of a PAYLOAD step of the executing FEED, no chunk write being due. -/
theorem step_request_tick {s : State} {d : InstId} {x : Decoder} {f : Feed} (h : s.Feeding d x f)
    (hw : ∀ e, s.nextChunkWrite ≠ some (e, 0)) (hp : x.regs.parseState = psPayload) (hi : x.regs.inSink = false) :
    step s = .next (s.tick.sinkInvoke d x f) := by
  rw [step_executing h.1 hw h.2.1 (i := .stepPayload) (by rw [hp]; rfl)]
  exact State.payloadStep_request h.tick hi

/-- The request half with no chunk write coming. -/
theorem step_request {s : State} {d : InstId} {x : Decoder} {f : Feed} (h : s.Feeding d x f)
    (hq : s.nextChunkWrite = none) (hp : x.regs.parseState = psPayload) (hi : x.regs.inSink = false) :
    step s = .next (s.sinkInvoke d x f) := by
  rw [step_request_tick h (State.not_due_of_quiet hq) hp hi, State.tick_quiet hq]

/-- The state in which the sink of `d` has been asked and its answer is awaited. -/
theorem sinkInvoke_waiting {s : State} {d : InstId} {x : Decoder} {f : Feed} (h : s.Feeding d x f) :
    (s.sinkInvoke d x f).decoders[d]? =
      some { regs := { x.regs with inSink := true }, feed := some f, cause := x.cause } := by
  have hd := (List.getElem?_eq_some_iff.mp h.2.1).1
  simp [hd]

/-- A whole PAYLOAD step of the executing FEED: the request, and the answer's outcome. -/
theorem drive_payload {ans : Nat → Code} {d : InstId} {s : State} {x : Decoder} {f : Feed} {n k fuel : Nat}
    (h : s.Feeding d x f) (hq : s.nextChunkWrite = none) (hp : x.regs.parseState = psPayload) (hi : x.regs.inSink = false) :
    ∃ code t, code = ans (s.requests.length + 1) ∧
      t = (s.sinkInvoke d x f).sinkAnswered d { x with regs := { x.regs with inSink := true } } f code ∧
      drive ans d (fuel + 2) { state := s, steps := n, frames := k } =
        drive ans d fuel { state := t, steps := n + 1, frames := k + if t.atStart d then 1 else 0 } := by
  refine ⟨_, _, rfl, rfl, ?_⟩
  rw [drive_step h (step_request h hq hp hi)]
  let u := s.sinkInvoke d x f
  have hw := sinkInvoke_waiting h
  let c := ans (s.requests.length + 1)
  have hu : step { u with inputs := .answer d c :: u.inputs } =
      .next (u.sinkAnswered d { regs := { x.regs with inSink := true }, feed := some f, cause := x.cause } f c) :=
    step_answer (s := { u with inputs := .answer d c :: u.inputs }) rfl rfl hw rfl rfl
  have ho : offerAnswer ans d u = { u with inputs := .answer d c :: u.inputs } := by
    simp [offerAnswer, u, c]
  have hb : (u.decoders[d]?).bind Decoder.feed = some f := by
    show (s.sinkInvoke d x f).decoders[d]?.bind Decoder.feed = some f
    rw [hw]; rfl
  have hx : ({ x with regs := { x.regs with inSink := true } } : Decoder) =
      { regs := { x.regs with inSink := true }, feed := some f, cause := x.cause } := by rw [← h.2.2]
  rw [hx]
  exact drive_wait rfl hb (by rw [ho]; exact hu)

/-! ## The laws a FEED keeps while it executes -/

/-- What holds of the executing instance before each of its parse steps. -/
structure FeedLocal (x : Decoder) (f : Feed) : Prop where
  lawful : x.regs.lawful
  notError : x.regs.parseState ≠ psError
  notInSink : x.regs.inSink = false
  cursor : f.p ≤ f.chunk.length
  header : isHeaderState x.regs.parseState = true → f.p < f.chunk.length

/-- A parse state of a lawful instance outside ERROR is a header state or PAYLOAD. -/
theorem FeedLocal.payload_of_not_header {x : Decoder} {f : Feed} (h : FeedLocal x f)
    (hh : isHeaderState x.regs.parseState = false) : x.regs.parseState = psPayload := by
  have all : ∀ c : BitVec 3, c.toNat ≤ 5 → isHeaderState c = false → c ≠ psError → c = psPayload := by decide
  exact all _ h.lawful.1 hh h.notError

/-- What a header step does to lawful registers: a protocol violation, or lawful registers outside ERROR; START goes to
BYTE2 only. -/
theorem headerAct_cases {r : Regs} (h : r.lawful) (hh : isHeaderState r.parseState = true) (b : Byte) :
    (∃ r', headerAct r b = (r', none) ∧ r'.lawful ∧ r'.parseState.toNat ≤ 4 ∧ r'.inSink = r.inSink ∧
      (r.parseState = psStart → r'.parseState = psByte2) ∧ wireHeader r b = r') ∨
    (∃ r' c, headerAct r b = (r', some c) ∧ wireHeader r b = { r' with parseState := psError }) := by
  simp only [isHeaderState, decide_eq_true_eq] at hh
  rcases hh with hs | hs | hs | hs
  · have ha : headerAct r b = startStep b r := by simp [headerAct, hs]
    rcases startStep_cases b r with ⟨hb, he⟩ | ⟨c, he⟩
    · exact .inl ⟨_, by rw [ha, he], Regs.lawful_start h hs hb, by simp [psByte2], rfl, fun _ => rfl, by simp [wireHeader, hs, he]⟩
    · exact .inr ⟨_, c, by rw [ha, he], by simp [wireHeader, hs, he]⟩
  · exact .inl ⟨byte2Step b r, by simp [headerAct, noError, hs, psStart, psByte2], Regs.lawful_byte2 h hs b,
      byte2Step_parseState_le b r, (byte2Step_frame b r).2.2.1, fun h => absurd (hs.symm.trans h) (by decide),
      by simp [wireHeader, hs, psStart, psByte2]⟩
  · exact .inl ⟨extLenStep b r, by simp [headerAct, noError, hs, psStart, psByte2, psExtLen], Regs.lawful_extLen h hs b,
      extLenStep_parseState_le b (by rw [hs]; decide), (extLenStep_frame b r).2.2.1,
      fun h => absurd (hs.symm.trans h) (by decide), by simp [wireHeader, hs, psStart, psByte2, psExtLen]⟩
  · exact .inl ⟨maskStep b r, by simp [headerAct, noError, hs, psStart, psByte2, psExtLen, psMask], Regs.lawful_mask h hs b,
      maskStep_parseState_le b (by rw [hs]; decide), (maskStep_frame b r).2.2.1,
      fun h => absurd (hs.symm.trans h) (by decide), by simp [wireHeader, hs, psStart, psByte2, psExtLen, psMask]⟩

/-- The head of the loop leaves the instance out of its FEED, or executing it lawfully. -/
theorem resume_local {s : State} {d : InstId} {x0 x : Decoder} {f : Feed} (hd : s.decoders[d]? = some x0)
    (hl : x.regs.lawful) (hne : x.regs.parseState ≠ psError) (hi : x.regs.inSink = false) (hp : f.p ≤ f.chunk.length) :
    (s.resume d x f = s.endFeed d x resSuccess ∧ f.p = f.chunk.length ∧ isHeaderState x.regs.parseState = true) ∨
    ((s.resume d x f).Feeding d { x with feed := some f } f ∧ FeedLocal { x with feed := some f } f ∧
      s.resume d x f = { s.setDecoder d { x with feed := some f } with running := some d }) := by
  have hlt := (List.getElem?_eq_some_iff.mp hd).1
  rcases s.resume_cases d x f with ⟨h1, h2, h3⟩ | ⟨h1, h2⟩
  · exact .inl ⟨h3, by omega, h1⟩
  · refine .inr ⟨?_, ⟨hl, hne, hi, hp, h1⟩, h2⟩
    rw [h2]
    exact ⟨rfl, by simp [hlt], rfl⟩

/-- The head of the loop leaves the inputs alone. -/
theorem State.nextChunkWrite_resume {s : State} {d : InstId} {x : Decoder} {f : Feed} (h : s.nextChunkWrite = none) :
    (s.resume d x f).nextChunkWrite = none :=
  (State.nextChunkWrite_congr (s.resume_frame d x f).1).trans h

/-- An instance whose FEED has returned is in none. -/
theorem endFeed_no_feed {s : State} {d : InstId} {x0 x : Decoder} {code : Code} (hd : s.decoders[d]? = some x0) :
    ((s.endFeed d x code).decoders[d]?).bind Decoder.feed = none := by
  have hlt := (List.getElem?_eq_some_iff.mp hd).1
  simp [hlt]

/-! ## A FEED ends (R221, R222) -/

/-- What bounds the parse steps still to come. -/
def feedMeasure (x : Decoder) (f : Feed) : Nat := 2 * f.left + if x.regs.parseState = psPayload then 1 else 0

/-- How many bytes of an unfinished frame count as already delivered in the bound of R222: none at START, one in a
frame, two where the frame completes without another byte. -/
def frameBonus (r : Regs) : Nat :=
  if r.parseState = psStart then 0 else if r.parseState = psPayload ∧ r.rem = 0 then 2 else 1

/-- A FEED whose sink answers, whatever the answers, returns within the bounds of R221 and R222. -/
theorem drive_ends (ans : Nat → Code) (d : InstId) :
    ∀ m s x f n k fuel, State.Feeding s d x f → s.nextChunkWrite = none → FeedLocal x f → feedMeasure x f ≤ m → 2 * m ≤ fuel →
      ∃ run j, drive ans d fuel { state := s, steps := n, frames := k } = some run ∧
        (run.state.decoders[d]?).bind Decoder.feed = none ∧ run.frames = k + j ∧
        run.steps ≤ n + f.left + j + 1 ∧ 2 * j ≤ f.left + frameBonus x.regs := by
  intro m
  induction m with
  | zero =>
    intro s x f n k fuel hf hq hl hm hfu
    exfalso
    by_cases hh : isHeaderState x.regs.parseState = true
    · have := hl.header hh
      simp [feedMeasure, Feed.left] at hm
      omega
    · have := hl.payload_of_not_header (by simpa using hh)
      simp [feedMeasure, this] at hm
  | succ m ih =>
    intro s x f n k fuel hf hq hl hm hfu
    by_cases hh : isHeaderState x.regs.parseState = true
    · have hp := hl.header hh
      have hnp : x.regs.parseState ≠ psPayload := by intro h; rw [h] at hh; exact absurd hh (by decide)
      obtain ⟨fuel, rfl⟩ : ∃ fu, fuel = fu + 1 := ⟨fuel - 1, by omega⟩
      rw [drive_step hf (step_header hf hq hh (List.getElem?_eq_getElem hp))]
      have hlt := (List.getElem?_eq_some_iff.mp hf.2.1).1
      rcases headerAct_cases hl.lawful hh f.chunk[f.p] with ⟨r, he, hr, hr4, hri, hrs, -⟩ | ⟨r, c, he, -⟩
      · rw [he]
        have hbon : 1 ≤ frameBonus x.regs ∨ x.regs.parseState = psStart := by
          unfold frameBonus; split
          · right; assumption
          · left; split <;> omega
        have hne : r.parseState ≠ psError := by intro h; rw [h] at hr4; exact absurd hr4 (by decide)
        have hleft : Feed.left { f with p := f.p + 1 } + 1 = f.left := by simp [Feed.left]; omega
        rcases resume_local (x := { x with regs := r }) (f := { f with p := f.p + 1 }) hf.2.1 hr hne
          (by rw [hri]; exact hl.notInSink) (by simp only; omega) with ⟨h1, h2, h3⟩ | ⟨h1, h2, -⟩
        · refine ⟨_, 0, drive_done _ ?_, ?_, rfl, ?_, by simp⟩
          · show ((s.resume d _ _).decoders[d]?).bind _ = none
            rw [h1]; exact endFeed_no_feed hf.2.1
          · show ((s.resume d _ _).decoders[d]?).bind _ = none
            rw [h1]; exact endFeed_no_feed hf.2.1
          · simp only; omega
        · obtain ⟨run, j, e1, e2, e3, e4, e5⟩ := ih _ _ _ (n + 1) k fuel h1 (State.nextChunkWrite_resume hq) h2 (by
            simp [feedMeasure, hnp] at hm ⊢
            split <;> omega) (by omega)
          refine ⟨run, j, e1, e2, e3, by omega, ?_⟩
          have hb2 : frameBonus r ≤ 2 := by unfold frameBonus; split <;> (try split) <;> omega
          have e5' : 2 * j ≤ Feed.left { f with p := f.p + 1 } + frameBonus r := e5
          rcases hbon with hbon | hbon
          · omega
          · have : frameBonus r = 1 := by simp [frameBonus, hrs hbon, psByte2, psStart, psPayload]
            omega
      · rw [he]
        exact ⟨_, 0, drive_done _ (endFeed_no_feed hf.2.1), endFeed_no_feed hf.2.1, rfl, by simp only; omega, by simp⟩
    · have hps := hl.payload_of_not_header (by simpa using hh)
      obtain ⟨fuel, rfl⟩ : ∃ fu, fuel = fu + 2 := ⟨fuel - 2, by simp [feedMeasure, hps] at hm; omega⟩
      obtain ⟨code, t, -, ht, he⟩ := drive_payload (ans := ans) (n := n) (k := k) (fuel := fuel) hf hq hps hl.notInSink
      rw [he]
      have hw := sinkInvoke_waiting hf
      have hwlt := (List.getElem?_eq_some_iff.mp hw).1
      have hstart : x.regs.parseState ≠ psStart := by rw [hps]; decide
      by_cases hc : code = resSuccess
      · subst hc
        by_cases hlt : f.left < x.regs.rem
        · rw [State.sinkAnswered_partial (by exact hlt)] at ht
          have hat : t.atStart d = false := by
            rw [ht]
            have hlt' : d < (s.sinkInvoke d x f).decoders.length := hwlt
            simp only [State.atStart, State.endFeed_decoders, List.getElem?_set_self hlt']
            simp [hps, psPayload, psStart]
          refine ⟨_, 0, drive_done _ (by rw [ht]; exact endFeed_no_feed hw), by rw [ht]; exact endFeed_no_feed hw, by simp [hat], by simp only; omega, by simp⟩
        · rw [State.sinkAnswered_complete (by exact Nat.not_lt.mp hlt)] at ht
          have hlaw := Regs.lawful_complete (r := { x.regs with inSink := true }) hl.lawful hps false
          have hcur := hl.cursor
          have hrem : x.regs.rem ≤ f.chunk.length - f.p := Nat.not_lt.mp hlt
          have hbon : 2 ≤ x.regs.rem + frameBonus x.regs := by
            by_cases h0 : x.regs.rem = 0
            · rw [frameBonus, if_neg hstart, if_pos ⟨hps, h0⟩]; omega
            · rw [frameBonus, if_neg hstart, if_neg (fun h => h0 h.2)]; omega
          have hat : t.atStart d = true := by
            rw [ht]
            rcases State.resume_cases (s.sinkInvoke d x f) d _ _ with ⟨-, -, h⟩ | ⟨-, h⟩ <;>
              · rw [h]
                have hlt' : d < (s.sinkInvoke d x f).decoders.length := hwlt
                simp only [State.atStart, State.endFeed_decoders, State.setDecoder_decoders, List.getElem?_set_self hlt']
                simp
          rcases resume_local (s := s.sinkInvoke d x f)
            (x := { regs := Regs.completeFrame { x.regs with inSink := false }, feed := x.feed, cause := x.cause })
            (f := { f with p := f.p + x.regs.rem, answer := none }) hw hlaw (by simp [psStart, psError]) rfl
            (show f.p + x.regs.rem ≤ f.chunk.length by omega) with ⟨h1, h2, h3⟩ | ⟨h1, h2, -⟩
          · have ht' := ht.trans h1
            refine ⟨_, 1, drive_done _ (by rw [ht']; exact endFeed_no_feed hw), by rw [ht']; exact endFeed_no_feed hw, by simp [hat], by simp only; omega, ?_⟩
            simp only [Feed.left]; omega
          · obtain ⟨run, j, e1, e2, e3, e4, e5⟩ := ih _ _ _ (n + 1) (k + 1) fuel h1 (State.nextChunkWrite_resume hq) h2 (by
              simp [feedMeasure, hps, psStart, psPayload, Feed.left] at hm ⊢
              omega) (by omega)
            rw [hat, ht]
            refine ⟨run, j + 1, e1, e2, by omega, ?_, ?_⟩
            · simp only [Feed.left] at e4 ⊢; omega
            · simp [frameBonus, Feed.left] at e5
              simp only [Feed.left]; omega
      · rw [State.sinkAnswered_rejected hc] at ht
        have hat : t.atStart d = false := by
          rw [ht]
          have hlt' : d < (s.sinkInvoke d x f).decoders.length := hwlt
          simp only [State.atStart, State.enterError_decoders, List.getElem?_set_self hlt']
          simp [psError, psStart]
        exact ⟨_, 0, drive_done _ (by rw [ht]; exact endFeed_no_feed hw), by rw [ht]; exact endFeed_no_feed hw, by simp [hat], by simp only; omega, by simp⟩

end Sys2Proof.Machine
end

