-- ==== Sys2Proof/Laws/Wire.lean ====
section
/-! SUPPORT. A FEED whose sink accepts everything does to the registers and hands out what its bytes do one at a time
(spec/20_memory.md rules R57, R63). -/

namespace Sys2Proof.Machine

theorem settleFrame_of_ne {r : Regs} (h : ¬ (r.parseState = psPayload ∧ r.curOffset = r.expectedLen)) (acc : Payloads) :
    settleFrame r acc = (r, acc) := if_neg h

theorem payloads_append (acc : Payloads) (rs rs' : List SinkRequest) :
    payloads acc (rs ++ rs') = payloads (payloads acc rs) rs' := List.foldl_append

/-- In ERROR the wire bytes do nothing (R102). -/
theorem wireBytes_error {r : Regs} (h : r.parseState = psError) (acc : Payloads) (bs : List Byte) :
    wireBytes (r, acc) bs = (r, acc) := by
  have hb : ∀ b, wireByte (r, acc) b = (r, acc) := by
    intro b
    have h1 : ¬ r.parseState = psPayload := by rw [h]; decide
    have h2 : wireHeader r b = r := by
      simp [wireHeader, h, psError, psStart, psByte2, psExtLen, psMask]
    simp only [wireByte, if_neg h1, h2]
    exact settleFrame_of_ne (fun h => h1 h.1) acc
  induction bs with
  | nil => rfl
  | cons b bs ih => simp only [wireBytes, List.foldl_cons, hb]; exact ih

/-- One more byte delivered is `advanced` twice. -/
theorem Regs.advanced_add (r : Regs) (j k : Nat) :
    Regs.advanced { r with curOffset := r.advanced j } k = r.advanced (j + k) := by
  simp only [Regs.advanced, BitVec.ofNat_add, BitVec.add_assoc]

/-- Payload bytes within the frame in progress: the last one completes it (R133, R134). -/
theorem wireBytes_payload {r : Regs} (hs : r.parseState = psPayload) (hle : r.curOffset.toNat ≤ r.expectedLen.toNat)
    (acc : Payloads) (bs : List Byte) (hb : bs.length ≤ r.rem) :
    wireBytes (settleFrame r acc) bs =
      if bs.length = r.rem then (r.completeFrame, acc.1 ++ [acc.2 ++ bs], [])
      else ({ r with curOffset := r.advanced bs.length }, acc.1, acc.2 ++ bs) := by
  induction bs generalizing r acc with
  | nil =>
    rw [Regs.rem_eq hle]
    by_cases h : r.curOffset = r.expectedLen
    · simp [wireBytes, settleFrame, hs, h]
    · have : ¬ 0 = r.expectedLen.toNat - r.curOffset.toNat := by
        intro h0; exact h (BitVec.eq_of_toNat_eq (by omega))
      simp [wireBytes, settleFrame, hs, h, this, Regs.advanced]
      rw [← hs]
  | cons b bs ih =>
    have hrem := Regs.rem_eq hle
    rw [List.length_cons] at hb
    have hlt : r.curOffset.toNat < r.expectedLen.toNat := by omega
    have hne : ¬ (r.parseState = psPayload ∧ r.curOffset = r.expectedLen) := by
      rintro ⟨-, h⟩; rw [h] at hlt; omega
    rw [settleFrame_of_ne hne]
    have hexp := r.expectedLen.isLt
    have hcur : (r.curOffset + 1).toNat = r.curOffset.toNat + 1 := by
      rw [BitVec.toNat_add]; simp; omega
    have hle' : (r.curOffset + 1).toNat ≤ r.expectedLen.toNat := by omega
    have hrem' := Regs.rem_eq (r := { r with curOffset := r.curOffset + 1 }) hle'
    have hone : wireByte (r, acc) b = settleFrame { r with curOffset := r.curOffset + 1 } (acc.1, acc.2 ++ [b]) := by
      simp [wireByte, hs]
    show wireBytes (wireByte (r, acc) b) bs = _
    rw [hone, ih (r := { r with curOffset := r.curOffset + 1 }) hs hle' _ (by rw [hrem']; simp only; omega), hrem', hrem]
    have hiff : bs.length = r.expectedLen.toNat - (r.curOffset + 1).toNat ↔
        (b :: bs).length = r.expectedLen.toNat - r.curOffset.toNat := by
      rw [List.length_cons]; omega
    by_cases hc : (b :: bs).length = r.expectedLen.toNat - r.curOffset.toNat
    · rw [if_pos hc, if_pos (hiff.mpr hc)]
      simp [Regs.completeFrame]
    · rw [if_neg hc, if_neg (fun h => hc (hiff.mp h))]
      have hadv : Regs.advanced { r with curOffset := r.curOffset + 1 } bs.length = r.advanced (bs.length + 1) := by
        have := Regs.advanced_add r 1 bs.length
        rw [Nat.add_comm]; exact this
      rw [hadv, List.length_cons]
      simp only [List.append_assoc, List.singleton_append]

/-- One header byte of the wire, the machine's step having succeeded. -/
theorem wireBytes_header {r r' : Regs} {b : Byte} {bs : List Byte} (hs : r.parseState ≠ psPayload)
    (hw : wireHeader r b = r') (acc : Payloads) :
    wireBytes (settleFrame r acc) (b :: bs) = wireBytes (settleFrame r' acc) bs := by
  rw [settleFrame_of_ne (fun h => hs h.1)]
  show wireBytes (wireByte (r, acc) b) bs = _
  simp [wireByte, hs, hw]

/-- The offset the slices of some requests lead to, from an offset. -/
def sliceEnd : Nat → List SinkRequest → Nat
  | off, [] => off
  | off, r :: rs => sliceEnd (if r.last then 0 else off + r.k) rs

theorem slicesFollow_append {off : Nat} {rs rs' : List SinkRequest} :
    slicesFollow off (rs ++ rs') ↔ slicesFollow off rs ∧ slicesFollow (sliceEnd off rs) rs' := by
  induction rs generalizing off with
  | nil => simp [slicesFollow, sliceEnd]
  | cons r rs ih => simp only [List.cons_append, slicesFollow, sliceEnd, ih]; tauto

theorem sliceEnd_append (off : Nat) (rs rs' : List SinkRequest) : sliceEnd off (rs ++ rs') = sliceEnd (sliceEnd off rs) rs' := by
  induction rs generalizing off with
  | nil => rfl
  | cons r rs ih => exact ih _

/-- No header step writes `cur_offset` (R22, R140). -/
theorem headerAct_curOffset (r : Regs) (b : Byte) : (headerAct r b).1.curOffset = r.curOffset := by
  unfold headerAct
  split
  · rcases startStep_cases b r with ⟨-, h⟩ | ⟨c, h⟩ <;> rw [h]
  · split
    · exact (byte2Step_frame b r).2.2.2
    · split
      · exact (extLenStep_frame b r).2.2.2
      · exact (maskStep_frame b r).2.2.2

/-! ## The masks of the sink requests -/

/-- A completed frame's registers are cleared, any other's kept (R134). -/
def Regs.settled (r : Regs) : Regs := if r.parseState = psPayload ∧ r.curOffset = r.expectedLen then r.completeFrame else r

theorem settleFrame_fst (r : Regs) (acc : Payloads) : (settleFrame r acc).1 = r.settled := by
  unfold settleFrame Regs.settled; split <;> rfl

/-- One byte of the wire before its frame is settled. -/
def rawByte (r : Regs) (b : Byte) : Regs :=
  if r.parseState = psPayload then { r with curOffset := r.curOffset + 1 } else wireHeader r b

theorem wireByte_raw (w : Regs × Payloads) (b : Byte) : ∃ acc, wireByte w b = settleFrame (rawByte w.1 b) acc := by
  unfold wireByte rawByte
  split <;> exact ⟨_, rfl⟩

/-- The mask wherever a stretch of the wire is in PAYLOAD. -/
def payloadMasks : Regs → List Byte → List Key
  | r, [] => if r.parseState = psPayload then [r.mask] else []
  | r, b :: bs => (if r.parseState = psPayload then [r.mask] else []) ++ payloadMasks (rawByte r.settled b) bs

theorem payloadMasks_self {r : Regs} (h : r.parseState = psPayload) (bs : List Byte) : r.mask ∈ payloadMasks r bs := by
  cases bs <;> simp [payloadMasks, h]

theorem settled_settled (r : Regs) : r.settled.settled = r.settled := by
  unfold Regs.settled
  split
  · rename_i h
    exact if_neg (fun h => by simpa [Regs.completeFrame, psPayload, psStart] using h.1)
  · rfl

theorem payloadMasks_settled (r : Regs) (bs : List Byte) {k : Key} (h : k ∈ payloadMasks r.settled bs) :
    k ∈ payloadMasks r bs := by
  by_cases hc : r.parseState = psPayload ∧ r.curOffset = r.expectedLen
  · have hs : r.settled = r.completeFrame := if_pos hc
    have hn : r.settled.parseState ≠ psPayload := by rw [hs]; simp [Regs.completeFrame, psPayload, psStart]
    cases bs with
    | nil => simp [payloadMasks, hn] at h
    | cons b bs =>
      simp only [payloadMasks, hn, if_false, List.nil_append, settled_settled] at h
      simp only [payloadMasks, List.mem_append]
      exact .inr h
  · have hs : r.settled = r := if_neg hc
    rwa [hs] at h

/-- A header byte on the wire. -/
theorem payloadMasks_header {r r' : Regs} {b : Byte} (hs : r.parseState ≠ psPayload) (hw : wireHeader r b = r')
    (bs : List Byte) : payloadMasks r (b :: bs) = payloadMasks r' bs := by
  have h1 : r.settled = r := if_neg (fun h => hs h.1)
  simp [payloadMasks, h1, rawByte, hs, hw]

/-- Payload bytes within the frame in progress leave its mask alone. -/
theorem payloadMasks_payload {r : Regs} (hs : r.parseState = psPayload) (hle : r.curOffset.toNat ≤ r.expectedLen.toNat)
    (bs rest : List Byte) (hb : bs.length ≤ r.rem) :
    (∀ k, k ∈ payloadMasks r bs → k = r.mask) ∧
    (bs.length = r.rem → ∀ k, k ∈ payloadMasks r.completeFrame rest → k ∈ payloadMasks r (bs ++ rest)) := by
  induction bs generalizing r with
  | nil =>
    refine ⟨by simp [payloadMasks, hs], fun h k hk => ?_⟩
    rw [Regs.rem_eq hle] at h
    have : r.settled = r.completeFrame := if_pos ⟨hs, BitVec.eq_of_toNat_eq (by simp at h; omega)⟩
    rw [← this] at hk
    exact payloadMasks_settled r rest hk
  | cons b bs ih =>
    have hrem := Regs.rem_eq hle
    rw [List.length_cons] at hb ⊢
    have hlt : r.curOffset.toNat < r.expectedLen.toNat := by omega
    have hst : r.settled = r := if_neg (by rintro ⟨-, h⟩; rw [h] at hlt; omega)
    have hexp := r.expectedLen.isLt
    have hcur : (r.curOffset + 1).toNat = r.curOffset.toNat + 1 := by
      rw [BitVec.toNat_add]; simp; omega
    have hle' : (r.curOffset + 1).toNat ≤ r.expectedLen.toNat := by omega
    have hrem' := Regs.rem_eq (r := { r with curOffset := r.curOffset + 1 }) hle'
    have hraw : rawByte r b = { r with curOffset := r.curOffset + 1 } := if_pos hs
    obtain ⟨i1, i2⟩ := ih (r := { r with curOffset := r.curOffset + 1 }) hs hle' (by rw [hrem']; simp only; omega)
    refine ⟨fun k hk => ?_, fun h k hk => ?_⟩
    · simp only [payloadMasks, hs, if_true, hst, hraw, List.mem_append, List.mem_singleton] at hk
      rcases hk with hk | hk
      · exact hk
      · exact i1 k (by rw [hs]; exact hk)
    · simp only [List.cons_append, payloadMasks, hst, hraw, List.mem_append]
      exact .inr (i2 (by rw [hrem']; simp only; omega) k hk)

/-- The masks of a stretch of the wire are among those of a longer one. -/
theorem payloadMasks_append (cs : List Byte) {k : Key} : ∀ (bs : List Byte) (r : Regs) (acc : Payloads),
    (k ∈ payloadMasks r bs → k ∈ payloadMasks r (bs ++ cs)) ∧
    (k ∈ payloadMasks (wireBytes (settleFrame r acc) bs).1 cs → k ∈ payloadMasks r (bs ++ cs)) := by
  intro bs
  induction bs with
  | nil =>
    intro r acc
    refine ⟨fun h => ?_, fun h => ?_⟩
    · unfold payloadMasks at h
      split at h
      · rename_i hp
        rw [List.mem_singleton.mp h]
        exact payloadMasks_self hp _
      · simp at h
    · have h' : k ∈ payloadMasks (settleFrame r acc).1 cs := h
      rw [settleFrame_fst] at h'
      exact payloadMasks_settled r cs h'
  | cons b bs ih =>
    intro r acc
    obtain ⟨acc', hw⟩ := wireByte_raw (settleFrame r acc) b
    rw [settleFrame_fst] at hw
    obtain ⟨i1, i2⟩ := ih (rawByte r.settled b) acc'
    simp only [List.cons_append, payloadMasks, List.mem_append]
    refine ⟨fun h => h.elim .inl fun h => .inr (i1 h), fun h => .inr (i2 ?_)⟩
    have h' : k ∈ payloadMasks (wireBytes (wireByte (settleFrame r acc) b) bs).1 cs := h
    rwa [hw] at h'

/-! ## FEEDs -/

/-- What a FEED does that a sink accepting everything sees through (R133, R134, R139): it returns; no other instance, no
input and no buffer changes; the registers and the payloads handed out are those of the bytes one at a time, and the
slices follow one another, their masks being those of the wire. -/
structure Delivered (s : State) (d : InstId) (r : Regs) (bs : List Byte) (t : State) : Prop where
  idle : t.running = none
  inputs : t.inputs = s.inputs
  buffers : t.buffers = s.buffers
  wire : ∃ y rs, t.decoders = s.decoders.set d y ∧ y.feed = none ∧ t.requests = s.requests ++ rs ∧
    slicesFollow r.curOffset.toNat rs ∧ sliceEnd r.curOffset.toNat rs = y.regs.curOffset.toNat ∧
    (∀ rq, rq ∈ rs → rq.mask ∈ payloadMasks r bs) ∧
    ∀ acc, wireBytes (settleFrame r acc) bs = (y.regs, payloads acc rs)

theorem drive_delivers (d : InstId) :
    ∀ m s x f n k fuel, State.Feeding s d x f → s.nextChunkWrite = none → FeedLocal x f → feedMeasure x f ≤ m → 2 * m ≤ fuel →
      ∃ run, drive (fun _ => resSuccess) d fuel { state := s, steps := n, frames := k } = some run ∧
        Delivered s d x.regs (f.chunk.drop f.p) run.state := by
  intro m
  induction m with
  | zero =>
    intro s x f n k fuel hf hq hl hm hfu
    exfalso
    by_cases hh : isHeaderState x.regs.parseState = true
    · have := hl.header hh
      simp [feedMeasure, Feed.left] at hm
      omega
    · have := hl.payload_of_not_header (by simpa using hh)
      simp [feedMeasure, this] at hm
  | succ m ih =>
    intro s x f n k fuel hf hq hl hm hfu
    have hlt := (List.getElem?_eq_some_iff.mp hf.2.1).1
    by_cases hh : isHeaderState x.regs.parseState = true
    · have hp := hl.header hh
      have hnp : x.regs.parseState ≠ psPayload := by intro h; rw [h] at hh; exact absurd hh (by decide)
      obtain ⟨fuel, rfl⟩ : ∃ fu, fuel = fu + 1 := ⟨fuel - 1, by omega⟩
      rw [drive_step hf (step_header hf hq hh (List.getElem?_eq_getElem hp))]
      have hdrop : f.chunk.drop f.p = f.chunk[f.p] :: f.chunk.drop (f.p + 1) := List.drop_eq_getElem_cons hp
      have hco := headerAct_curOffset x.regs f.chunk[f.p]
      rcases headerAct_cases hl.lawful hh f.chunk[f.p] with ⟨r, he, hr, hr4, hri, -, hw⟩ | ⟨r, c, he, hw⟩
      · rw [he] at hco ⊢
        have hco' : r.curOffset = x.regs.curOffset := hco
        have hne : r.parseState ≠ psError := by intro h; rw [h] at hr4; exact absurd hr4 (by decide)
        rcases resume_local (x := { x with regs := r }) (f := { f with p := f.p + 1 }) hf.2.1 hr hne
          (by rw [hri]; exact hl.notInSink) (by simp only; omega) with ⟨h1, h2, h3⟩ | ⟨h1, h2, h3⟩
        · have h2' : f.p + 1 = f.chunk.length := h2
          have h3' : r.parseState ≠ psPayload := by
            intro h; have h3'' : isHeaderState r.parseState = true := h3; rw [h] at h3''; exact absurd h3'' (by decide)
          refine ⟨_, drive_done _ ?_, ?_⟩
          · show ((s.resume d _ _).decoders[d]?).bind _ = none
            rw [h1]; exact endFeed_no_feed hf.2.1
          · show Delivered s d x.regs _ (s.resume d _ _)
            rw [h1]
            refine ⟨rfl, rfl, rfl, _, [], rfl, rfl, by simp [State.endFeed], trivial, by simp [sliceEnd, hco'], by simp, fun acc => ?_⟩
            rw [hdrop, wireBytes_header hnp hw, List.drop_eq_nil_of_le (by omega), settleFrame_of_ne (fun h => h3' h.1)]
            rfl
        · obtain ⟨run, e1, e2⟩ := ih _ _ _ (n + 1) k fuel h1 (State.nextChunkWrite_resume hq) h2 (by
            simp [feedMeasure, hnp, Feed.left] at hm ⊢
            split <;> omega) (by omega)
          refine ⟨run, e1, ?_⟩
          obtain ⟨i1, i2, i3, y, rs, i4, i5, i6, i7, i8, im, i9⟩ := e2
          rw [h3] at i2 i3 i4 i6
          simp only [hco'] at i7 i8
          refine ⟨i1, i2, i3, y, rs, by simpa using i4, i5, i6, i7, i8, fun rq h => ?_, fun acc => ?_⟩
          · rw [hdrop, payloadMasks_header hnp hw]
            exact im rq h
          rw [hdrop, wireBytes_header hnp hw]
          exact i9 acc
      · rw [he] at hco ⊢
        have hco' : r.curOffset = x.regs.curOffset := hco
        refine ⟨_, drive_done _ (endFeed_no_feed hf.2.1), rfl, rfl, rfl, _, [], rfl, rfl,
          by simp [State.enterError, State.endFeed, State.afterHeader], trivial, by simp [sliceEnd, hco'], by simp, fun acc => ?_⟩
        rw [hdrop, wireBytes_header hnp hw, settleFrame_of_ne (fun h => by simpa [psError, psPayload] using h.1),
          wireBytes_error rfl]
        rfl
    · have hps := hl.payload_of_not_header (by simpa using hh)
      obtain ⟨fuel, rfl⟩ : ∃ fu, fuel = fu + 2 := ⟨fuel - 2, by simp [feedMeasure, hps] at hm; omega⟩
      obtain ⟨code, t, hcode, ht, he⟩ := drive_payload (ans := fun _ => resSuccess) (n := n) (k := k) (fuel := fuel) hf hq hps hl.notInSink
      rw [he]
      subst hcode
      have hw := sinkInvoke_waiting hf
      have hle := hl.lawful.2.2.1
      have hcur := hl.cursor
      have hreq : (s.sinkInvoke d x f).requests = s.requests ++ [sinkRequest d x.regs f] := rfl
      have hlen : (f.chunk.drop f.p).length = f.left := by simp [Feed.left]
      have hins : ({ x.regs with inSink := false } : Regs) = x.regs := by rw [← hl.notInSink]
      by_cases hlt : f.left < x.regs.rem
      · rw [State.sinkAnswered_partial (by exact hlt)] at ht
        have hk : sliceLen x.regs f = f.left := Nat.min_eq_left (Nat.le_of_lt hlt)
        have hne : ¬ x.regs.advanced f.left = x.regs.expectedLen := by
          intro h
          obtain ⟨e1, e2⟩ := Regs.advanced_toNat hle hlt
          rw [h] at e1; omega
        refine ⟨_, drive_done _ (by rw [ht]; exact endFeed_no_feed hw), ?_⟩
        rw [ht]
        obtain ⟨hadv, hadv2⟩ := Regs.advanced_toNat hle hlt
        refine ⟨rfl, rfl, rfl, _, [sinkRequest d x.regs f], by simp [State.endFeed, State.sinkInvoke, State.setDecoder]; rfl,
          rfl, hreq, ⟨rfl, ?_, ?_, trivial⟩, ?_, ?_, fun acc => ?_⟩
        · simp [sinkRequest, hk, Feed.slice, Feed.left]
        · simp only [sinkRequest, hk, hne, decide_false, Bool.false_eq_true, false_iff]; omega
        · simp only [sliceEnd, sinkRequest, hk, hne, decide_false, Bool.false_eq_true, if_false]
          exact hadv.symm
        · simpa [sinkRequest] using payloadMasks_self hps _
        rw [wireBytes_payload hps hle acc _ (by rw [hlen]; omega), if_neg (by rw [hlen]; omega), hlen]
        have hsl : f.slice f.p f.left = f.chunk.drop f.p := by rw [Feed.slice, List.take_of_length_le (by rw [hlen])]
        simp [payloads, addRequest, sinkRequest, hk, hne, hsl, hl.notInSink]
        rfl
      · rw [State.sinkAnswered_complete (by exact Nat.not_lt.mp hlt)] at ht
        have hrem : x.regs.rem ≤ f.chunk.length - f.p := Nat.not_lt.mp hlt
        have hlaw := Regs.lawful_complete (r := { x.regs with inSink := true }) hl.lawful hps false
        have hk : sliceLen x.regs f = x.regs.rem := Nat.min_eq_right (Nat.not_lt.mp hlt)
        have hlast : x.regs.advanced x.regs.rem = x.regs.expectedLen := by
          apply BitVec.eq_of_toNat_eq
          have := Regs.rem_eq hle
          have := x.regs.expectedLen.isLt
          rw [Regs.advanced, BitVec.toNat_add, BitVec.toNat_ofNat]
          omega
        have hsplit : f.chunk.drop f.p = f.slice f.p x.regs.rem ++ f.chunk.drop (f.p + x.regs.rem) := by
          rw [Feed.slice, ← List.drop_drop, List.take_append_drop]
        have hslen : (f.slice f.p x.regs.rem).length = x.regs.rem := by
          simp [Feed.slice]; omega
        have hwire : ∀ acc, wireBytes (settleFrame x.regs acc) (f.chunk.drop f.p) =
            wireBytes (settleFrame (Regs.completeFrame { x.regs with inSink := false })
              (payloads acc [sinkRequest d x.regs f])) (f.chunk.drop (f.p + x.regs.rem)) := by
          intro acc
          have h1 := wireBytes_payload hps hle acc (f.slice f.p x.regs.rem) (by omega)
          rw [if_pos hslen] at h1
          rw [hsplit, wireBytes, List.foldl_append]
          rw [wireBytes] at h1
          rw [h1, settleFrame_of_ne (fun h => by simpa [psPayload, psStart] using h.1)]
          simp only [payloads, List.foldl_cons, List.foldl_nil, addRequest, sinkRequest, hk, hlast, decide_true, if_true, hins]
          rfl
        have hfollow : slicesFollow x.regs.curOffset.toNat [sinkRequest d x.regs f] ∧
            sliceEnd x.regs.curOffset.toNat [sinkRequest d x.regs f] = 0 := by
          have hr := Regs.rem_eq hle
          refine ⟨⟨rfl, ?_, ?_, trivial⟩, ?_⟩
          · simp only [sinkRequest, hk]; exact hslen
          · simp only [sinkRequest, hk, hlast, decide_true, true_iff]; omega
          · simp [sliceEnd, sinkRequest, hk, hlast]
        rcases resume_local (s := s.sinkInvoke d x f)
          (x := { regs := Regs.completeFrame { x.regs with inSink := false }, feed := x.feed, cause := x.cause })
          (f := { f with p := f.p + x.regs.rem, answer := none }) hw hlaw (by simp [psStart, psError]) rfl
          (show f.p + x.regs.rem ≤ f.chunk.length by omega) with ⟨h1, h2, -⟩ | ⟨h1, h2, h3⟩
        · have ht' := ht.trans h1
          refine ⟨_, drive_done _ (by rw [ht']; exact endFeed_no_feed hw), ?_⟩
          rw [ht']
          refine ⟨rfl, rfl, rfl, _, [sinkRequest d x.regs f], by simp [State.endFeed, State.sinkInvoke, State.setDecoder]; rfl,
            rfl, hreq, hfollow.1, by rw [hfollow.2]; rfl, by simpa [sinkRequest] using payloadMasks_self hps _, fun acc => ?_⟩
          have h2' : f.p + x.regs.rem = f.chunk.length := h2
          rw [hwire, List.drop_eq_nil_of_le (by omega), settleFrame_of_ne (fun h => by simpa [psPayload, psStart] using h.1)]
          rfl
        · obtain ⟨run, e1, i1, i2, i3, y, rs, i4, i5, i6, i7, i8, im, i9⟩ := ih _ _ _ (n + 1) (k + if t.atStart d then 1 else 0) fuel h1 (State.nextChunkWrite_resume hq) h2 (by
            simp [feedMeasure, hps, psStart, psPayload, Feed.left] at hm ⊢
            omega) (by omega)
          refine ⟨run, by
            rw [← e1]
            exact congrArg (fun u => drive (fun _ => resSuccess) d fuel
              { state := u, steps := n + 1, frames := k + if t.atStart d then 1 else 0 }) ht, ?_⟩
          rw [h3] at i2 i3 i4 i6
          refine ⟨i1, i2, i3, y, sinkRequest d x.regs f :: rs, by simpa [State.sinkInvoke] using i4, i5, ?_, ?_, ?_,
            fun rq hq => ?_, fun acc => ?_⟩
          · rw [i6]; simp
          · rw [← List.singleton_append, slicesFollow_append, hfollow.2]
            exact ⟨hfollow.1, i7⟩
          · rw [← List.singleton_append, sliceEnd_append, hfollow.2]
            exact i8
          · rcases List.mem_cons.mp hq with rfl | hq
            · exact payloadMasks_self hps _
            · rw [hsplit]
              exact (payloadMasks_payload hps hle (f.slice f.p x.regs.rem) _ (by omega)).2 hslen _ (by rw [← hins]; exact im rq hq)
          · rw [hwire]
            exact i9 _

end Sys2Proof.Machine
end

