-- ==== Sys2Proof/Laws/Stream.lean ====
section
/-! SUPPORT. Whole FEEDs and whole streams of them with a sink that accepts everything (spec/20_memory.md rule R57). -/

namespace Sys2Proof.Machine

/-- What the invariant says of an instance in no FEED (R37). -/
theorem State.Inv.idle {s : State} {d : InstId} {x : Decoder} (hs : s.Inv) (hx : s.decoders[d]? = some x)
    (hf : x.feed = none) : x.regs.inSink = false ∧ x.regs.lawful ∧
      (x.regs.parseState = psPayload → x.regs.curOffset.toNat < x.regs.expectedLen.toNat) :=
  have h := hs.lawful d x hx
  ⟨(h.2.2.1 hf).1, h.1, (h.2.2.1 hf).2⟩

/-- FEED in ERROR (R102). -/
theorem exec_feed_error {s : State} {d : InstId} {x : Decoder} (c : List Byte) (hx : s.decoders[d]? = some x)
    (hi : x.regs.inSink = false) (hb : x.regs.sinkBound = true) (hp : x.regs.parseState = psError) :
    exec (.feed d c) s = .next (s.respond (.result d resInvalid)) := by
  show s.withIdle d _ = _
  rw [State.withIdle_idle hx hi]
  simp [hb, hp]

/-- FEED outside ERROR (R101). -/
theorem exec_feed_takes {s : State} {d : InstId} {x : Decoder} (c : List Byte) (hx : s.decoders[d]? = some x)
    (hi : x.regs.inSink = false) (hb : x.regs.sinkBound = true) (hp : x.regs.parseState ≠ psError) :
    exec (.feed d c) s = .next (s.resume d x { chunk := c, p := 0, answer := none }) := by
  show s.withIdle d _ = _
  rw [State.withIdle_idle hx hi]
  simp [hb, hp]

/-- One whole FEED whose sink accepts everything. -/
theorem deliver_delivers {s : State} {d : InstId} {x : Decoder} (c : List Byte) (hx : s.decoders[d]? = some x)
    (hf : x.feed = none) (hr : s.running = none) (hq : s.nextChunkWrite = none) (hl : x.regs.lawful) (hi : x.regs.inSink = false)
    (hb : x.regs.sinkBound = true)
    (hp : x.regs.parseState = psPayload → x.regs.curOffset.toNat < x.regs.expectedLen.toNat) :
    ∃ run, deliver (fun _ => resSuccess) d s c = some run ∧ Delivered s d x.regs c run.state := by
  have hset : ∀ acc, settleFrame x.regs acc = (x.regs, acc) := by
    intro acc
    apply settleFrame_of_ne
    rintro ⟨h, h'⟩
    have := hp h
    rw [h'] at this
    omega
  by_cases he : x.regs.parseState = psError
  · have hn : ((s.respond (.result d resInvalid)).decoders[d]?).bind Decoder.feed = none := by simp [hx, hf]
    refine ⟨_, by unfold deliver; rw [exec_feed_error c hx hi hb he]; exact drive_done _ hn, hr, rfl, rfl, x, [],
      (set_self hx).symm, hf, by simp, trivial, rfl, by simp, fun acc => ?_⟩
    rw [hset, wireBytes_error he]
    rfl
  · unfold deliver
    rw [exec_feed_takes c hx hi hb he]
    rcases resume_local (f := { chunk := c, p := 0, answer := none }) hx hl he hi (by simp) with ⟨h1, h2, h3⟩ | ⟨h1, h2, h3⟩
    · rw [h1]
      refine ⟨_, drive_done _ (endFeed_no_feed hx), rfl, rfl, rfl, _, [], rfl, rfl, by simp, trivial, rfl, by simp, fun acc => ?_⟩
      have : c = [] := List.length_eq_zero_iff.mp h2.symm
      rw [hset, this]
      rfl
    · obtain ⟨run, e1, i1, i2, i3, y, rs, i4, i5, i6, i7⟩ := drive_delivers d (2 * c.length + 2) _ _ _ 0 0
        (4 * c.length + 4) h1 (State.nextChunkWrite_resume hq) h2 (by simp [feedMeasure, Feed.left]; split <;> omega) (by omega)
      rw [h3] at i2 i3 i4 i6
      exact ⟨run, e1, i1, i2, i3, y, rs, by simpa using i4, i5, i6, i7⟩

/-! ## What the wire bytes keep -/

/-- Settling keeps the laws, and leaves PAYLOAD with bytes still to come (R37). -/
theorem settleFrame_lawful {r : Regs} (hl : r.lawful) (acc : Payloads) :
    (settleFrame r acc).1.lawful ∧
    ((settleFrame r acc).1.parseState = psPayload →
      (settleFrame r acc).1.curOffset.toNat < (settleFrame r acc).1.expectedLen.toNat) ∧
    (settleFrame r acc).1.sinkBound = r.sinkBound ∧ (settleFrame r acc).1.inSink = r.inSink := by
  unfold settleFrame
  split
  · rename_i h
    exact ⟨Regs.lawful_complete hl h.1 r.inSink, fun h => absurd h (by simp [psStart, psPayload]), rfl, rfl⟩
  · rename_i h
    refine ⟨hl, fun hp => ?_, rfl, rfl⟩
    rcases (hl.2.2.2.2.2.2.1 hp).2.2.2 with h' | ⟨h1, h2⟩
    · exact h'
    · exact absurd ⟨hp, h1.trans h2.symm⟩ h

theorem wireHeader_lawful {r : Regs} (hl : r.lawful) (b : Byte) :
    (wireHeader r b).lawful ∧ (wireHeader r b).sinkBound = r.sinkBound ∧ (wireHeader r b).inSink = r.inSink := by
  by_cases hh : isHeaderState r.parseState = true
  · simp only [isHeaderState, decide_eq_true_eq] at hh
    rcases hh with hh | hh | hh | hh
    · rcases startStep_cases b r with ⟨hb, he⟩ | ⟨c, he⟩
      · have : wireHeader r b = { r with headerByte1 := b, parseState := psByte2 } := by
          unfold wireHeader; rw [if_pos hh, he]
        rw [this]; exact ⟨Regs.lawful_start hl hh hb, rfl, rfl⟩
      · have : wireHeader r b = { r with headerByte1 := b, parseState := psError } := by
          unfold wireHeader; rw [if_pos hh, he]
        rw [this]; exact ⟨Regs.lawful_error hl b r.inSink, rfl, rfl⟩
    · have : wireHeader r b = byte2Step b r := by simp [wireHeader, hh, psStart, psByte2]
      rw [this]; exact ⟨Regs.lawful_byte2 hl hh b, (byte2Step_frame b r).1, (byte2Step_frame b r).2.2.1⟩
    · have : wireHeader r b = extLenStep b r := by simp [wireHeader, hh, psStart, psByte2, psExtLen]
      rw [this]; exact ⟨Regs.lawful_extLen hl hh b, (extLenStep_frame b r).1, (extLenStep_frame b r).2.2.1⟩
    · have : wireHeader r b = maskStep b r := by simp [wireHeader, hh, psStart, psByte2, psExtLen, psMask]
      rw [this]; exact ⟨Regs.lawful_mask hl hh b, (maskStep_frame b r).1, (maskStep_frame b r).2.2.1⟩
  · have : wireHeader r b = r := by
      simp [isHeaderState] at hh
      simp [wireHeader, hh]
    rw [this]; exact ⟨hl, rfl, rfl⟩

theorem wireByte_lawful {r : Regs} (hl : r.lawful)
    (hp : r.parseState = psPayload → r.curOffset.toNat < r.expectedLen.toNat) (acc : Payloads) (b : Byte) :
    (wireByte (r, acc) b).1.lawful ∧
    ((wireByte (r, acc) b).1.parseState = psPayload →
      (wireByte (r, acc) b).1.curOffset.toNat < (wireByte (r, acc) b).1.expectedLen.toNat) ∧
    (wireByte (r, acc) b).1.sinkBound = r.sinkBound ∧ (wireByte (r, acc) b).1.inSink = r.inSink := by
  unfold wireByte
  split
  · rename_i h
    have h' : r.parseState = psPayload := h
    have hlt := hp h'
    have hexp := r.expectedLen.isLt
    by_cases hlast : r.curOffset.toNat + 1 = r.expectedLen.toNat
    · have hcur : (r.curOffset + 1).toNat = r.curOffset.toNat + 1 := by
        rw [BitVec.toNat_add]; simp; omega
      have : settleFrame { r with curOffset := r.curOffset + 1 } (acc.1, acc.2 ++ [b]) =
          (r.completeFrame, acc.1 ++ [acc.2 ++ [b]], []) := by
        rw [settleFrame, if_pos ⟨h', BitVec.eq_of_toNat_eq (by simp only [hcur]; exact hlast)⟩]
        rfl
      rw [this]
      exact ⟨Regs.lawful_complete hl h' r.inSink, fun h => absurd h (by simp [psStart, psPayload]), rfl, rfl⟩
    · have h1 : Regs.lawful { r with inSink := r.inSink, curOffset := r.advanced 1 } :=
        Regs.lawful_partial hl h' (k := 1) (by rw [Regs.rem_eq hl.2.2.1]; omega) r.inSink
      exact settleFrame_lawful h1 _
  · obtain ⟨k1, k2, k3⟩ := wireHeader_lawful hl b
    obtain ⟨a1, a2, a3, a4⟩ := settleFrame_lawful k1 acc
    exact ⟨a1, a2, a3.trans k2, a4.trans k3⟩

theorem wireBytes_lawful {r : Regs} (hl : r.lawful)
    (hp : r.parseState = psPayload → r.curOffset.toNat < r.expectedLen.toNat) (acc : Payloads) (bs : List Byte) :
    (wireBytes (r, acc) bs).1.lawful ∧
    ((wireBytes (r, acc) bs).1.parseState = psPayload →
      (wireBytes (r, acc) bs).1.curOffset.toNat < (wireBytes (r, acc) bs).1.expectedLen.toNat) ∧
    (wireBytes (r, acc) bs).1.sinkBound = r.sinkBound ∧ (wireBytes (r, acc) bs).1.inSink = r.inSink := by
  induction bs generalizing r acc with
  | nil => exact ⟨hl, hp, rfl, rfl⟩
  | cons b bs ih =>
    obtain ⟨h1, h2, h3, h4⟩ := wireByte_lawful hl hp acc b
    obtain ⟨g1, g2, g3, g4⟩ := ih h1 h2 (wireByte (r, acc) b).2
    exact ⟨g1, g2, g3.trans h3, g4.trans h4⟩

/-! ## Streams -/

/-- A stream of FEEDs whose sink accepts everything: every FEED returns, and the registers, the payloads and the order of
the slices are those of the bytes joined. -/
theorem deliverAll_delivers {d : InstId} (cut : List (List Byte)) : ∀ {s : State} {x : Decoder},
    s.decoders[d]? = some x → x.feed = none → s.running = none → s.nextChunkWrite = none → x.regs.lawful → x.regs.inSink = false →
    x.regs.sinkBound = true → (x.regs.parseState = psPayload → x.regs.curOffset.toNat < x.regs.expectedLen.toNat) →
    ∃ t y rs, deliverAll d s cut = some t ∧ t.decoders[d]? = some y ∧ t.requests = s.requests ++ rs ∧
      slicesFollow x.regs.curOffset.toNat rs ∧
      (∀ rq, rq ∈ rs → rq.mask ∈ payloadMasks x.regs cut.flatten) ∧ ∀ acc, wireBytes (x.regs, acc) cut.flatten = (y.regs, payloads acc rs) := by
  induction cut with
  | nil => intro s x hx hf hr hq hl hi hb hp; exact ⟨s, x, [], rfl, hx, by simp, trivial, by simp, fun acc => rfl⟩
  | cons c cs ih =>
    intro s x hx hf hr hq hl hi hb hp
    obtain ⟨run, e, i1, i2, i3, y, rs, i4, i5, i6, i7, i8, im, i9⟩ := deliver_delivers c hx hf hr hq hl hi hb hp
    have hset : ∀ acc, settleFrame x.regs acc = (x.regs, acc) := by
      intro acc
      apply settleFrame_of_ne
      rintro ⟨h, h'⟩
      have := hp h
      rw [h'] at this
      omega
    have hd := (List.getElem?_eq_some_iff.mp hx).1
    have hy : run.state.decoders[d]? = some y := by rw [i4]; exact List.getElem?_set_self hd
    have hw := i9 ([], [])
    rw [hset] at hw
    obtain ⟨l1, l2, l3, l4⟩ := wireBytes_lawful hl hp ([], []) c
    rw [hw] at l1 l2 l3 l4
    obtain ⟨t, z, rs', e1, e2, e3, e4, em, e5⟩ := ih hy i5 i1 ((State.nextChunkWrite_congr i2).trans hq) l1 (l4.trans hi) (l3.trans hb) l2
    refine ⟨t, z, rs ++ rs', by simp only [deliverAll, e]; exact e1, e2, by rw [e3, i6, List.append_assoc], ?_,
      fun rq hq => ?_, fun acc => ?_⟩
    · rw [slicesFollow_append, i8]
      exact ⟨i7, e4⟩
    · obtain ⟨a1, a2⟩ := payloadMasks_append cs.flatten (k := rq.mask) c x.regs ([], [])
      rw [hset, hw] at a2
      exact (List.mem_append.mp hq).elim (fun h => a1 (im rq h)) (fun h => a2 (em rq h))
    · have hw2 := i9 acc
      rw [hset] at hw2
      rw [List.flatten_cons, wireBytes, List.foldl_append]
      rw [wireBytes] at hw2
      rw [hw2, payloads_append]
      exact e5 _

/-- The payloads joined are the slices joined. -/
theorem payloads_join (rs : List SinkRequest) : ∀ acc : Payloads,
    (payloads acc rs).1.flatten ++ (payloads acc rs).2 = acc.1.flatten ++ acc.2 ++ rs.flatMap (fun r => r.bytes) := by
  induction rs with
  | nil => intro acc; simp [payloads]
  | cons r rs ih =>
    intro acc
    show (payloads (addRequest acc r) rs).1.flatten ++ (payloads (addRequest acc r) rs).2 = _
    rw [ih]
    unfold addRequest
    split <;> simp

end Sys2Proof.Machine
end

