-- ==== Sys2Proof/Laws/Header.lean ====
section
/-! SUPPORT. What the Encoder writes, read back by the header steps (spec/42_encoder.md rule R167). -/

namespace Sys2Proof.Machine

/-! ## The Encoder's bytes -/

/-- Eight slices of a length are the length. -/
theorem lenBytes8_value (pl : Len) :
    pl.extractLsb' 56 8 ++ pl.extractLsb' 48 8 ++ pl.extractLsb' 40 8 ++ pl.extractLsb' 32 8 ++
      pl.extractLsb' 24 8 ++ pl.extractLsb' 16 8 ++ pl.extractLsb' 8 8 ++ pl.extractLsb' 0 8 = pl := by
  apply BitVec.eq_of_getLsbD_eq
  intro i hi
  rw [BitVec.getLsbD_append, BitVec.getLsbD_append, BitVec.getLsbD_append, BitVec.getLsbD_append, BitVec.getLsbD_append,
    BitVec.getLsbD_append, BitVec.getLsbD_append]
  interval_cases i <;> simp

/-- Four slices of a key are the key. -/
theorem keyBytes_value (k : Key) :
    k.extractLsb' 24 8 ++ k.extractLsb' 16 8 ++ k.extractLsb' 8 8 ++ k.extractLsb' 0 8 = k := by
  apply BitVec.eq_of_getLsbD_eq
  intro i hi
  rw [BitVec.getLsbD_append, BitVec.getLsbD_append, BitVec.getLsbD_append]
  interval_cases i <;> simp

/-- The two low slices of a length of at most 16 bits are the length. -/
theorem lenBytes2_value {pl : Len} (h : pl.toNat ≤ 0xFFFF) :
    accLen (accLen 0 (pl.extractLsb' 8 8)) (pl.extractLsb' 0 8) = pl := by
  have h8 := (pl.extractLsb' 8 8).isLt
  apply BitVec.eq_of_toNat_eq
  rw [accLen_toNat (by rw [accLen_toNat (by simp)]; simp; omega), accLen_toNat (by simp)]
  simp [BitVec.extractLsb'_toNat, Nat.shiftRight_eq_div_pow]
  omega

/-- What an Encoder command with a positive count left in its buffer is what it wrote (R163, R164). -/
theorem emit_bytes {s t : State} {cap : Len} {buf : BufferRef} {bytes e : List Byte} (hb : bytes.length ≤ 13)
    (h : t = s.emit cap buf bytes.length bytes) (he : 0 < e.length) (he' : e.length ≤ 13)
    (hr : t.responses = s.responses ++ [.count (BitVec.ofNat 64 e.length)])
    (hread : ∀ j, j < e.length → t.bufRead buf j = e[j]?) : e = bytes := by
  subst h
  by_cases hc : cap.toNat < bytes.length
  · rw [State.emit_short hc] at hr
    simp at hr
    have := congrArg BitVec.toNat hr
    simp at this
    omega
  · rw [State.emit_fits (Nat.not_lt.mp hc)] at hr hread
    simp at hr
    have := congrArg BitVec.toNat hr
    simp at this
    have hlen : e.length = bytes.length := by omega
    apply List.ext_getElem?
    intro j
    by_cases hj : j < e.length
    · rw [← hread j hj]
      show (Buffers.of (Buffers.writeFrom s.buffers buf 0 bytes) buf).read j = _
      rw [Buffers.read_writeFrom]
      simp [← hlen, hj]
    · rw [List.getElem?_eq_none (by omega), List.getElem?_eq_none (by omega)]

/-! ## Stretches of header bytes -/

/-- The bytes take the registers `r` to `r'` and hand nothing out, whatever follows them on the wire. -/
def HeaderRun (r r' : Regs) (bs : List Byte) : Prop :=
  ∀ rest acc, wireBytes (settleFrame r acc) (bs ++ rest) = wireBytes (settleFrame r' acc) rest ∧
    payloadMasks r (bs ++ rest) = payloadMasks r' rest

theorem HeaderRun.one {r r' : Regs} {b : Byte} (h : r.parseState ≠ psPayload) (hw : wireHeader r b = r') :
    HeaderRun r r' [b] := fun rest acc => ⟨wireBytes_header h hw acc, payloadMasks_header h hw rest⟩

theorem HeaderRun.trans {r r' r'' : Regs} {bs cs : List Byte} (h : HeaderRun r r' bs) (h' : HeaderRun r' r'' cs) :
    HeaderRun r r'' (bs ++ cs) := fun rest acc => by
  rw [List.append_assoc]
  exact ⟨(h _ acc).1.trans (h' _ acc).1, (h _ acc).2.trans (h' _ acc).2⟩

/-- A decremented count that reaches 0 was 1. -/
theorem sub_one_eq_zero (v : BitVec 4) : v - 1#4 = 0#4 ↔ v = 1#4 := by revert v; decide

theorem headerRun_start {r : Regs} (h : r.parseState = psStart) {b : Byte} (hb : header1Legal b = true) :
    HeaderRun r { r with headerByte1 := b, parseState := psByte2 } [b] :=
  .one (by rw [h]; decide) (by simp [wireHeader, h, startStep_accepts hb])

theorem headerRun_byte2 {r : Regs} (h : r.parseState = psByte2) (b : Byte) : HeaderRun r (byte2Step b r) [b] :=
  .one (by rw [h]; decide) (by simp [wireHeader, h, psStart, psByte2])

theorem headerRun_extLen {r : Regs} (h : r.parseState = psExtLen) {n : BitVec 4} (hn : r.remainingIntBytes - 1 = n)
    (h1 : r.remainingIntBytes ≠ 1) (b : Byte) :
    HeaderRun r { r with expectedLen := accLen r.expectedLen b, remainingIntBytes := n } [b] := by
  subst hn
  have h1' : ¬ r.remainingIntBytes = 1#4 := h1
  exact .one (by rw [h]; decide) (by simp [wireHeader, h, psStart, psByte2, psExtLen, extLenStep, sub_one_eq_zero, h1'])

theorem headerRun_extLen_last {r : Regs} (h : r.parseState = psExtLen) (h1 : r.remainingIntBytes = 1) (b : Byte) :
    HeaderRun r (afterLength { r with expectedLen := accLen r.expectedLen b, remainingIntBytes := 0 }) [b] :=
  .one (by rw [h]; decide) (by simp [wireHeader, h, psStart, psByte2, psExtLen, extLenStep, h1])

theorem headerRun_mask {r : Regs} (h : r.parseState = psMask) {n : BitVec 4} (hn : r.remainingIntBytes - 1 = n)
    (h1 : r.remainingIntBytes ≠ 1) (b : Byte) :
    HeaderRun r { r with mask := accKey r.mask b, remainingIntBytes := n } [b] := by
  subst hn
  have h1' : ¬ r.remainingIntBytes = 1#4 := h1
  exact .one (by rw [h]; decide)
    (by simp [wireHeader, h, psStart, psByte2, psExtLen, psMask, maskStep, sub_one_eq_zero, h1'])

theorem headerRun_mask_last {r : Regs} (h : r.parseState = psMask) (h1 : r.remainingIntBytes = 1) (b : Byte) :
    HeaderRun r { r with mask := accKey r.mask b, remainingIntBytes := 0, parseState := psPayload } [b] :=
  .one (by rw [h]; decide) (by simp [wireHeader, h, psStart, psByte2, psExtLen, psMask, maskStep, h1])

/-! ## Whole fields -/

/-- The four bytes of a key (R81). -/
theorem headerRun_key {r : Regs} (h : r.parseState = psMask) (h4 : r.remainingIntBytes = 4) (h0 : r.mask = 0) (k : Key) :
    HeaderRun r { r with mask := k, remainingIntBytes := 0, parseState := psPayload } (keyBytes k) := by
  have a1 := headerRun_mask h (n := 3) (by rw [h4]; rfl) (by rw [h4]; decide) (k.extractLsb' 24 8)
  have a2 := headerRun_mask (r := { r with mask := accKey r.mask (k.extractLsb' 24 8), remainingIntBytes := 3 })
    h (n := 2) (by simp) (by simp) (k.extractLsb' 16 8)
  have a3 := headerRun_mask (r := { r with
    mask := accKey (accKey r.mask (k.extractLsb' 24 8)) (k.extractLsb' 16 8), remainingIntBytes := 2 })
    h (n := 1) (by simp) (by simp) (k.extractLsb' 8 8)
  have a4 := headerRun_mask_last (r := { r with
    mask := accKey (accKey (accKey r.mask (k.extractLsb' 24 8)) (k.extractLsb' 16 8)) (k.extractLsb' 8 8)
    remainingIntBytes := 1 }) h rfl (k.extractLsb' 0 8)
  have := ((a1.trans a2).trans a3).trans a4
  simp only [h0, accKey_four, keyBytes_value] at this
  exact this

/-- The bytes of a length, from BYTE2 with nothing accumulated (R80, R87): up to `AFTER_LENGTH` with that length. -/
theorem headerRun_length {r : Regs} (h : r.parseState = psByte2) (h0 : r.expectedLen = 0) (m : Bool) (pl : Len) :
    ∃ r', HeaderRun r (afterLength r') (lengthField m pl) ∧ r'.maskf = m ∧ r'.expectedLen = pl ∧
      r'.curOffset = r.curOffset ∧ r'.mask = r.mask ∧ r'.headerByte1 = r.headerByte1 := by
  unfold lengthField lengthForm
  split
  · rename_i hf
    split at hf <;> rename_i h126
    · have e7 : len7Of (hdr2Byte m (pl.setWidth 7)) = pl.setWidth 7 := by simp
      have ht : (pl.setWidth 7).toNat = pl.toNat := by rw [BitVec.toNat_setWidth]; omega
      have n1 : pl.setWidth 7 ≠ (126 : BitVec 7) := by intro h; rw [h] at ht; simp at ht; omega
      have n2 : pl.setWidth 7 ≠ (127 : BitVec 7) := by intro h; rw [h] at ht; simp at ht; omega
      have ez : (pl.setWidth 7).setWidth 64 = pl := by
        apply BitVec.eq_of_toNat_eq
        rw [BitVec.toNat_setWidth, ht]
        omega
      have := headerRun_byte2 h (hdr2Byte m (pl.setWidth 7))
      rw [byte2Step] at this
      simp only [e7] at this
      rw [if_neg n1, if_neg n2, ez] at this
      exact ⟨_, this, by simp [Regs.maskf], rfl, rfl, rfl, rfl⟩
    · split at hf <;> cases hf
  · rename_i hf
    split at hf
    · cases hf
    · split at hf <;> rename_i h16
      · have a1 := headerRun_byte2 h (hdr2Byte m 126)
        simp only [byte2Step, len7Of_hdr2Byte, if_true] at a1
        have a2 := headerRun_extLen (r := { r with
          headerByte2 := hdr2Byte m 126, remainingIntBytes := 2, parseState := psExtLen }) rfl (n := 1) (by simp) (by simp)
          (pl.extractLsb' 8 8)
        have a3 := headerRun_extLen_last (r := { r with
          headerByte2 := hdr2Byte m 126, remainingIntBytes := 1, parseState := psExtLen
          expectedLen := accLen r.expectedLen (pl.extractLsb' 8 8) }) rfl rfl (pl.extractLsb' 0 8)
        have := (a1.trans a2).trans a3
        exact ⟨_, this, by simp [Regs.maskf], by simp only [h0]; exact lenBytes2_value h16, rfl, rfl, rfl⟩
      · cases hf
  · have a1 := headerRun_byte2 h (hdr2Byte m 127)
    simp only [byte2Step, len7Of_hdr2Byte] at a1
    rw [if_neg (by decide), if_pos trivial] at a1
    have st : ∀ (n n' : BitVec 4) (v : Len) (b : Byte), n ≠ 1 → n - 1 = n' →
        HeaderRun { r with headerByte2 := hdr2Byte m 127, remainingIntBytes := n, parseState := psExtLen, expectedLen := v }
          { r with headerByte2 := hdr2Byte m 127, remainingIntBytes := n', parseState := psExtLen, expectedLen := accLen v b }
          [b] := fun n n' v b h1 h2 => headerRun_extLen rfl h2 h1 b
    have a2 := st 8 7 r.expectedLen (pl.extractLsb' 56 8) (by decide) rfl
    have a3 := fun v => st 7 6 v (pl.extractLsb' 48 8) (by decide) rfl
    have a4 := fun v => st 6 5 v (pl.extractLsb' 40 8) (by decide) rfl
    have a5 := fun v => st 5 4 v (pl.extractLsb' 32 8) (by decide) rfl
    have a6 := fun v => st 4 3 v (pl.extractLsb' 24 8) (by decide) rfl
    have a7 := fun v => st 3 2 v (pl.extractLsb' 16 8) (by decide) rfl
    have a8 := fun v => st 2 1 v (pl.extractLsb' 8 8) (by decide) rfl
    have a9 := fun v => headerRun_extLen_last (r := { r with
      headerByte2 := hdr2Byte m 127, remainingIntBytes := 1, parseState := psExtLen, expectedLen := v }) rfl rfl
      (pl.extractLsb' 0 8)
    have := ((((((((a1.trans a2).trans (a3 _)).trans (a4 _)).trans (a5 _)).trans (a6 _)).trans (a7 _)).trans (a8 _)).trans (a9 _))
    refine ⟨_, this, by simp [Regs.maskf], ?_, rfl, rfl, rfl⟩
    simp only [h0]
    rw [accLen_eight, lenBytes8_value]

/-- A whole header: a legal first byte, what an Encoder command writes for `pl`, and the key if `m` (R79, R87). -/
theorem headerRun_header {r : Regs} (hl : r.lawful) (h : r.parseState = psStart) {b1 : Byte} (hb : header1Legal b1 = true)
    (m : Bool) (pl : Len) (k : Key) :
    ∃ r', HeaderRun r r' (b1 :: (lengthField m pl ++ if m then keyBytes k else [])) ∧ r'.parseState = psPayload ∧
      r'.curOffset = 0 ∧ r'.expectedLen = pl ∧ r'.mask = (if m then k else 0) ∧ r'.headerByte1 = b1 := by
  obtain ⟨c0, e0, m0, -⟩ := hl.2.2.2.1 (.inl h)
  have a1 := headerRun_start h hb
  obtain ⟨r', a2, f1, f2, f3, f4, f5⟩ := headerRun_length (r := { r with headerByte1 := b1, parseState := psByte2 }) rfl e0 m pl
  simp only [c0, m0] at f3 f4 f5
  cases m
  · rw [afterLength_unmasked f1] at a2
    have := a1.trans a2
    exact ⟨{ r' with remainingIntBytes := 0, parseState := psPayload }, by simpa using this, rfl, f3, f2, f4, f5⟩
  · rw [afterLength_masked f1] at a2
    have a3 := headerRun_key (r := { r' with remainingIntBytes := 4, parseState := psMask }) rfl rfl f4 k
    exact ⟨_, a1.trans (a2.trans a3), rfl, f3, f2, rfl, f5⟩

/-- The frames handed out are as many as the requests marked `last` (R137). -/
theorem payloads_last (rs : List SinkRequest) : ∀ acc : Payloads,
    (payloads acc rs).1.length = acc.1.length + (rs.filter (fun r => r.last)).length := by
  induction rs with
  | nil => intro acc; rfl
  | cons r rs ih =>
    intro acc
    show (payloads (addRequest acc r) rs).1.length = _
    rw [ih]
    unfold addRequest
    cases h : r.last with
    | false => simp [h]
    | true => simp [h]; omega

end Sys2Proof.Machine
end

