-- ==== Sys2Proof/Laws/Inv.lean ====
section
/-! SUPPORT. What the shared operations keep of the invariant (spec/41_decoder_steps.md rule R140). -/

namespace Sys2Proof.Machine

/-- Instance `d` gets a lawful state in which it executes no FEED, and nothing else that the invariant speaks of changes. -/
theorem inv_stop {s t : State} (hs : s.Inv) {d : InstId} {x y : Decoder} (hx : s.decoders[d]? = some x)
    (hrun : s.running = none ∨ s.running = some d) (hy : y.lawful)
    (hyf : ∀ f, y.feed = some f → y.regs.inSink = true)
    (h1 : t.decoders = s.decoders.set d y) (h2 : t.running = none) (h3 : t.buffers = s.buffers) : t.Inv := by
  have hd := (List.getElem?_eq_some_iff.mp hx).1
  refine ⟨by rw [h1]; simpa using hs.instances, fun e z hz => ?_, fun e he => ?_, fun e z f hz hf hi => ?_, by rw [h3]; exact hs.buffersWf⟩
  · rw [h1] at hz
    by_cases hed : e = d
    · subst hed; simp [hd] at hz; exact hz ▸ hy
    · rw [List.getElem?_set_ne (Ne.symm hed)] at hz; exact hs.lawful e z hz
  · rw [h2] at he; cases he
  · exfalso
    rw [h1] at hz
    by_cases hed : e = d
    · subst hed; simp [hd] at hz; subst hz; rw [hyf f hf] at hi; cases hi
    · rw [List.getElem?_set_ne (Ne.symm hed)] at hz
      have := hs.waiting e z f hz hf hi
      rcases hrun with h | h <;> rw [h] at this
      · cases this
      · exact hed (Option.some.inj this).symm

/-- Instance `d` gets a lawful state in which it executes a FEED. -/
theorem inv_go {s t : State} (hs : s.Inv) {d : InstId} {x y : Decoder} (hx : s.decoders[d]? = some x)
    (hrun : s.running = none ∨ s.running = some d) (hy : y.lawful) {f : Feed}
    (hyf : y.feed = some f) (hyi : y.regs.inSink = false)
    (h1 : t.decoders = s.decoders.set d y) (h2 : t.running = some d) (h3 : t.buffers = s.buffers) : t.Inv := by
  have hd := (List.getElem?_eq_some_iff.mp hx).1
  refine ⟨by rw [h1]; simpa using hs.instances, fun e z hz => ?_, fun e he => ?_, fun e z f hz hf hi => ?_, by rw [h3]; exact hs.buffersWf⟩
  · rw [h1] at hz
    by_cases hed : e = d
    · subst hed; simp [hd] at hz; exact hz ▸ hy
    · rw [List.getElem?_set_ne (Ne.symm hed)] at hz; exact hs.lawful e z hz
  · rw [h2] at he; cases he
    exact ⟨y, f, by rw [h1]; simp [hd], hyf, hyi⟩
  · rw [h1] at hz
    by_cases hed : e = d
    · subst hed; exact h2
    · exfalso
      rw [List.getElem?_set_ne (Ne.symm hed)] at hz
      have := hs.waiting e z f hz hf hi
      rcases hrun with h | h <;> rw [h] at this
      · cases this
      · exact hed (Option.some.inj this).symm

/-- The head of the FEED loop keeps the invariant (R101). -/
theorem inv_resume {s : State} (hs : s.Inv) {d : InstId} {x0 x : Decoder} {f : Feed} (hx : s.decoders[d]? = some x0)
    (hrun : s.running = none ∨ s.running = some d) (hl : x.regs.lawful) (hc : x.cause.isSome = true ↔ x.regs.parseState = psError)
    (hb : x.regs.sinkBound = true) (hi : x.regs.inSink = false) (hne : x.regs.parseState ≠ psError)
    (hp : f.p ≤ f.chunk.length) (hn : f.chunk.length < 2^64) (ha : f.answer = none) : (s.resume d x f).Inv := by
  rcases s.resume_cases d x f with ⟨h1, h2, h3⟩ | ⟨h1, h3⟩
  · rw [h3]
    refine inv_stop hs hx hrun (y := {x with feed := none}) ⟨hl, hc, fun _ => ⟨hi, fun hps => ?_⟩, fun f hf => by cases hf⟩ (fun f hf => by cases hf) rfl rfl rfl
    have hps' : x.regs.parseState = psPayload := hps
    rw [hps'] at h1; exact absurd h1 (by decide)
  · rw [h3]
    refine inv_go hs hx hrun (y := {x with feed := some f}) ⟨hl, hc, fun h => (nomatch h), fun g hg => ?_⟩ rfl hi rfl rfl rfl
    cases hg
    exact ⟨hb, hp, hn, ha, hne, fun h => absurd (h.symm.trans hi) (by decide), h1⟩

/-- The entry into ERROR keeps the invariant (R183). -/
theorem inv_error {s : State} (hs : s.Inv) {d : InstId} {x0 x : Decoder} (hx : s.decoders[d]? = some x0)
    (hrun : s.running = none ∨ s.running = some d) {c : Cause} {code : Code}
    (hl : ({ x.regs with parseState := psError } : Regs).lawful) (hi : x.regs.inSink = false) : (s.enterError d x c code).Inv := by
  refine inv_stop hs hx hrun (y := { regs := { x.regs with parseState := psError }, feed := none, cause := some c })
    ⟨hl, by simp, fun _ => ⟨hi, fun h => absurd h (by simp [psError, psPayload])⟩, fun f hf => by cases hf⟩ (fun f hf => by cases hf) rfl rfl rfl

/-- What follows a header step without an error keeps the invariant (R140). -/
theorem inv_header {s : State} (hs : s.Inv) {d : InstId} {x : Decoder} {f : Feed} (hf : s.Feeding d x f)
    (hi : x.regs.inSink = false) (hp : f.p < f.chunk.length) (r : Regs) 
    (hl : r.lawful) (hne : r.parseState ≠ psError) (hb : r.sinkBound = x.regs.sinkBound) (his : r.inSink = x.regs.inSink) :
    (s.afterHeader d x f (r, none)).Inv := by
  obtain ⟨h1, h2, h3⟩ := hf
  obtain ⟨l1, l2, l3, l4⟩ := hs.lawful d x h2
  obtain ⟨m1, m2, m3, m4, m5, m6, m7⟩ := l4 f h3
  refine inv_resume hs h2 (.inr h1) hl ?_ (by simp [hb, m1]) (by simp [his, hi]) hne (by simp only; omega) m3 m4
  have : x.cause.isSome = false := by
    cases h : x.cause.isSome with
    | false => rfl
    | true => exact absurd (l2.mp h) m5
  simp [this, hne]

/-- Whatever the sink answers keeps the invariant (R133 to R135). -/
theorem inv_sinkAnswered {s : State} (hs : s.Inv) {d : InstId} {x : Decoder} {f : Feed} {code : Code}
    (hrun : s.running = none) (hx : s.decoders[d]? = some x) (hf : x.feed = some f) (hi : x.regs.inSink = true) :
    (s.sinkAnswered d x f code).Inv := by
  obtain ⟨l1, l2, l3, l4⟩ := hs.lawful d x hx
  obtain ⟨m1, m2, m3, m4, m5, m6, m7⟩ := l4 f hf
  have hps := m6 hi
  have hcause : x.cause.isSome = false := by
    cases h : x.cause.isSome with
    | false => rfl
    | true => exact absurd (l2.mp h) m5
  by_cases hc : code = resSuccess
  · subst hc
    by_cases hlt : f.left < x.regs.rem
    · rw [State.sinkAnswered_partial hlt]
      have := Regs.lawful_partial l1 hps hlt false
      refine inv_stop hs hx (.inl hrun) (y := { regs := { x.regs with inSink := false, curOffset := x.regs.advanced f.left }, feed := none, cause := x.cause }) ⟨this, l2, fun _ => ⟨rfl, fun _ => ?_⟩, fun f hf => by cases hf⟩ (fun f hf => by cases hf) rfl rfl rfl
      obtain ⟨e1, e2⟩ := Regs.advanced_toNat l1.2.2.1 hlt
      simp only [e1]; exact e2
    · rw [State.sinkAnswered_complete (by omega)]
      refine inv_resume hs hx (.inl hrun) (Regs.lawful_complete l1 hps false) ?_ m1 rfl (by simp [psStart, psError]) ?_ m3 rfl
      · simp [hcause, psStart, psError]
      · simp only [Feed.left] at *; omega
  · rw [State.sinkAnswered_rejected hc]
    refine inv_error hs hx (.inl hrun) ?_ rfl
    exact Regs.lawful_error l1 x.regs.headerByte1 false

end Sys2Proof.Machine
end

