-- ==== Sys2Proof/Laws/PerInstr.lean ====
section
/-! SUPPORT. Statements made of every instruction, one lemma per constructor. -/

/-- The word of a well-formed instruction's encoding has the fixed bits of its row in spec/opcode_table.json. -/
def Sys2Proof.Laws.EncodingMatchesRow.Statement (i : Sys2Proof.Instr) : Prop :=
  i.wf = true → (Sys2Proof.encode i).word &&& i.tableRow.2 = i.tableRow.1

namespace Sys2Proof.Laws.EncodingMatchesRow

theorem init (d : InstId) (ctx : SinkCtx) : Statement (.init d ctx) := by
  intro _; simp [encode, Raw.word, Instr.tableRow]

theorem feed (d : InstId) (chunk : List Byte) : Statement (.feed d chunk) := by
  intro _; simp [encode, Raw.word, Instr.tableRow]

theorem reset (d : InstId) : Statement (.reset d) := by
  intro _; simp [encode, Raw.word, Instr.tableRow]

theorem status (d : InstId) : Statement (.status d) := by
  intro _; simp [encode, Raw.word, Instr.tableRow]

theorem encUnmasked (cap : Len) (pl : Len) (buf : BufferRef) : Statement (.encUnmasked cap pl buf) := by
  intro _; simp [encode, Raw.word, Instr.tableRow]

theorem encMasked (cap : Len) (pl : Len) (buf : BufferRef) (key : Key) : Statement (.encMasked cap pl buf key) := by
  intro _; simp [encode, Raw.word, Instr.tableRow]

theorem stepStart : Statement (.stepStart) := by
  intro _; simp [encode, Raw.word, Instr.tableRow]

theorem stepByte2 : Statement (.stepByte2) := by
  intro _; simp [encode, Raw.word, Instr.tableRow]

theorem stepExtLen : Statement (.stepExtLen) := by
  intro _; simp [encode, Raw.word, Instr.tableRow]

theorem stepMask : Statement (.stepMask) := by
  intro _; simp [encode, Raw.word, Instr.tableRow]

theorem stepPayload : Statement (.stepPayload) := by
  intro _; simp [encode, Raw.word, Instr.tableRow]

theorem stepError : Statement (.stepError) := by
  intro _; simp [encode, Raw.word, Instr.tableRow]

theorem hdr1Continuation (fin : Bool) : Statement (.hdr1Continuation fin) := by
  intro _; revert fin; decide

theorem hdr1Text (fin : Bool) : Statement (.hdr1Text fin) := by
  intro _; revert fin; decide

theorem hdr1Binary (fin : Bool) : Statement (.hdr1Binary fin) := by
  intro _; revert fin; decide

theorem hdr1Close (fin : Bool) : Statement (.hdr1Close fin) := by
  intro _; revert fin; decide

theorem hdr1Ping (fin : Bool) : Statement (.hdr1Ping fin) := by
  intro _; revert fin; decide

theorem hdr1Pong (fin : Bool) : Statement (.hdr1Pong fin) := by
  intro _; revert fin; decide

theorem hdr1Rsv1Set (fin : Bool) (rsv2 : Bool) (rsv3 : Bool) (op : BitVec 4) : Statement (.hdr1Rsv1Set fin rsv2 rsv3 op) := by
  intro _; revert fin rsv2 rsv3 op; decide

theorem hdr1Rsv2Set (fin : Bool) (rsv1 : Bool) (rsv3 : Bool) (op : BitVec 4) : Statement (.hdr1Rsv2Set fin rsv1 rsv3 op) := by
  intro _; revert fin rsv1 rsv3 op; decide

theorem hdr1Rsv3Set (fin : Bool) (rsv1 : Bool) (rsv2 : Bool) (op : BitVec 4) : Statement (.hdr1Rsv3Set fin rsv1 rsv2 op) := by
  intro _; revert fin rsv1 rsv2 op; decide

theorem hdr1Reserved3 (fin : Bool) : Statement (.hdr1Reserved3 fin) := by
  intro _; revert fin; decide

theorem hdr1Reserved4To7 (fin : Bool) (low : BitVec 2) : Statement (.hdr1Reserved4To7 fin low) := by
  intro _; revert fin low; decide

theorem hdr1ReservedB (fin : Bool) : Statement (.hdr1ReservedB fin) := by
  intro _; revert fin; decide

theorem hdr1ReservedCToF (fin : Bool) (low : BitVec 2) : Statement (.hdr1ReservedCToF fin low) := by
  intro _; revert fin low; decide

theorem hdr2Len16 (m : Bool) : Statement (.hdr2Len16 m) := by
  intro _; revert m; decide

theorem hdr2Len64 (m : Bool) : Statement (.hdr2Len64 m) := by
  intro _; revert m; decide

theorem hdr2Len7Literal (m : Bool) (len7 : BitVec 7) : Statement (.hdr2Len7Literal m len7) := by
  intro _; revert m len7; decide

theorem hdr2Masked (len7 : BitVec 7) : Statement (.hdr2Masked len7) := by
  intro _; revert len7; decide

theorem hdr2Unmasked (len7 : BitVec 7) : Statement (.hdr2Unmasked len7) := by
  intro _; revert len7; decide

end Sys2Proof.Laws.EncodingMatchesRow
end

