-- ==== Sys2Proof/Tests/Slice0.lean ====
section
/-! SUPPORT. The model's own tests: ill-formed instructions, decodings of words written out by hand, single steps against
spec/95_test_vectors.md (cited with each), and for every statement with hypotheses a state and operands that meet them. -/

namespace Sys2Proof.Tests

open Sys2Proof.Machine

/-! ## Helpers -/

/-- A bound instance's registers: START, every counter 0 (the start of spec/95). -/
def bound : Regs := { Regs.created with sinkBound := true, sinkCtx := 7 }

/-- A machine with one instance. -/
def one (x : Decoder) : State := { State.reset with decoders := [x] }

/-- One instance in no FEED. -/
def idle (r : Regs) : State := one { regs := r, feed := none, cause := none }

/-- One instance that executes a FEED, at the cursor `p`. -/
def feeding (r : Regs) (chunk : List Byte) (p : Nat) : State :=
  { one { regs := r, feed := some { chunk := chunk, p := p, answer := none }, cause := none } with running := some 0 }

/-- One instance whose PAYLOAD step takes the answer `code`. -/
def answered (r : Regs) (chunk : List Byte) (p : Nat) (code : Code) : State :=
  { one { regs := { r with inSink := true }, feed := some { chunk := chunk, p := p, answer := some code }, cause := none } with
    running := some 0 }

/-- Instance 0 after an outcome. -/
def after : Result → Option Decoder
  | .next t => t.decoders[0]?
  | .fault _ => none
  | .refused _ => none

/-- The registers of instance 0 after an outcome. -/
def regsAfter (o : Result) : Option Regs := (after o).map Decoder.regs

/-- The responses after an outcome. -/
def responsesAfter : Result → List Response
  | .next t => t.responses
  | .fault _ => []
  | .refused _ => []

/-- The sink requests after an outcome. -/
def requestsAfter : Result → List SinkRequest
  | .next t => t.requests
  | .fault _ => []
  | .refused _ => []

/-- The first bytes of a buffer after an outcome. -/
def bufferAfter (n : Nat) (buf : BufferRef) : Result → List (Option Byte)
  | .next t => (List.range n).map (t.bufRead buf)
  | .fault _ => []
  | .refused _ => []

/-- The refusal of an outcome. -/
def refusalOf : Result → Option Refusal
  | .next _ => none
  | .fault _ => none
  | .refused r => some r

/-! ## Ill-formed instructions: one for each check of WellFormed.lean -/

theorem test_wf_init_no_such_instance (ctx : SinkCtx) : (Instr.init Config.numInstances ctx).wf = false := by
  simp [Instr.wf, instOk]

theorem test_wf_feed_no_such_instance (c : List Byte) : (Instr.feed Config.numInstances c).wf = false := by
  simp [Instr.wf, instOk]

theorem test_wf_feed_chunk_too_long : (Instr.feed 0 (List.replicate (2 ^ 64) 0)).wf = false := by
  simp only [Instr.wf, List.length_replicate, Nat.lt_irrefl, decide_false, Bool.and_false]

theorem test_wf_reset_no_such_instance : (Instr.reset Config.numInstances).wf = false := by
  simp [Instr.wf, instOk]

theorem test_wf_status_no_such_instance : (Instr.status Config.numInstances).wf = false := by
  simp [Instr.wf, instOk]

theorem test_wf_rsv2_row_with_rsv1 : (Instr.hdr1Rsv2Set false true false 0).wf = false := by decide

theorem test_wf_rsv3_row_with_rsv1 : (Instr.hdr1Rsv3Set false true false 0).wf = false := by decide

theorem test_wf_rsv3_row_with_rsv2 : (Instr.hdr1Rsv3Set false false true 0).wf = false := by decide

theorem test_wf_literal_126 : (Instr.hdr2Len7Literal false 126).wf = false := by decide

/-! ## Decoding: words written out from R70, R88, R75, R76 -/

theorem test_decode_init : decode (.command { op := 0b00000001, inst := 2, sinkCtx := 9 }) = .instr (.init 2 9) := by decide

theorem test_decode_feed :
    decode (.command { op := 0b00000010, inst := 1, n := 2, chunk := [0x81, 0x00] }) = .instr (.feed 1 [0x81, 0x00]) := by decide

theorem test_decode_reset : decode (.command { op := 0b00000011, inst := 1 }) = .instr (.reset 1) := by decide

theorem test_decode_status : decode (.command { op := 0b00000100, inst := 3 }) = .instr (.status 3) := by decide

theorem test_decode_encUnmasked :
    decode (.command { op := 0b00010000, capacity := 3, payloadLength := 126, buffer := 4 }) = .instr (.encUnmasked 3 126 4) := by
  decide

theorem test_decode_encMasked :
    decode (.command { op := 0b00010001, capacity := 5, payloadLength := 10, buffer := 4, maskKey := 0x37FA213D }) =
      .instr (.encMasked 5 10 4 0x37FA213D) := by decide

theorem test_decode_stepStart : decode (.step 0b000) = .instr .stepStart := by decide
theorem test_decode_stepByte2 : decode (.step 0b001) = .instr .stepByte2 := by decide
theorem test_decode_stepExtLen : decode (.step 0b010) = .instr .stepExtLen := by decide
theorem test_decode_stepMask : decode (.step 0b011) = .instr .stepMask := by decide
theorem test_decode_stepPayload : decode (.step 0b100) = .instr .stepPayload := by decide
theorem test_decode_stepError : decode (.step 0b101) = .instr .stepError := by decide
theorem test_decode_hdr1Continuation : decode (.header1 0b00000000) = .instr (.hdr1Continuation false) := by decide
theorem test_decode_hdr1Text : decode (.header1 0b10000001) = .instr (.hdr1Text true) := by decide
theorem test_decode_hdr1Binary : decode (.header1 0b10000010) = .instr (.hdr1Binary true) := by decide
theorem test_decode_hdr1Close : decode (.header1 0b10001000) = .instr (.hdr1Close true) := by decide
theorem test_decode_hdr1Ping : decode (.header1 0b00001001) = .instr (.hdr1Ping false) := by decide
theorem test_decode_hdr1Pong : decode (.header1 0b10001010) = .instr (.hdr1Pong true) := by decide
theorem test_decode_hdr1Rsv1Set : decode (.header1 0b11010001) = .instr (.hdr1Rsv1Set true false true 0x1) := by decide
theorem test_decode_hdr1Rsv2Set : decode (.header1 0b00110010) = .instr (.hdr1Rsv2Set false false true 0x2) := by decide
theorem test_decode_hdr1Rsv3Set : decode (.header1 0b10011111) = .instr (.hdr1Rsv3Set true false false 0xF) := by decide
theorem test_decode_hdr1Reserved3 : decode (.header1 0b10000011) = .instr (.hdr1Reserved3 true) := by decide
theorem test_decode_hdr1Reserved4To7 : decode (.header1 0b00000110) = .instr (.hdr1Reserved4To7 false 0b10) := by decide
theorem test_decode_hdr1ReservedB : decode (.header1 0b10001011) = .instr (.hdr1ReservedB true) := by decide
theorem test_decode_hdr1ReservedCToF : decode (.header1 0b00001101) = .instr (.hdr1ReservedCToF false 0b01) := by decide
theorem test_decode_hdr2Len16 : decode (.header2Length 0b11111110) = .instr (.hdr2Len16 true) := by decide
theorem test_decode_hdr2Len64 : decode (.header2Length 0b01111111) = .instr (.hdr2Len64 false) := by decide
theorem test_decode_hdr2Len7Literal : decode (.header2Length 0b01111101) = .instr (.hdr2Len7Literal false 125) := by decide
theorem test_decode_hdr2Masked : decode (.header2Mask 0b10000101) = .instr (.hdr2Masked 5) := by decide
theorem test_decode_hdr2Unmasked : decode (.header2Mask 0b01111110) = .instr (.hdr2Unmasked 126) := by decide

/-- R73: a code outside R70. -/
theorem test_decode_unknown : decode (.command { op := 0x05 }) = .rejected (.unknownCommand 0x05) := by decide

/-- R88: codes 6 and 7. -/
theorem test_decode_badState : decode (.step 6) = .rejected (.badState 6) ∧ decode (.step 7) = .rejected (.badState 7) := by decide

/-- R71: FEED has `n` chunk bytes. -/
theorem test_decode_feed_short : decode (.command { op := 0x02, n := 3, chunk := [0x81] }) = .rejected (.chunkLength 0) := by decide

/-- R84: 12 of the 256 first header bytes are legal. -/
theorem test_legal_count : ((List.range 256).filter fun b => header1Legal (BitVec.ofNat 8 b)).length = 12 := by decide

/-! ## Table words -/

theorem test_table_words :
    decodeTableWord 8 0x03 = some (.reset 0) ∧ decodeTableWord 8 0x11 = some (.encMasked 0 0 0 0) ∧
    decodeTableWord 8 0x05 = some .stepError ∧ decodeTableWord 8 0x09 = some (.hdr1Ping false) ∧
    decodeTableWord 8 0x7F = some (.hdr2Len64 false) ∧ decodeTableWord 8 0x80 = some (.hdr2Masked 0) := by decide

theorem test_fetch_reset : responsesAfter (step (State.reset.withFetchWord 8 0x03)) = [.result 0 0] := by decide

/-- A ping's first byte fed to the freshly placed FEED: captured, and the FEED suspends in BYTE2. -/
theorem test_fetch_ping : (regsAfter (step (State.reset.withFetchWord 8 0x09))).map (fun r => (r.headerByte1, r.parseState)) =
    some (0x09, 1) := by decide

/-! ## Commands (spec/95 section 2.6) -/

/-- "INIT d0, S" on a created instance: 0, `START, 0, 0, 0, 00, 00, 0, sink_bound=1`. -/
theorem test_init_created : regsAfter (exec (.init 0 7) (idle Regs.created)) = some bound ∧
    responsesAfter (exec (.init 0 7) (idle Regs.created)) = [.result 0 0] := by decide

/-- The registers at the end of V-F14: `ERROR, 0, 3, 0, 82, 03, 0`. -/
def endOfF14 : Regs := { bound with parseState := 5, expectedLen := 3, headerByte1 := 0x82, headerByte2 := 0x03 }

/-- "INIT d0, S2" in ERROR: bound to S2, every counter 0. -/
theorem test_init_leaves_error : regsAfter (exec (.init 0 8) (idle endOfF14)) = some { bound with sinkCtx := 8 } := by decide

/-- "RESET d0" in ERROR: 0, `START, 0, 0, 0, 00, 00, 0`, binding kept. -/
theorem test_reset_leaves_error : regsAfter (exec (.reset 0) (idle endOfF14)) = some bound := by decide

/-- "during a sink invocation of d0: RESET d0: refuse(Reentrant)". -/
theorem test_reset_reentrant : refusalOf (exec (.reset 0) (idle { bound with inSink := true })) = some (.reentrant 0) := by decide

/-- "created, never INITed: FEED d0, [81 00]: refuse(NoSink)". -/
theorem test_feed_no_sink : refusalOf (exec (.feed 0 [0x81, 0x00]) (idle Regs.created)) = some (.noSink 0) := by decide

/-- V-F18: in ERROR `FEED [81 00]` answers 1, state unchanged. -/
theorem test_feed_error : responsesAfter (exec (.feed 0 [0x81, 0x00]) (idle endOfF14)) = [.result 0 1] ∧
    regsAfter (exec (.feed 0 [0x81, 0x00]) (idle endOfF14)) = some endOfF14 := by decide

/-- "created, never INITed: STATUS d0: START, 0, 0, 0, 00, 00, 0, sink_bound=0, in_sink=0". -/
theorem test_status_created : responsesAfter (exec (.status 0) (idle Regs.created)) =
    [.snapshot 0 {
      parseState := 0, remainingIntBytes := 0, headerByte1 := 0x00, headerByte2 := 0x00, mask := 0, expectedLen := 0
      curOffset := 0, sinkBound := false, inSink := false }] := by decide

/-- "during a sink invocation of d0 (V-F2): PAYLOAD, 0, 5, 37FA213D, 81, 85, 0, sink_bound=1, in_sink=1". -/
theorem test_status_in_sink : responsesAfter (exec (.status 0) (idle { bound with
      parseState := 4, expectedLen := 5, mask := 0x37FA213D, headerByte1 := 0x81, headerByte2 := 0x85, inSink := true })) =
    [.snapshot 0 {
      parseState := 4, remainingIntBytes := 0, headerByte1 := 0x81, headerByte2 := 0x85, mask := 0x37FA213D, expectedLen := 5
      curOffset := 0, sinkBound := true, inSink := true }] := by decide

/-! ## The Encoder (spec/95 section 2.7) -/

/-- `ENC_UNMASKED cap=3, len=126`: 3, `[7E 00 7E]` (W2). -/
theorem test_encUnmasked_126 : responsesAfter (exec (.encUnmasked 3 126 4) State.reset) = [.count 3] ∧
    bufferAfter 4 4 (exec (.encUnmasked 3 126 4) State.reset) = [some 0x7E, some 0x00, some 0x7E, none] := by decide

/-- `ENC_UNMASKED`, len 2^32, need 9: `[7F 00 00 00 01 00 00 00 00]`. -/
theorem test_encUnmasked_long : bufferAfter 9 4 (exec (.encUnmasked 9 0x100000000 4) State.reset) =
    [some 0x7F, some 0, some 0, some 0, some 1, some 0, some 0, some 0, some 0] := by decide

/-- `ENC_MASKED cap=5, len=10, key=0x37FA213D`: 5, `[8A 37 FA 21 3D]` (W4). -/
theorem test_encMasked_10 : responsesAfter (exec (.encMasked 5 10 4 0x37FA213D) State.reset) = [.count 5] ∧
    bufferAfter 6 4 (exec (.encMasked 5 10 4 0x37FA213D) State.reset) =
      [some 0x8A, some 0x37, some 0xFA, some 0x21, some 0x3D, none] := by decide

/-- `ENC_MASKED cap=6, len=126`: 0, nothing written. -/
theorem test_encMasked_short : responsesAfter (exec (.encMasked 6 126 4 0x37FA213D) State.reset) = [.count 0] ∧
    bufferAfter 2 4 (exec (.encMasked 6 126 4 0x37FA213D) State.reset) = [none, none] := by decide

/-! ## Parse steps (spec/95 sections 2.1 to 2.5) -/

/-- R121's example: `b = 0x81` gives `header_byte1 = 0x81`, `parse_state = BYTE2`. -/
theorem test_start_81 : regsAfter (exec .stepStart (feeding bound [0x81, 0x05] 0)) =
    some { bound with headerByte1 := 0x81, parseState := 1 } := by decide

/-- Section 2.1: FF fails both checks; 1, ERROR, CAUSE_RSV. -/
theorem test_start_FF : after (exec .stepStart (feeding bound [0xFF, 0x00] 0)) =
      some { regs := { bound with headerByte1 := 0xFF, parseState := 5 }, feed := none, cause := some .rsv } ∧
    responsesAfter (exec .stepStart (feeding bound [0xFF, 0x00] 0)) = [.result 0 1] := by decide

/-- BYTE2 after `b1 = 82`. -/
def inByte2 : Regs := { bound with headerByte1 := 0x82, parseState := 1 }

/-- Section 2.2: `7E` gives `EXT_LEN, 0, 0, 0, 82, 7E, 2`, the FEED answering 0. -/
theorem test_byte2_7E : regsAfter (exec .stepByte2 (feeding inByte2 [0x82, 0x7E] 1)) =
      some { inByte2 with headerByte2 := 0x7E, parseState := 2, remainingIntBytes := 2 } ∧
    responsesAfter (exec .stepByte2 (feeding inByte2 [0x82, 0x7E] 1)) = [.result 0 0] := by decide

/-- Section 2.2: `85` gives `MASK, 0, 5, 0, 82, 85, 4`. -/
theorem test_byte2_85 : regsAfter (exec .stepByte2 (feeding inByte2 [0x82, 0x85] 1)) =
    some { inByte2 with headerByte2 := 0x85, parseState := 3, expectedLen := 5, remainingIntBytes := 4 } := by decide

/-- Section 2.3: `[82 7E 01]` ends in `EXT_LEN, 0, 1, 0, 82, 7E, 1`. -/
theorem test_extLen_first : regsAfter (exec .stepExtLen (feeding
      { inByte2 with headerByte2 := 0x7E, parseState := 2, remainingIntBytes := 2 } [0x82, 0x7E, 0x01] 2)) =
    some { inByte2 with headerByte2 := 0x7E, parseState := 2, expectedLen := 1, remainingIntBytes := 1 } := by decide

/-- V-F20: the length's last byte 80 leads to `PAYLOAD, 0, 128, 0, 81, 7E, 0`, and the FEED goes on. -/
theorem test_extLen_last : after (exec .stepExtLen (feeding
      { bound with headerByte1 := 0x81, headerByte2 := 0x7E, parseState := 2, remainingIntBytes := 1 } [0x80] 0)) =
    some {
      regs := { bound with headerByte1 := 0x81, headerByte2 := 0x7E, parseState := 4, expectedLen := 128 }
      feed := some { chunk := [0x80], p := 1, answer := none }, cause := none } := by decide

/-- V-F21: key bytes 01 02 lead to `MASK, 0, 126, 00000102, 82, FE, 2`. -/
theorem test_mask_second : regsAfter (exec .stepMask (feeding { inByte2 with
      headerByte2 := 0xFE, parseState := 3, expectedLen := 126, mask := 0x01, remainingIntBytes := 3 } [0x01, 0x02] 1)) =
    some { inByte2 with
      headerByte2 := 0xFE, parseState := 3, expectedLen := 126, mask := 0x0102, remainingIntBytes := 2 } := by decide

/-- V-F3: the key's last byte 3D completes 37FA213D, and the FEED goes on at the chunk's end. -/
theorem test_mask_last : after (exec .stepMask (feeding { bound with
      headerByte1 := 0x81, headerByte2 := 0x85, parseState := 3, expectedLen := 5, mask := 0x37FA21, remainingIntBytes := 1 }
      [0x3D] 0)) =
    some {
      regs := { bound with
        headerByte1 := 0x81, headerByte2 := 0x85, parseState := 4, expectedLen := 5, mask := 0x37FA213D }
      feed := some { chunk := [0x3D], p := 1, answer := none }, cause := none } := by decide

/-- V-F10: `sink(2, 2, [48 69]; 0, 2, 0, last=1)`. -/
theorem test_payload_request : requestsAfter (exec .stepPayload (feeding { bound with
      headerByte1 := 0x81, headerByte2 := 0x02, parseState := 4, expectedLen := 2 } [0x81, 0x02, 0x48, 0x69, 0x8A, 0x00] 2)) =
    [{ inst := 0, sinkCtx := 7, base := 2, k := 2, last := true, bytes := [0x48, 0x69]
       curOffset := 0, expectedLen := 2, mask := 0 }] := by decide

/-- V-F15: the sink answers 0x101 to the slice `[CC]`; end `ERROR, 2, 5, 0, 82, 05, 0`. -/
theorem test_payload_rejected : after (exec .stepPayload (answered { bound with
      headerByte1 := 0x82, headerByte2 := 0x05, parseState := 4, curOffset := 2, expectedLen := 5 } [0xCC] 0 0x101)) =
      some {
        regs := { bound with headerByte1 := 0x82, headerByte2 := 0x05, parseState := 5, curOffset := 2, expectedLen := 5 }
        feed := none, cause := some .sink } ∧
    responsesAfter (exec .stepPayload (answered { bound with
      headerByte1 := 0x82, headerByte2 := 0x05, parseState := 4, curOffset := 2, expectedLen := 5 } [0xCC] 0 0x101)) =
      [.result 0 0x101] := by decide

/-- R101's loop in ERROR: `RES_INVALID`. -/
theorem test_stepError : responsesAfter (exec .stepError (feeding { bound with parseState := 5 } [0x81] 0)) = [.result 0 1] := by
  decide

/-! ## Header rows (spec/95 sections 2.1, 2.2): the first byte, or the second after `82`, of a two-byte chunk -/

/-- `header_byte1` and `parse_state` after a first header byte. -/
def first (i : Instr) : Option (Byte × BitVec 3) :=
  (regsAfter (exec i (feeding bound [0, 0] 0))).map fun r => (r.headerByte1, r.parseState)

/-- `header_byte2`, `parse_state`, `expected_len` and `remaining_int_bytes` after a second header byte. -/
def second (i : Instr) : Option (Byte × BitVec 3 × Len × BitVec 4) :=
  (regsAfter (exec i (feeding inByte2 [0x82, 0] 1))).map fun r => (r.headerByte2, r.parseState, r.expectedLen, r.remainingIntBytes)

theorem test_hdr1Continuation : first (.hdr1Continuation false) = some (0x00, 1) := by decide
theorem test_hdr1Text : first (.hdr1Text true) = some (0x81, 1) := by decide
theorem test_hdr1Binary : first (.hdr1Binary true) = some (0x82, 1) := by decide
theorem test_hdr1Close : first (.hdr1Close false) = some (0x08, 1) := by decide
theorem test_hdr1Ping : first (.hdr1Ping true) = some (0x89, 1) := by decide
theorem test_hdr1Pong : first (.hdr1Pong false) = some (0x0A, 1) := by decide
theorem test_hdr1Rsv1Set : first (.hdr1Rsv1Set true false false 0x1) = some (0xC1, 5) := by decide
theorem test_hdr1Rsv2Set : first (.hdr1Rsv2Set false false false 0x0) = some (0x20, 5) := by decide
theorem test_hdr1Rsv3Set : first (.hdr1Rsv3Set false false false 0x0) = some (0x10, 5) := by decide
theorem test_hdr1Reserved3 : first (.hdr1Reserved3 true) = some (0x83, 5) := by decide
theorem test_hdr1Reserved4To7 : first (.hdr1Reserved4To7 true 3) = some (0x87, 5) := by decide
theorem test_hdr1ReservedB : first (.hdr1ReservedB false) = some (0x0B, 5) := by decide
theorem test_hdr1ReservedCToF : first (.hdr1ReservedCToF true 3) = some (0x8F, 5) := by decide
theorem test_hdr2Len16 : second (.hdr2Len16 true) = some (0xFE, 2, 0, 2) := by decide
theorem test_hdr2Len64 : second (.hdr2Len64 false) = some (0x7F, 2, 0, 8) := by decide
theorem test_hdr2Len7Literal : second (.hdr2Len7Literal false 125) = some (0x7D, 4, 125, 0) := by decide
theorem test_hdr2Masked : second (.hdr2Masked 0) = some (0x80, 3, 0, 4) := by decide
theorem test_hdr2Unmasked : second (.hdr2Unmasked 5) = some (0x05, 4, 5, 0) := by decide

/-! ## Inputs -/

/-- R217: with no input the machine waits. -/
theorem test_step_waits : after (step (idle bound)) = some { regs := bound, feed := none, cause := none } := by decide

/-- "any: command code 0x05: refuse(UnknownCommand)". -/
theorem test_step_unknown : refusalOf (step { idle bound with inputs := [.command { op := 0x05 }] }) = some (.unknownCommand 5) := by
  decide

/-- Nobody waits for this answer (log 4). -/
theorem test_step_unexpected_answer : refusalOf (step { idle bound with inputs := [.answer 0 0] }) = some (.unexpectedAnswer 0) := by
  decide

/-- R190: `parse_state` code 6 at step dispatch. -/
theorem test_step_badState :
    (match step (feeding { bound with parseState := 6 } [0x81] 0) with
      | .fault f => some f
      | .next _ => none
      | .refused _ => none) = some (.badState 6) := by decide

/-! ## Fields and text -/

/-- Section 2.4: V-F2's payload unmasked reads "Hello" (R218). -/
theorem test_unmask_hello : unmask 0x37FA213D 0 [0x7F, 0x9F, 0x4D, 0x51, 0x58] = [0x48, 0x65, 0x6C, 0x6C, 0x6F] := by decide

/-- R80, R81: the declared length and the header's size of `[FE 00 7E ..]`. -/
theorem test_header_sizes : headerBytes 0xFE = 8 ∧ declaredLen 0xFE [0x00, 0x7E] = 126 ∧ declaredLen 0x05 [] = 5 := by decide

/-- P1's lines (R89). -/
theorem test_assemble_P1 :
    assembleLine [("S", 7)] 0 "INIT   d0, S" = some [.init 0 7] ∧
    assembleLine [("S", 7)] 0 "FEED   d0, [BB CC DD 01 02 03]            ; key bytes 2..4; payload" =
      some [.feed 0 [0xBB, 0xCC, 0xDD, 0x01, 0x02, 0x03]] := by decide

/-- P2's first line, and FEEDSPLIT (R90). -/
theorem test_assemble_P2 :
    assembleLine [] 4 "ENC_MASKED cap=13, len=130, key=0x11223344" = some [.encMasked 13 130 4 0x11223344] ∧
    assembleLine [] 0 "FEEDSPLIT  d1, 2, [00 01 02]" = some [.feed 1 [0x00, 0x01], .feed 1 [0x02]] := by decide

/-- `.frame` and a quoted string (R89, R90). -/
theorem test_assemble_frame :
    assembleLine [] 0 "FEED d0, .frame fin=1, op=1, key=0x37FA213D, \"Hi\" ++ [8A 00]" =
      some [.feed 0 [0x81, 0x82, 0x37, 0xFA, 0x21, 0x3D, 0x48, 0x69, 0x8A, 0x00]] := by decide

/-! ## Witnesses: states and operands that meet the hypotheses of the statements, each clause at a boundary value -/

/-- Reset with another instance 0. -/
def withFirst (x : Decoder) : State := { State.reset with decoders := State.reset.decoders.set 0 x }

theorem withFirst_get (x : Decoder) : (withFirst x).decoders[0]? = some x := rfl

/-- An instance as created is lawful. -/
theorem created_lawful : Decoder.created.lawful :=
  ⟨Regs.lawful_created, by decide, fun _ => by decide, fun f h => nomatch h⟩

/-- A lawful instance 0 in no executing FEED, whatever the inputs. -/
theorem inv_waiting {x : Decoder} (hx : x.lawful) (hf : ∀ f, x.feed = some f → x.regs.inSink = true) (inputs : List Input) :
    State.Inv { withFirst x with inputs := inputs } := by
  refine ⟨by simp [withFirst, State.reset], fun d y hy => ?_, fun d h => (nomatch h), fun d y f hy hyf hi => ?_, rfl⟩ <;>
    cases d with
    | zero => first
      | (obtain rfl : x = y := Option.some.inj hy; exact hx)
      | (obtain rfl : x = y := Option.some.inj hy; rw [hf f hyf] at hi; exact nomatch hi)
    | succ d =>
      have hy' : (List.replicate Config.extraInstances Decoder.created)[d]? = some y := hy
      obtain rfl : y = Decoder.created := by
        rw [List.getElem?_replicate] at hy'
        split at hy' <;> simp_all
      first
      | exact created_lawful
      | exact nomatch hyf

/-- A lawful instance 0 that executes a FEED. -/
theorem inv_running {x : Decoder} {f : Feed} (hx : x.lawful) (hf : x.feed = some f) (hi : x.regs.inSink = false) :
    State.Inv { withFirst x with running := some 0 } :=
  inv_go (s := { withFirst Decoder.created with inputs := [] }) (inv_waiting created_lawful (fun _ h => nomatch h) [])
    (withFirst_get _) (.inl rfl) hx hf hi rfl rfl rfl

theorem lawful_idle {r : Regs} {cause : Option Cause} (h : r.lawful) (hc : cause.isSome = true ↔ r.parseState = psError)
    (hb : Decoder.betweenCommands { regs := r, feed := none, cause := cause }) :
    Decoder.lawful { regs := r, feed := none, cause := cause } := ⟨h, hc, fun _ => hb, fun _ h => nomatch h⟩

theorem lawful_feed {r : Regs} {f : Feed} (h : r.lawful) (hb : Decoder.inFeedLawful { regs := r, feed := some f, cause := none } f) :
    Decoder.lawful { regs := r, feed := some f, cause := none } :=
  ⟨h, by simp [hb.2.2.2.2.1], fun h => (nomatch h), fun g hg => by cases hg; exact hb⟩

/-- A FEED at the start of its chunk. -/
abbrev feedOf (chunk : List Byte) : Feed := { chunk := chunk, p := 0, answer := none }

/-- An instance in that FEED. -/
abbrev inFeed (r : Regs) (chunk : List Byte) : Decoder := { regs := r, feed := some (feedOf chunk), cause := none }

/-- A lawful machine whose instance 0 executes that FEED. -/
abbrev running (r : Regs) (chunk : List Byte) : State := { withFirst (inFeed r chunk) with running := some 0 }

theorem inv_of_running {r : Regs} {chunk : List Byte} (h : r.lawful) (hb : (inFeed r chunk).inFeedLawful (feedOf chunk))
    (hi : r.inSink = false) : (running r chunk).Inv := inv_running (lawful_feed h hb) rfl hi

/-- A bound instance in PAYLOAD with 2 of 5 bytes delivered, unmasked. -/
def inPayload : Regs := { bound with headerByte1 := 0x82, headerByte2 := 0x05, parseState := 4, curOffset := 2, expectedLen := 5 }

theorem bound_lawful : bound.lawful := by refine ⟨?_, ?_, ?_, ?_, ?_, ?_, ?_, ?_⟩ <;> decide

theorem inByte2_lawful : inByte2.lawful := by refine ⟨?_, ?_, ?_, ?_, ?_, ?_, ?_, ?_⟩ <;> decide

theorem inPayload_lawful : inPayload.lawful := by refine ⟨?_, ?_, ?_, ?_, ?_, ?_, ?_, ?_⟩ <;> decide

theorem endOfF14_lawful : endOfF14.lawful := by refine ⟨?_, ?_, ?_, ?_, ?_, ?_, ?_, ?_⟩ <;> decide

/-- A lawful machine whose instance 0 waits for its sink, with inputs to come. -/
abbrev waitingState (inputs : List Input) : State :=
  { withFirst (inFeed { inPayload with inSink := true } [0xAA]) with inputs := inputs }

theorem inv_waitingState (inputs : List Input) : (waitingState inputs).Inv :=
  inv_waiting (lawful_feed (r := { inPayload with inSink := true }) inPayload_lawful (by decide)) (fun _ _ => rfl) inputs

/-- A lawful machine whose instance 0 is bound and in START. -/
abbrev ready : State := { withFirst { regs := bound, feed := none, cause := none } with inputs := [] }

theorem ready_ready : ready.readyFor 0 :=
  ⟨inv_waiting (lawful_idle bound_lawful (by decide) (by decide)) (fun _ h => nomatch h) [], rfl, rfl, _, rfl, rfl, rfl, by decide⟩

/-- Instance 0 in ERROR. -/
abbrev inError (inputs : List Input) : State :=
  { withFirst { regs := endOfF14, feed := none, cause := some .sink } with inputs := inputs }

theorem inv_inError (inputs : List Input) : (inError inputs).Inv :=
  inv_waiting (lawful_idle endOfF14_lawful (by decide) (by decide)) (fun _ h => nomatch h) inputs

/-! ### Commands -/

theorem witness_CreatedInstancesHoldResetValues : 0 < Config.numInstances := Nat.succ_pos _

/-- INIT and RESET: an instance in an invocation, and one in none. -/
theorem witness_InitBindsAndResets : (∃ (s : State) (x : Decoder), s.decoders[0]? = some x ∧ x.regs.inSink = true) ∧
    ∃ (s : State) (x : Decoder), s.decoders[0]? = some x ∧ x.regs.inSink = false :=
  ⟨⟨waitingState [], _, rfl, rfl⟩, ready, _, rfl, rfl⟩

theorem witness_ResetKeepsTheBinding : (∃ (s : State) (x : Decoder), s.decoders[0]? = some x ∧ x.regs.inSink = true) ∧
    ∃ (s : State) (x : Decoder), s.decoders[0]? = some x ∧ x.regs.inSink = false := witness_InitBindsAndResets

theorem witness_StatusReturnsTheRegisters : ready.decoders[0]? = some { regs := bound, feed := none, cause := none } ∧
    (feeding inPayload [0xAA] 0).Feeding 0 (inFeed inPayload [0xAA]) (feedOf [0xAA]) ∧
    inPayload.parseState = 4 ∧ inPayload.inSink = false := ⟨rfl, ⟨rfl, rfl, rfl⟩, rfl, rfl⟩

theorem witness_FeedInErrorReturnsInvalid : ∃ (s : State) (x : Decoder), s.decoders[0]? = some x ∧ x.regs.inSink = false ∧
    x.regs.sinkBound = true ∧ x.regs.parseState = 5 := ⟨idle endOfF14, _, rfl, rfl, rfl, rfl⟩

/-- Both branches: MASK (3) with an empty chunk, and PAYLOAD (4), where even an empty chunk is taken. -/
theorem witness_FeedTakesTheChunk : (∃ (s : State) (x : Decoder), s.decoders[0]? = some x ∧ x.regs.inSink = false ∧
      x.regs.sinkBound = true ∧ x.regs.parseState.toNat ≤ 3) ∧
    ∃ (s : State) (x : Decoder), s.decoders[0]? = some x ∧ x.regs.inSink = false ∧ x.regs.sinkBound = true ∧
      x.regs.parseState.toNat = 4 :=
  ⟨⟨idle { bound with parseState := 3 }, _, rfl, rfl, rfl, by decide⟩, idle inPayload, _, rfl, rfl, rfl, by decide⟩

theorem witness_FeedNeedsASink : ∃ (s : State) (x : Decoder), s.decoders[0]? = some x ∧ x.regs.inSink = false ∧
    x.regs.sinkBound = false := ⟨idle Regs.created, _, rfl, rfl, rfl⟩

/-- Two instances: one in an invocation, the other bound and in none. -/
theorem witness_ReentrantCommandsRefused : ∃ (s : State) (x y : Decoder), s.decoders[0]? = some x ∧ x.regs.inSink = true ∧
    (1 : InstId) ≠ 0 ∧ s.decoders[1]? = some y ∧ y.regs.inSink = false ∧ y.regs.sinkBound = true :=
  ⟨{ State.reset with decoders := [inFeed { inPayload with inSink := true } [0xAA], { regs := bound, feed := none, cause := none }] },
    _, _, rfl, rfl, by decide, rfl, rfl, rfl⟩

theorem witness_ResetIsAFreshInit : ∃ (s t : State) (x : Decoder), s.decoders[0]? = some x ∧ x.regs.sinkBound = true ∧
    exec (.reset 0) s = .next t := ⟨idle endOfF14, _, _, rfl, rfl, rfl⟩

/-! ### The Encoder: the lengths and capacities on both sides of each bound -/

theorem witness_EncUnmaskedWritesLength : (125 : Len).toNat < 126 ∧ (0 : Len).toNat < 1 ∧ 1 ≤ (1 : Len).toNat ∧
    126 ≤ (126 : Len).toNat ∧ (126 : Len).toNat ≤ 0xFFFF ∧ 126 ≤ (0xFFFF : Len).toNat ∧ (0xFFFF : Len).toNat ≤ 0xFFFF ∧
    (2 : Len).toNat < 3 ∧ 3 ≤ (3 : Len).toNat ∧ 0xFFFF < (0x10000 : Len).toNat ∧ (8 : Len).toNat < 9 ∧ 9 ≤ (9 : Len).toNat := by
  decide

theorem witness_EncMaskedWritesLengthAndKey : (125 : Len).toNat < 126 ∧ (4 : Len).toNat < 5 ∧ 5 ≤ (5 : Len).toNat ∧
    126 ≤ (126 : Len).toNat ∧ (0xFFFF : Len).toNat ≤ 0xFFFF ∧ (6 : Len).toNat < 7 ∧ 7 ≤ (7 : Len).toNat ∧
    0xFFFF < (0x10000 : Len).toNat ∧ (12 : Len).toNat < 13 ∧ 13 ≤ (13 : Len).toNat := by decide

/-- Both commands, with a count of 0 and with a positive one. -/
theorem witness_EncoderWritesExactlyItsCount :
    responsesAfter (exec (.encUnmasked 0 0 4) State.reset) = [.count (BitVec.ofNat 64 0)] ∧
    responsesAfter (exec (.encMasked 13 0x10000 4 1) State.reset) = [.count (BitVec.ofNat 64 13)] := by decide

theorem witness_EncoderIsAPureFunction : ∃ i : Instr, i = .encUnmasked 3 126 4 ∨ i = .encMasked 3 126 4 1 := ⟨_, .inl rfl⟩

/-! ### Header bytes -/

/-- An executing FEED with a byte left. -/
theorem witness_feeding (r : Regs) (b : Byte) : (feeding r [b] 0).Feeding 0 (inFeed r [b]) (feedOf [b]) ∧
    (feedOf [b]).p < (feedOf [b]).chunk.length ∧ (feedOf [b]).chunk[(feedOf [b]).p]? = some b :=
  ⟨⟨rfl, rfl, rfl⟩, Nat.one_pos, rfl⟩

theorem witness_AcceptedFirstBytesGoToByte2 : ∃ (s : State) (x : Decoder) (f : Feed), s.Feeding 0 x f ∧ f.p < f.chunk.length :=
  ⟨_, _, _, (witness_feeding bound 0x8A).1, (witness_feeding bound 0x8A).2.1⟩

theorem witness_ReservedBitRowsEndInError : ∃ (s : State) (x : Decoder) (f : Feed), s.Feeding 0 x f ∧ f.p < f.chunk.length :=
  ⟨_, _, _, (witness_feeding bound 0x40).1, (witness_feeding bound 0x40).2.1⟩

theorem witness_ReservedOpcodeRowsEndInError : ∃ (s : State) (x : Decoder) (f : Feed), s.Feeding 0 x f ∧ f.p < f.chunk.length :=
  ⟨_, _, _, (witness_feeding bound 0x0F).1, (witness_feeding bound 0x0F).2.1⟩

/-- The three branches: 0x10 (the least reserved bit), 0x8B, and 0x8A (the greatest accepted byte). -/
theorem witness_StartStepCapturesAndChecks :
    (∃ (s : State) (x : Decoder) (f : Feed), s.Feeding 0 x f ∧ f.chunk[f.p]? = some 0x10#8 ∧ (0x10#8).extractLsb' 4 3 ≠ 0#3) ∧
    (∃ (s : State) (x : Decoder) (f : Feed), s.Feeding 0 x f ∧ f.chunk[f.p]? = some 0x8B#8 ∧ (0x8B#8).extractLsb' 4 3 = 0#3) ∧
    ∃ (s : State) (x : Decoder) (f : Feed), s.Feeding 0 x f ∧ f.chunk[f.p]? = some 0x8A#8 ∧ x.regs.parseState = 0 ∧
      s.nextChunkWrite = none :=
  ⟨⟨_, _, _, (witness_feeding bound 0x10).1, rfl, by decide⟩, ⟨_, _, _, (witness_feeding bound 0x8B).1, rfl, by decide⟩,
    _, _, _, (witness_feeding bound 0x8A).1, rfl, rfl, rfl⟩

theorem witness_ExactlyTwelveFirstBytesAreLegal : ∃ (s : State) (x : Decoder) (f : Feed), s.Feeding 0 x f ∧
    f.chunk[f.p]? = some 0x8A#8 ∧ (∀ e, s.nextChunkWrite ≠ some (e, 0)) ∧ x.regs.parseState = 0 :=
  ⟨_, _, _, (witness_feeding bound 0x8A).1, rfl, State.not_due_of_quiet rfl, rfl⟩

theorem witness_ExtendedLengthRowsSetTheCount : ∃ (s : State) (x : Decoder) (f : Feed), s.Feeding 0 x f ∧ f.p < f.chunk.length :=
  ⟨_, _, _, (witness_feeding inByte2 0x7E).1, (witness_feeding inByte2 0x7E).2.1⟩

theorem witness_LiteralLengthRowSetsTheLength : ∃ (s : State) (x : Decoder) (f : Feed), s.Feeding 0 x f ∧ f.p < f.chunk.length ∧
    (125 : BitVec 7).toNat ≤ 125 :=
  ⟨_, _, _, (witness_feeding inByte2 0x7D).1, (witness_feeding inByte2 0x7D).2.1, by decide⟩

theorem witness_MaskFlagRowsSelectThePhase : ∃ (s : State) (x : Decoder) (f : Feed), s.Feeding 0 x f ∧ f.p < f.chunk.length :=
  ⟨_, _, _, (witness_feeding inByte2 0xFF).1, (witness_feeding inByte2 0xFF).2.1⟩

/-- LEN7 = 125, 126 and 127. -/
theorem witness_Byte2StepReadsTheLengthField (b : Byte) (_ : b = 0xFD ∨ b = 0x7E ∨ b = 0xFF) :
    ∃ (s : State) (x : Decoder) (f : Feed), s.Feeding 0 x f ∧ f.chunk[f.p]? = some b ∧ x.regs.parseState = 1 ∧
      s.nextChunkWrite = none :=
  ⟨_, _, _, (witness_feeding inByte2 b).1, (witness_feeding inByte2 b).2.2, rfl, rfl⟩

/-- The last byte of the field, and an earlier one. -/
theorem witness_ExtLenStepAccumulates (n : BitVec 4) (_ : n = 1 ∨ n = 2) :
    ∃ (s : State) (x : Decoder) (f : Feed), s.Feeding 0 x f ∧ f.chunk[f.p]? = some 0x01#8 ∧ x.regs.parseState = 2 ∧
      x.regs.remainingIntBytes = n ∧ s.nextChunkWrite = none :=
  ⟨_, _, _, (witness_feeding { bound with headerByte2 := 0x7E, parseState := 2, remainingIntBytes := n } 0x01).1, rfl, rfl, rfl, rfl⟩

theorem witness_MaskStepAccumulates (n : BitVec 4) (_ : n = 1 ∨ n = 2) :
    ∃ (s : State) (x : Decoder) (f : Feed), s.Feeding 0 x f ∧ f.chunk[f.p]? = some 0x01#8 ∧ x.regs.parseState = 3 ∧
      x.regs.remainingIntBytes = n ∧ s.nextChunkWrite = none :=
  ⟨_, _, _, (witness_feeding { bound with headerByte2 := 0x85, parseState := 3, remainingIntBytes := n } 0x01).1, rfl, rfl, rfl, rfl⟩

/-- The field may end the chunk. -/
theorem witness_MaskKeyIsBigEndian : ∃ (s : State) (x : Decoder) (f : Feed), s.Feeding 0 x f ∧ s.nextChunkWrite = none ∧ x.regs.parseState = 3 ∧
    x.regs.remainingIntBytes = 4 ∧ x.regs.mask = 0 ∧ f.chunk.drop f.p = [0x37, 0xFA, 0x21, 0x3D] :=
  ⟨feeding { bound with headerByte2 := 0x85, parseState := 3, remainingIntBytes := 4 } [0x37, 0xFA, 0x21, 0x3D] 0,
    _, _, ⟨rfl, rfl, rfl⟩, rfl, rfl, rfl, rfl, rfl⟩

/-- The 2-byte field and the 8-byte field. -/
theorem witness_ExtendedLengthIsBigEndian :
    (∃ (s : State) (x : Decoder) (f : Feed), s.Feeding 0 x f ∧ s.nextChunkWrite = none ∧ x.regs.parseState = 2 ∧ x.regs.expectedLen = 0 ∧
      x.regs.remainingIntBytes = 2 ∧ f.chunk.drop f.p = [0x00, 0x7E, 0xAA]) ∧
    ∃ (s : State) (x : Decoder) (f : Feed), s.Feeding 0 x f ∧ s.nextChunkWrite = none ∧ x.regs.parseState = 2 ∧ x.regs.expectedLen = 0 ∧
      x.regs.remainingIntBytes = 8 ∧ f.chunk.drop f.p = [0, 0, 0, 0, 0, 1, 0, 0, 0xAA] :=
  ⟨⟨feeding { bound with headerByte2 := 0x7E, parseState := 2, remainingIntBytes := 2 } [0x00, 0x7E, 0xAA] 0,
      _, _, ⟨rfl, rfl, rfl⟩, rfl, rfl, rfl, rfl, rfl⟩,
    feeding { bound with headerByte2 := 0x7F, parseState := 2, remainingIntBytes := 8 } [0, 0, 0, 0, 0, 1, 0, 0, 0xAA] 0,
      _, _, ⟨rfl, rfl, rfl⟩, rfl, rfl, rfl, rfl, rfl⟩

/-- BYTE2, EXT_LEN and MASK, lawful. -/
theorem witness_LaterHeaderBytesNeverRejected :
    (∃ (s : State) (x : Decoder) (f : Feed), s.Inv ∧ s.Feeding 0 x f ∧ (∀ e, s.nextChunkWrite ≠ some (e, 0)) ∧ x.regs.parseState = 1) ∧
    (∃ (s : State) (x : Decoder) (f : Feed), s.Inv ∧ s.Feeding 0 x f ∧ (∀ e, s.nextChunkWrite ≠ some (e, 0)) ∧ x.regs.parseState = 2) ∧
    ∃ (s : State) (x : Decoder) (f : Feed), s.Inv ∧ s.Feeding 0 x f ∧ (∀ e, s.nextChunkWrite ≠ some (e, 0)) ∧ x.regs.parseState = 3 :=
  ⟨⟨running inByte2 [0xFF], _, _, inv_of_running inByte2_lawful (by decide) rfl, ⟨rfl, rfl, rfl⟩, State.not_due_of_quiet rfl, rfl⟩,
    ⟨running { inByte2 with headerByte2 := 0x7E, parseState := 2, remainingIntBytes := 1, expectedLen := 255 } [0xFF], _, _,
      inv_of_running (by refine ⟨?_, ?_, ?_, ?_, ?_, ?_, ?_, ?_⟩ <;> decide) (by decide) rfl, ⟨rfl, rfl, rfl⟩, State.not_due_of_quiet rfl, rfl⟩,
    running { inByte2 with headerByte2 := 0x85, parseState := 3, remainingIntBytes := 1, expectedLen := 5 } [0xFF], _, _,
      inv_of_running (by refine ⟨?_, ?_, ?_, ?_, ?_, ?_, ?_, ?_⟩ <;> decide) (by decide) rfl, ⟨rfl, rfl, rfl⟩, State.not_due_of_quiet rfl, rfl⟩

theorem witness_HeaderRowsAgreeWithTheSteps : ∃ (s : State) (x : Decoder) (f : Feed), s.Feeding 0 x f ∧
    f.chunk[f.p]? = some 0xFF#8 := ⟨_, _, _, (witness_feeding bound 0xFF).1, rfl⟩

/-! ### The payload and the sink -/

theorem witness_PayloadStepAsksTheSink : ∃ (s : State) (x : Decoder) (f : Feed), s.Feeding 0 x f ∧ x.regs.inSink = false :=
  ⟨_, _, _, (witness_feeding inPayload 0xAA).1, rfl⟩

/-- Two of three expected bytes left: one less than would complete the frame. -/
theorem witness_PartialOutcomeAdvances : ∃ (s : State) (x : Decoder) (f : Feed), s.Feeding 0 x f ∧ x.regs.inSink = true ∧
    f.answer = some 0 ∧ f.chunk.length - f.p < (x.regs.expectedLen - x.regs.curOffset).toNat ∧
    x.regs.curOffset.toNat ≤ x.regs.expectedLen.toNat :=
  ⟨answered inPayload [0xAA, 0xBB] 0 0, _, _, ⟨rfl, rfl, rfl⟩, rfl, rfl, by decide, by decide⟩

/-- Exactly the expected bytes left, and one more. -/
theorem witness_CompleteOutcomeEndsTheFrame (chunk : List Byte) (_ : chunk = [1, 2, 3] ∨ chunk = [1, 2, 3, 4]) :
    ∃ (s : State) (x : Decoder) (f : Feed), s.Feeding 0 x f ∧ x.regs.inSink = true ∧ f.answer = some 0 ∧
      3 = (x.regs.expectedLen - x.regs.curOffset).toNat ∧ 3 ≤ f.chunk.length - f.p := by
  refine ⟨answered inPayload chunk 0 0, _, _, ⟨rfl, rfl, rfl⟩, rfl, rfl, (by decide : 3 = (inPayload.expectedLen - inPayload.curOffset).toNat), ?_⟩
  rcases ‹_ ∨ _› with rfl | rfl <;> decide

/-- `RES_INVALID` is a rejection too. -/
theorem witness_SinkRejectionPassesThrough : ∃ (s : State) (x : Decoder) (f : Feed), s.Feeding 0 x f ∧ x.regs.inSink = true ∧
    f.answer = some 1 ∧ (1 : Code) ≠ 0 := ⟨answered inPayload [0xAA] 0 1, _, _, ⟨rfl, rfl, rfl⟩, rfl, rfl, by decide⟩

theorem witness_AnAnswerResumesItsFeed : ∃ (s : State) (x : Decoder) (f : Feed), s.running = none ∧
    s.inputs = [.answer 0 0] ∧ s.decoders[0]? = some x ∧ x.feed = some f ∧ x.regs.inSink = true :=
  ⟨waitingState [.answer 0 0], _, _, rfl, rfl, rfl, rfl, rfl⟩

/-- A STATUS during the invocation; and a machine without inputs. -/
theorem witness_OnlyTheAnswerEndsTheWait : (∃ (s t : State) (x : Decoder), s.Inv ∧ s.decoders[0]? = some x ∧
      x.regs.inSink = true ∧ step s = .next t ∧ ∀ code rest, s.running = none → s.inputs ≠ .answer 0 code :: rest) ∧
    State.reset.running = none ∧ State.reset.inputs = [] :=
  ⟨⟨waitingState [.command { op := 0x04 }], _, _, inv_waitingState _, rfl, rfl, rfl, by simp⟩, rfl, rfl⟩

/-- A frame of length 0, a header at the chunk's end, and a byte to hand out. -/
theorem witness_EmptySliceCases :
    (∃ (s : State) (x : Decoder) (f : Feed), s.Inv ∧ s.Feeding 0 x f ∧ (∀ e, s.nextChunkWrite ≠ some (e, 0)) ∧ x.regs.parseState = 4 ∧ x.regs.expectedLen = 0) ∧
    (∃ (s : State) (x : Decoder) (f : Feed), s.Inv ∧ s.Feeding 0 x f ∧ (∀ e, s.nextChunkWrite ≠ some (e, 0)) ∧ x.regs.parseState = 4 ∧ f.p = f.chunk.length) ∧
    ∃ (s : State) (x : Decoder) (f : Feed), s.Inv ∧ s.Feeding 0 x f ∧ (∀ e, s.nextChunkWrite ≠ some (e, 0)) ∧ x.regs.parseState = 4 ∧ f.p < f.chunk.length ∧
      x.regs.curOffset.toNat < x.regs.expectedLen.toNat :=
  ⟨⟨running { bound with headerByte1 := 0x89, parseState := 4 } [0x81], _, _,
      inv_of_running (by refine ⟨?_, ?_, ?_, ?_, ?_, ?_, ?_, ?_⟩ <;> decide) (by decide) rfl,
      ⟨rfl, rfl, rfl⟩, State.not_due_of_quiet rfl, rfl, rfl⟩,
    ⟨running inPayload [], _, _, inv_of_running inPayload_lawful (by decide) rfl, ⟨rfl, rfl, rfl⟩, State.not_due_of_quiet rfl, rfl, rfl⟩,
    running inPayload [0xAA], _, _, inv_of_running inPayload_lawful (by decide) rfl, ⟨rfl, rfl, rfl⟩, State.not_due_of_quiet rfl, rfl, by decide, by decide⟩

/-! ### ERROR and suspension -/

theorem witness_StepErrorReturnsInvalid : ∃ (s : State) (x : Decoder) (f : Feed), s.Feeding 0 x f :=
  ⟨_, _, _, (witness_feeding { bound with parseState := 5 } 0).1⟩

/-- A START step on a byte with a reserved bit. -/
theorem witness_NoStepRunsInError : ∃ (s t : State) (y : Decoder), s.Inv ∧ step s = .next t ∧ t.decoders[0]? = some y ∧
    y.regs.parseState = 5 :=
  ⟨running bound [0xC2], _, _, inv_of_running bound_lawful (by decide) rfl, rfl, rfl, rfl⟩

/-- The greatest byte the opcode check rejects, the least one the reserved bit check rejects, and a sink rejection. -/
theorem witness_ErrorEntryDoesNothingElse :
    (∃ (s t : State) (x y : Decoder), s.Inv ∧ step s = .next t ∧ s.decoders[0]? = some x ∧ t.decoders[0]? = some y ∧
      x.regs.parseState ≠ 5 ∧ y.regs.parseState = 5 ∧ y.cause = some .opcode) ∧
    (∃ (s t : State) (x y : Decoder), s.Inv ∧ step s = .next t ∧ s.decoders[0]? = some x ∧ t.decoders[0]? = some y ∧
      x.regs.parseState ≠ 5 ∧ y.regs.parseState = 5 ∧ y.cause = some .rsv) ∧
    ∃ (s t : State) (x y : Decoder), s.Inv ∧ step s = .next t ∧ s.decoders[0]? = some x ∧ t.decoders[0]? = some y ∧
      x.regs.parseState ≠ 5 ∧ y.regs.parseState = 5 ∧ y.cause = some .sink :=
  ⟨⟨running bound [0x8F], _, _, _, inv_of_running bound_lawful (by decide) rfl, rfl, rfl, rfl, by decide, rfl, rfl⟩,
    ⟨running bound [0x10], _, _, _, inv_of_running bound_lawful (by decide) rfl, rfl, rfl, rfl, by decide, rfl, rfl⟩,
    waitingState [.answer 0 1], _, _, _, inv_waitingState _, rfl, rfl, rfl, by decide, rfl, rfl⟩

/-- A FEED in ERROR, and a RESET. -/
theorem witness_ErrorIsTerminalForFeed :
    (∃ (s t : State) (x : Decoder), s.Inv ∧ step s = .next t ∧ s.decoders[0]? = some x ∧ x.regs.parseState = 5 ∧
      t.decoders[0]? = some x) ∧
    ∃ (s t : State) (x y : Decoder), s.Inv ∧ step s = .next t ∧ s.decoders[0]? = some x ∧ x.regs.parseState = 5 ∧
      t.decoders[0]? = some y ∧ y.regs.parseState = 0 :=
  ⟨⟨inError [.command { op := 0x02 }], _, _, inv_inError _, rfl, rfl, rfl, rfl⟩,
    inError [.command { op := 0x03 }], _, _, _, inv_inError _, rfl, rfl, rfl, rfl, rfl⟩

/-- The chunk's last byte in a header step; and a bound instance in MASK. -/
theorem witness_SuspendAndResume :
    (∃ (s t : State) (x y : Decoder) (f : Feed), s.Feeding 0 x f ∧ (∀ e, s.nextChunkWrite ≠ some (e, 0)) ∧
      x.regs.parseState.toNat ≤ 3 ∧ f.p + 1 = f.chunk.length ∧ step s = .next t ∧ t.decoders[0]? = some y ∧ y.regs.parseState.toNat ≤ 3) ∧
    ∃ (s : State) (x : Decoder), s.decoders[0]? = some x ∧ x.regs.inSink = false ∧ x.regs.sinkBound = true ∧
      x.regs.parseState.toNat = 3 ∧ s.nextChunkWrite = none :=
  ⟨⟨feeding bound [0x81] 0, _, _, _, _, ⟨rfl, rfl, rfl⟩, State.not_due_of_quiet rfl, by decide, rfl, rfl, rfl, by decide⟩,
    idle { bound with parseState := 3 }, _, rfl, rfl, rfl, by decide, rfl⟩

/-! ### Frames -/

/-- Two instances; a parse step of the first. -/
theorem witness_OtherInstancesUnchanged : ∃ s t : State, exec .stepStart s = .next t ∧ instrTarget .stepStart s ≠ some 1 ∧
    s.decoders.length = 2 :=
  ⟨{ State.reset with decoders := [inFeed bound [0x81], Decoder.created], running := some 0 }, _, rfl, by decide, rfl⟩

theorem witness_OnlyTheEncoderStores : ∃ s t : State, exec .stepPayload s = .next t ∧
    ∀ cap pl, (.stepPayload : Instr) ≠ .encUnmasked cap pl 4 ∧ ∀ k, (.stepPayload : Instr) ≠ .encMasked cap pl 4 k :=
  ⟨feeding inPayload [0xAA] 0, _, rfl, by simp⟩

theorem witness_OnlyInitWritesTheBinding : ∃ (s t : State) (x : Decoder), exec (.reset 0) s = .next t ∧
    (∀ d ctx, (.reset 0 : Instr) ≠ .init d ctx) ∧ s.decoders[0]? = some x := ⟨idle endOfF14, _, _, rfl, by simp, rfl⟩

/-- A MASK step: none of INIT, RESET, START, BYTE2, EXT_LEN, PAYLOAD and their rows. -/
theorem witness_RegistersWrittenByTheirStepsOnly : ∃ (s t : State) (x y : Decoder), exec .stepMask s = .next t ∧
    (∀ e ctx, (.stepMask : Instr) ≠ .init e ctx) ∧ (∀ e, (.stepMask : Instr) ≠ .reset e) ∧ s.decoders[0]? = some x ∧
    t.decoders[0]? = some y ∧ (.stepMask : Instr).wf = true ∧ (∀ m l, (.stepMask : Instr) ≠ .hdr2Len7Literal m l) ∧
    (∀ b, (.stepMask : Instr) ≠ decodeHeader1 b) ∧
    ∀ b, (.stepMask : Instr) ≠ decodeHeader2Length b ∧ (.stepMask : Instr) ≠ decodeHeader2Mask b :=
  ⟨feeding { bound with headerByte2 := 0x85, parseState := 3, remainingIntBytes := 2 } [0x21] 0, _, _, _, rfl, by simp, by simp,
    rfl, rfl, rfl, by simp, by decide, by decide⟩

theorem witness_CommandsToDifferentInstancesCommute : ∃ s s1 s2 : State, (0 : InstId) ≠ 1 ∧ exec (.init 0 7) s = .next s1 ∧
    exec (.reset 1) s = .next s2 := ⟨{ State.reset with decoders := [Decoder.created, Decoder.created] }, _, _, by decide, rfl, rfl⟩

theorem witness_ParseStepsNeedAFeed : State.reset.running = none ∧ instrTarget .stepStart State.reset = none ∧
    ∀ cap pl b, (.stepStart : Instr) ≠ .encUnmasked cap pl b ∧ ∀ k, (.stepStart : Instr) ≠ .encMasked cap pl b k :=
  ⟨rfl, rfl, by simp⟩

/-! ### The machine -/

/-- An executing FEED in every state of R27 and in the codes 6 and 7; and a command. -/
theorem witness_StepRunsTheDecodedInstruction :
    (∀ ps : BitVec 3, ∃ (s : State) (x : Decoder), s.running = some 0 ∧ s.decoders[0]? = some x ∧
      (∀ e, s.nextChunkWrite ≠ some (e, 0)) ∧ x.regs.parseState = ps) ∧
    (∃ s : State, s.nextChunkWrite = none) ∧ (∃ s : State, s.inputs = [.chunkWrite 0 3]) ∧
    ∃ (s : State) (c : RawCommand) (i : Instr), s.running = none ∧ s.inputs = [.command c] ∧ decode (.command c) = .instr i :=
  ⟨fun ps => ⟨feeding { bound with parseState := ps } [0] 0, _, rfl, rfl, State.not_due_of_quiet rfl, rfl⟩, ⟨State.reset, rfl⟩,
    ⟨{ State.reset with inputs := [.chunkWrite 0 3] }, rfl⟩, { State.reset with inputs := [.command { op := 0x11 }] }, _, _, rfl, rfl, rfl⟩

theorem witness_UnknownCommandCodesRefused : ∃ (s : State) (c : RawCommand), s.running = none ∧ s.inputs = [.command c] ∧
    c.op ∉ [0x01#8, 0x02#8, 0x03#8, 0x04#8, 0x10#8, 0x11#8] :=
  ⟨{ State.reset with inputs := [.command { op := 0x05 }] }, _, rfl, rfl, by decide⟩

/-- A chunk in use, and one whose FEED has returned. -/
theorem witness_ChunkMustNotChange :
    (∃ (s : State) (x : Decoder) (f : Feed), s.inputs = [.chunkWrite 0 7] ∧ s.decoders[0]? = some x ∧ s.running = none ∧
      x.feed = some f) ∧
    (∃ (s : State) (x : Decoder) (f : Feed), s.inputs = [.chunkWrite 0 0] ∧ s.decoders[0]? = some x ∧ s.running = some 0 ∧
      x.feed = some f) ∧
    (∃ (s : State) (x : Decoder), s.inputs = [.chunkWrite 0 0] ∧ s.decoders[0]? = some x ∧ s.running = none ∧ x.feed = none) ∧
    ∃ (s t : State) (y : Decoder) (f : Feed), s.inputs = [.chunkWrite 0 1] ∧ stepMany 1 s = some t ∧
      (∀ j u, j < 1 → stepMany j s = some u → u.running = some 0) ∧ t.decoders[0]? = some y ∧ y.feed = some f :=
  ⟨⟨waitingState [.chunkWrite 0 7], _, _, rfl, rfl, rfl, rfl⟩,
    ⟨{ feeding bound [0x81, 0x05] 0 with inputs := [.chunkWrite 0 0] }, _, _, rfl, rfl, rfl, rfl⟩,
    ⟨{ idle bound with inputs := [.chunkWrite 0 0] }, _, rfl, rfl, rfl, rfl⟩,
    { feeding bound [0x81, 0x05] 0 with inputs := [.chunkWrite 0 1] }, _, _, _, rfl, rfl, by
      intro j u hj h
      obtain rfl : j = 0 := by omega
      obtain rfl := Option.some.inj h
      rfl, rfl, rfl⟩

theorem witness_EveryStepKeepsInv : ∃ s t : State, s.Inv ∧ step s = .next t :=
  ⟨running inPayload [0xAA, 0xBB, 0xCC], _, inv_of_running inPayload_lawful (by decide) rfl, rfl⟩

theorem witness_LawfulStatesNeverFault : ∃ s : State, s.Inv ∧ s.running = some 0 :=
  ⟨running inByte2 [0xFF], inv_of_running inByte2_lawful (by decide) rfl, rfl⟩

theorem witness_DecodeInvertsEncode : (Instr.hdr2Len7Literal true 125).wf = true ∧
    (Instr.hdr1Rsv3Set true false false 0xF).wf = true ∧ (Instr.feed 0 [0x81, 0x00]).wf = true :=
  ⟨by decide, by decide, by simp [Instr.wf, instOk, Config.numInstances]⟩

theorem witness_FeedSplitKeepsTheBytes : 1 ≤ 1 := Nat.le_refl 1

/-! ### Whole FEEDs -/

theorem witness_FeedsEnd : ∃ (s : State) (x : Decoder), s.Inv ∧ s.running = none ∧ s.nextChunkWrite = none ∧
    s.decoders[0]? = some x ∧ x.feed = none ∧ x.regs.sinkBound = true := ⟨ready, _, ready_ready.1, rfl, rfl, rfl, rfl, rfl⟩

/-- An empty ping in one chunk: one frame of two bytes. -/
theorem witness_FramesPerChunkBounded : ∃ run : FeedRun, ready.readyFor 0 ∧
    deliver (fun _ => 0) 0 ready [0x89, 0x00] = some run := ⟨_, ready_ready, rfl⟩

theorem witness_ChunkBoundariesDoNotMatter : ready.readyFor 0 ∧ [[0x89#8], [], [0x00#8]].flatten = [[0x89#8, 0x00#8]].flatten :=
  ⟨ready_ready, rfl⟩

theorem witness_SlicesFollowInOrder : ∃ (t : State) (x : Decoder), ready.readyFor 0 ∧ ready.decoders[0]? = some x ∧
    deliverAll 0 ready [[0x89, 0x00]] = some t := ⟨_, _, ready_ready, rfl, rfl⟩

/-- The masked frame of one byte that W6 lists: `[82] ++ [81 37 FA 21 3D] ++ [41]`. -/
theorem witness_EncodedFramesRoundTrip : ∃ (t0 : State) (x : Decoder), ready.readyFor 0 ∧ ready.decoders[0]? = some x ∧
    x.regs.parseState = 0 ∧ 0x82#8 ∈ [0x00#8, 0x01#8, 0x02#8, 0x08#8, 0x09#8, 0x0A#8, 0x80#8, 0x81#8, 0x82#8, 0x88#8, 0x89#8, 0x8A#8] ∧
    exec (.encMasked 13 1 4 0x37FA213D) State.reset = .next t0 ∧ 0 < [0x81#8, 0x37#8, 0xFA#8, 0x21#8, 0x3D#8].length ∧
    t0.responses = State.reset.responses ++ [.count (BitVec.ofNat 64 [0x81#8, 0x37#8, 0xFA#8, 0x21#8, 0x3D#8].length)] ∧
    [0x81#8, 0x37#8, 0xFA#8, 0x21#8, 0x3D#8].length ≤ 13 ∧
    (∀ j, j < [0x81#8, 0x37#8, 0xFA#8, 0x21#8, 0x3D#8].length → t0.bufRead 4 j = [0x81#8, 0x37#8, 0xFA#8, 0x21#8, 0x3D#8][j]?) ∧
    [0x41#8].length = (1 : Len).toNat ∧
    [[0x82#8], [0x81#8, 0x37#8, 0xFA#8, 0x21#8, 0x3D#8, 0x41#8]].flatten =
      0x82#8 :: [0x81#8, 0x37#8, 0xFA#8, 0x21#8, 0x3D#8] ++ [0x41#8] :=
  ⟨_, _, ready_ready, rfl, rfl, by decide, rfl, by decide, rfl, by decide, by decide, rfl, rfl⟩

end Sys2Proof.Tests
end

/-! # The state: what one instruction and one step leave of a decoder (spec/10_state.md) -/

section

namespace Sys2Proof.Machine

/-! ## The decoders after one instruction -/

/-- A decoder that is not the touched one is as before. -/
theorem Touched.getElem?_other {s t : State} {d e : InstId} {y : Decoder} (h : Touched s d y t) (hne : e ≠ d) :
    t.decoders[e]? = s.decoders[e]? := by
  rw [h.decoders, List.getElem?_set_ne hne.symm]

/-- The touched decoder is in its new state. -/
theorem Touched.getElem?_same {s t : State} {d : InstId} {x y : Decoder} (h : Touched s d y t)
    (hx : s.decoders[d]? = some x) : t.decoders[d]? = some y := by
  rw [h.decoders, List.getElem?_set_self (List.getElem?_eq_some_iff.mp hx).1]

/-- The Encoder leaves every decoder as it was. -/
@[simp] theorem State.emit_decoders (s : State) (cap : Len) (buf : BufferRef) (n : Nat) (bytes : List Byte) :
    (s.emit cap buf n bytes).decoders = s.decoders := by
  unfold State.emit
  split <;> rfl

/-- The number of decoders never changes (R40). -/
theorem exec_decoders_length {i : Instr} {s t : State} (h : exec i s = .next t) :
    t.decoders.length = s.decoders.length := by
  rcases exec_cases h with ⟨_, _, _, _, _, _, _, rfl⟩ | ⟨_, _, _, _, _, ht, _⟩
  · rw [State.emit_decoders]
  · rw [ht.decoders, List.length_set]

/-- A decoder the instruction does not act on is as before (R40). -/
theorem exec_other {i : Instr} {s t : State} {e : InstId} (h : exec i s = .next t) (hne : instrTarget i s ≠ some e) :
    t.decoders[e]? = s.decoders[e]? := by
  rcases exec_cases h with ⟨_, _, _, _, _, _, _, rfl⟩ | ⟨d, _, _, hd, _, ht, _⟩
  · rw [State.emit_decoders]
  · exact ht.getElem?_other fun hed => hne (hed ▸ hd)

/-- The decoder the instruction acts on has its registers changed in one of the instruction's ways. -/
theorem exec_target {i : Instr} {s t : State} {d : InstId} {x : Decoder} (h : exec i s = .next t)
    (hd : instrTarget i s = some d) (hx : s.decoders[d]? = some x) :
    ∃ y, t.decoders[d]? = some y ∧ RegsChange i x.regs y.regs := by
  rcases exec_cases h with ⟨_, _, _, _, _, _, rfl | rfl, _⟩ | ⟨e, x', y, he, hx', ht, hc⟩
  · cases hd
  · cases hd
  · obtain rfl : e = d := Option.some.inj (he.symm.trans hd)
    obtain rfl : x' = x := Option.some.inj (hx'.symm.trans hx)
    exact ⟨y, ht.getElem?_same hx, hc⟩

/-! ## Which registers an instruction writes

`encode` tells the header rows from the rest by the raw form they spell. -/

/-- The instructions that consume a first header byte: START and the rows that spell one (R82 to R84). -/
def readsHeader1 (i : Instr) : Prop := i = .stepStart ∨ ∃ b, encode i = .header1 b

/-- The instructions that consume a second header byte: BYTE2 and the rows that spell one (R76 to R78). -/
def readsHeader2 (i : Instr) : Prop := i = .stepByte2 ∨ ∃ b, encode i = .header2Length b ∨ encode i = .header2Mask b

/-- The table of R21 to R29 and R34: the registers each kind of instruction writes, the others being as they were. -/
inductive RegsWrite (i : Instr) (r : Regs) : Regs → Prop where
  | kept : RegsWrite i r r
  | init {d : InstId} {ctx : SinkCtx} (hi : i = .init d ctx) :
      RegsWrite i r { r.clear with sinkBound := true, sinkCtx := ctx }
  | reset {d : InstId} (hi : i = .reset d) : RegsWrite i r r.clear
  | header1 {b : Byte} {ps : BitVec 3} (hi : readsHeader1 i) :
      RegsWrite i r { r with headerByte1 := b, parseState := ps }
  | header2 {b : Byte} {len : Len} {n : BitVec 4} {ps : BitVec 3} (hi : readsHeader2 i) :
      RegsWrite i r { r with headerByte2 := b, expectedLen := len, remainingIntBytes := n, parseState := ps }
  | extLen {len : Len} {n : BitVec 4} {ps : BitVec 3} (hi : i = .stepExtLen) :
      RegsWrite i r { r with expectedLen := len, remainingIntBytes := n, parseState := ps }
  | mask {key : Key} {n : BitVec 4} {ps : BitVec 3} (hi : i = .stepMask) :
      RegsWrite i r { r with mask := key, remainingIntBytes := n, parseState := ps }
  | payload {off len : Len} {key : Key} {ps : BitVec 3} {busy : Bool} (hi : i = .stepPayload) :
      RegsWrite i r { r with curOffset := off, expectedLen := len, mask := key, parseState := ps, inSink := busy }

/-- A first header byte's changes are in the table (R121 to R123). -/
theorem Header1Change.write {i : Instr} {r r' : Regs} (h : Header1Change r r') (hi : readsHeader1 i) : RegsWrite i r r' := by
  obtain rfl | ⟨b, ps, rfl⟩ := h
  · exact .kept
  · exact .header1 hi

/-- A second header byte's changes are in the table (R124, R125). -/
theorem Header2Change.write {i : Instr} {r r' : Regs} (h : Header2Change r r') (hi : readsHeader2 i) : RegsWrite i r r' := by
  obtain rfl | ⟨b, rfl⟩ := h
  · exact .kept
  · unfold byte2Step afterLength
    simp only
    split_ifs <;> exact .header2 hi

/-- An extended length byte's changes are in the table (R127, R128). -/
theorem extLenStep_write (b : Byte) (r : Regs) : RegsWrite .stepExtLen r (extLenStep b r) := by
  unfold extLenStep afterLength
  simp only
  split_ifs <;> exact .extLen rfl

/-- A mask key byte's changes are in the table (R129, R130). -/
theorem maskStep_write (b : Byte) (r : Regs) : RegsWrite .stepMask r (maskStep b r) := by
  unfold maskStep
  simp only
  split_ifs <;> exact .mask rfl

/-- A PAYLOAD step's changes are in the table (R131 to R135). -/
theorem PayloadChange.write {r r' : Regs} (h : PayloadChange r r') : RegsWrite .stepPayload r r' := by
  obtain rfl | rfl | rfl | ⟨k, rfl⟩ | rfl := h
  · exact .kept
  all_goals exact .payload rfl

/-- Every change an instruction can make is in the table. -/
theorem RegsChange.write {i : Instr} {r r' : Regs} (h : RegsChange i r r') : RegsWrite i r r' := by
  cases i
  case feed => cases h; exact .kept
  case status => cases h; exact .kept
  case stepError => cases h; exact .kept
  case encUnmasked => exact h.elim
  case encMasked => exact h.elim
  case init => cases h; exact .init rfl
  case reset => cases h; exact .reset rfl
  case stepStart => exact Header1Change.write h (.inl rfl)
  case stepByte2 => exact Header2Change.write h (.inl rfl)
  case stepExtLen =>
    obtain rfl | ⟨b, rfl⟩ := h
    · exact .kept
    · exact extLenStep_write b r
  case stepMask =>
    obtain rfl | ⟨b, rfl⟩ := h
    · exact .kept
    · exact maskStep_write b r
  case stepPayload => exact PayloadChange.write h
  case hdr2Len16 => exact Header2Change.write h (.inr ⟨_, .inl rfl⟩)
  case hdr2Len64 => exact Header2Change.write h (.inr ⟨_, .inl rfl⟩)
  case hdr2Len7Literal => exact Header2Change.write h (.inr ⟨_, .inl rfl⟩)
  case hdr2Masked => exact Header2Change.write h (.inr ⟨_, .inr rfl⟩)
  case hdr2Unmasked => exact Header2Change.write h (.inr ⟨_, .inr rfl⟩)
  all_goals exact Header1Change.write h (.inr ⟨_, rfl⟩)

/-- Whatever the instruction, the registers of every decoder are written by the table. -/
theorem exec_write {i : Instr} {s t : State} {d : InstId} {x : Decoder} (h : exec i s = .next t)
    (hx : s.decoders[d]? = some x) : ∃ y, t.decoders[d]? = some y ∧ RegsWrite i x.regs y.regs := by
  by_cases hd : instrTarget i s = some d
  · obtain ⟨y, hy, hc⟩ := exec_target h hd hx
    exact ⟨y, hy, hc.write⟩
  · exact ⟨x, (exec_other h hd).trans hx, .kept⟩

/-! ### Header rows and their bytes -/

/-- A well-formed first-byte row is the row of the byte it spells (R82 to R84). -/
theorem decodeHeader1_of_encode {i : Instr} {b : Byte} (h : encode i = .header1 b) (hw : i.wf = true) :
    decodeHeader1 b = i := by
  cases i <;> cases h
  case hdr1Rsv1Set fin rsv2 rsv3 op => revert fin rsv2 rsv3 op; decide
  case hdr1Rsv2Set fin rsv1 rsv3 op => revert fin rsv1 rsv3 op; decide
  case hdr1Rsv3Set fin rsv1 rsv2 op => revert fin rsv1 rsv2 op; decide
  case hdr1Reserved4To7 fin low => revert fin low; decide
  case hdr1ReservedCToF fin low => revert fin low; decide
  all_goals rename_i fin; revert fin; decide

/-- A length row is the row of the byte it spells, except that LEN7 = 126 and 127 are no literal length (R124). -/
theorem decodeHeader2Length_of_encode {i : Instr} {b : Byte} (h : encode i = .header2Length b) :
    decodeHeader2Length b = i ∨ ∃ m l, i = .hdr2Len7Literal m l := by
  cases i <;> cases h
  case hdr2Len16 m => left; simp [decodeHeader2Length]
  case hdr2Len64 m => left; simp [decodeHeader2Length]
  case hdr2Len7Literal m l => exact .inr ⟨m, l, rfl⟩

/-- A mask row is the row of the byte it spells (R78). -/
theorem decodeHeader2Mask_of_encode {i : Instr} {b : Byte} (h : encode i = .header2Mask b) : decodeHeader2Mask b = i := by
  cases i <;> cases h
  case hdr2Masked l => simp [decodeHeader2Mask]
  case hdr2Unmasked l => simp [decodeHeader2Mask]

/-- Of the well-formed instructions, START and the decoder's first-byte rows consume a first header byte. -/
theorem not_readsHeader1 {i : Instr} (hs : i ≠ .stepStart) (hrow : ∀ b, i ≠ decodeHeader1 b) (hw : i.wf = true) :
    ¬ readsHeader1 i := by
  rintro (hi | ⟨b, hb⟩)
  · exact hs hi
  · exact hrow b (decodeHeader1_of_encode hb hw).symm

/-- BYTE2, the decoder's second-byte rows and the literal length rows consume a second header byte. -/
theorem not_readsHeader2 {i : Instr} (hs : i ≠ .stepByte2)
    (hrow : ∀ b, i ≠ decodeHeader2Length b ∧ i ≠ decodeHeader2Mask b) (hlit : ∀ m l, i ≠ .hdr2Len7Literal m l) :
    ¬ readsHeader2 i := by
  rintro (hi | ⟨b, hb | hb⟩)
  · exact hs hi
  · rcases decodeHeader2Length_of_encode hb with hi | ⟨m, l, hi⟩
    · exact (hrow b).1 hi.symm
    · exact hlit m l hi
  · exact (hrow b).2 (decodeHeader2Mask_of_encode hb).symm

/-! ### What each register is written by -/

/-- R21: only INIT writes the sink binding. -/
theorem RegsWrite.binding_kept {i : Instr} {r r' : Regs} (h : RegsWrite i r r') (hinit : ∀ d ctx, i ≠ .init d ctx) :
    r'.sinkBound = r.sinkBound ∧ r'.sinkCtx = r.sinkCtx := by
  cases h with
  | init hi => exact absurd hi (hinit _ _)
  | _ => exact ⟨rfl, rfl⟩

section FrameRegisters

variable {i : Instr} {r r' : Regs} (h : RegsWrite i r r') (hinit : ∀ d ctx, i ≠ .init d ctx) (hreset : ∀ d, i ≠ .reset d)

include h hinit hreset

/-- R22. -/
theorem RegsWrite.curOffset_kept (hp : i ≠ .stepPayload) : r'.curOffset = r.curOffset := by
  cases h with
  | init hi => exact absurd hi (hinit _ _)
  | reset hi => exact absurd hi (hreset _)
  | payload hi => exact absurd hi hp
  | _ => rfl

/-- R24. -/
theorem RegsWrite.mask_kept (hp : i ≠ .stepPayload) (hm : i ≠ .stepMask) : r'.mask = r.mask := by
  cases h with
  | init hi => exact absurd hi (hinit _ _)
  | reset hi => exact absurd hi (hreset _)
  | payload hi => exact absurd hi hp
  | mask hi => exact absurd hi hm
  | _ => rfl

/-- R23. -/
theorem RegsWrite.expectedLen_kept (hp : i ≠ .stepPayload) (he : i ≠ .stepExtLen) (h2 : ¬ readsHeader2 i) :
    r'.expectedLen = r.expectedLen := by
  cases h with
  | init hi => exact absurd hi (hinit _ _)
  | reset hi => exact absurd hi (hreset _)
  | payload hi => exact absurd hi hp
  | extLen hi => exact absurd hi he
  | header2 hi => exact absurd hi h2
  | _ => rfl

/-- R25. -/
theorem RegsWrite.headerByte1_kept (h1 : ¬ readsHeader1 i) :
    r'.headerByte1 = r.headerByte1 := by
  cases h with
  | init hi => exact absurd hi (hinit _ _)
  | reset hi => exact absurd hi (hreset _)
  | header1 hi => exact absurd hi h1
  | _ => rfl

/-- R26. -/
theorem RegsWrite.headerByte2_kept (h2 : ¬ readsHeader2 i) :
    r'.headerByte2 = r.headerByte2 := by
  cases h with
  | init hi => exact absurd hi (hinit _ _)
  | reset hi => exact absurd hi (hreset _)
  | header2 hi => exact absurd hi h2
  | _ => rfl

/-- R28. -/
theorem RegsWrite.remainingIntBytes_kept (he : i ≠ .stepExtLen) (hm : i ≠ .stepMask) (h2 : ¬ readsHeader2 i) :
    r'.remainingIntBytes = r.remainingIntBytes := by
  cases h with
  | init hi => exact absurd hi (hinit _ _)
  | reset hi => exact absurd hi (hreset _)
  | extLen hi => exact absurd hi he
  | mask hi => exact absurd hi hm
  | header2 hi => exact absurd hi h2
  | _ => rfl

end FrameRegisters

/-! ## FEED and STATUS on a decoder -/

/-- What FEED can do (R101 to R103, R106): on a bound decoder it answers at once in ERROR, and otherwise the loop begins. -/
theorem exec_feed_next {s t : State} {d : InstId} {chunk : List Byte} :
    exec (.feed d chunk) s = .next t ↔
      ∃ x, s.decoders[d]? = some x ∧ x.regs.inSink = false ∧ x.regs.sinkBound = true ∧
        t = if x.regs.parseState = psError then s.respond (.result d resInvalid)
          else s.resume d x { chunk := chunk, p := 0, answer := none } := by
  refine State.withIdle_next.trans (exists_congr fun x => and_congr_right fun _ => and_congr_right fun _ => ?_)
  cases x.regs.sinkBound with
  | false => simp
  | true => by_cases he : x.regs.parseState = psError <;> simp [he, eq_comm]

/-- FEED on an idle decoder never INITed is refused (R103). -/
theorem exec_feed_unbound {s : State} {d : InstId} {x : Decoder} (hx : s.decoders[d]? = some x)
    (hi : x.regs.inSink = false) (hb : x.regs.sinkBound = false) (chunk : List Byte) :
    exec (.feed d chunk) s = .refused (.noSink d) :=
  (State.withIdle_idle hx hi _).trans (by simp [hb])

/-- FEED on a decoder in ERROR leaves every decoder as it was (R36, R102). -/
theorem exec_feed_inError {s t : State} {d : InstId} {chunk : List Byte} {x : Decoder}
    (h : exec (.feed d chunk) s = .next t) (hx : s.decoders[d]? = some x) (he : x.regs.parseState = psError) :
    t.decoders = s.decoders := by
  obtain ⟨x', hx', -, -, rfl⟩ := exec_feed_next.mp h
  obtain rfl : x' = x := Option.some.inj (hx'.symm.trans hx)
  simp [he]

/-- STATUS has no side effect on any decoder (R105). -/
theorem exec_status_decoders {s t : State} {d : InstId} (h : exec (.status d) s = .next t) :
    t.decoders = s.decoders := by
  change execStatus d s = .next t at h
  unfold execStatus at h
  split at h
  · cases h
  · cases h; rfl

/-! ## A decoder in ERROR (R36) -/

/-- No FEED of a lawful machine is in progress on a decoder in ERROR (R138). -/
theorem State.Inv.no_feed_in_error {s : State} (hs : s.Inv) {d : InstId} {x : Decoder} (hx : s.decoders[d]? = some x)
    (he : x.regs.parseState = psError) : x.feed = none := by
  obtain ⟨-, -, -, hfeed⟩ := hs.lawful d x hx
  cases hf : x.feed with
  | none => rfl
  | some f =>
    obtain ⟨-, -, -, -, hne, -⟩ := hfeed f hf
    exact absurd he hne

/-- A decoder in ERROR is another one than that of a FEED in progress. -/
theorem State.Inv.ne_of_feed {s : State} (hs : s.Inv) {d e : InstId} {x y : Decoder} {f : Feed}
    (hx : s.decoders[d]? = some x) (he : x.regs.parseState = psError) (hy : s.decoders[e]? = some y)
    (hf : y.feed = some f) : d ≠ e := by
  rintro rfl
  obtain rfl : x = y := Option.some.inj (hx.symm.trans hy)
  cases (hs.no_feed_in_error hx he).symm.trans hf

/-- A parse step acts on the executing decoder. -/
theorem instrTarget_of_decodeStep {code : BitVec 3} {i : Instr} (h : decodeStep code = .instr i) (s : State) :
    instrTarget i s = s.running := by
  rcases decodeStep_cases h with ⟨-, rfl⟩ | ⟨-, rfl⟩ | ⟨-, rfl⟩ | ⟨-, rfl⟩ | ⟨-, rfl⟩ | ⟨-, rfl⟩ <;> rfl

/-- A command acts on its operand `inst`, or on no decoder. -/
theorem instrTarget_of_decodeCommand {c : RawCommand} {i : Instr} (h : decodeCommand c = .instr i) (s : State)
    {d : InstId} (hd : instrTarget i s = some d) : c.inst = d := by
  rcases decodeCommand_cases h with ⟨-, rfl⟩ | ⟨-, -, rfl⟩ | ⟨-, rfl⟩ | ⟨-, rfl⟩ | ⟨-, rfl⟩ | ⟨-, rfl⟩ <;> cases hd <;> rfl

/-- A command leaves a decoder in ERROR as it is, unless it is an INIT or a RESET of it, which gives START. -/
theorem exec_command_inError {c : RawCommand} {i : Instr} {s t : State} {d : InstId} {x : Decoder}
    (hc : decodeCommand c = .instr i) (h : exec i s = .next t) (hx : s.decoders[d]? = some x)
    (he : x.regs.parseState = psError) :
    t.decoders[d]? = some x ∨
      c.inst = d ∧ (c.op = 0x01 ∨ c.op = 0x03) ∧ ∃ y, t.decoders[d]? = some y ∧ y.regs.parseState = psStart := by
  by_cases hd : instrTarget i s = some d
  · obtain rfl := instrTarget_of_decodeCommand hc s hd
    rcases decodeCommand_cases hc with ⟨hop, rfl⟩ | ⟨-, -, rfl⟩ | ⟨hop, rfl⟩ | ⟨-, rfl⟩ | ⟨-, rfl⟩ | ⟨-, rfl⟩
    · obtain ⟨y, hy, hr⟩ := exec_target h hd hx
      exact .inr ⟨rfl, .inl hop, y, hy, congrArg Regs.parseState hr⟩
    · exact .inl (by rw [exec_feed_inError h hx he, hx])
    · obtain ⟨y, hy, hr⟩ := exec_target h hd hx
      exact .inr ⟨rfl, .inr hop, y, hy, congrArg Regs.parseState hr⟩
    · exact .inl (by rw [exec_status_decoders h, hx])
    · cases hd
    · cases hd
  · exact .inl ((exec_other h hd).trans hx)

/-! ## The reset state (R38, R39) -/

/-- Every decoder of the reset state is a created one. -/
theorem State.reset_decoder {d : InstId} (hd : d < Config.numInstances) :
    State.reset.decoders[d]? = some Decoder.created :=
  List.getElem?_replicate_of_lt hd

/-- A decoder of the reset state is a created one. -/
theorem State.reset_decoder_eq {d : InstId} {x : Decoder} (hx : State.reset.decoders[d]? = some x) :
    x = Decoder.created :=
  List.eq_of_mem_replicate (List.mem_of_getElem? hx)

/-- A created decoder is lawful: START, in no FEED, no error. -/
theorem Decoder.lawful_created : Decoder.created.lawful :=
  ⟨Regs.lawful_created, by decide, fun _ => by decide, fun _ hf => nomatch hf⟩

/-! ## The obligations -/

/-- Settles O39: a FEED in progress is never on a decoder in ERROR, so its parse steps and its sink's answers touch
another decoder, and of the commands on a decoder in ERROR only INIT and RESET write it. -/
theorem errorIsTerminalForFeed : Obligations.ErrorIsTerminalForFeed := by
  intro s t d x hs h hx he
  rcases step_cases h with ⟨e, _, i, hrun, -, hi, ht⟩ | ⟨-, -, rfl⟩ | ⟨c, rest, i, hrun, hin, hc, ht⟩ |
    ⟨e, code, rest, y, f, -, -, hy, hf, -, rfl⟩ | ⟨_, _, _, -, -, -, rfl⟩
  · obtain ⟨y, f, hy, hf, -⟩ := hs.executing e hrun
    have hne : instrTarget i s.tick ≠ some d := by
      rw [instrTarget_of_decodeStep hi, State.tick_running, hrun]
      exact fun hed => hs.ne_of_feed hx he hy hf (Option.some.inj hed).symm
    exact .inl ((exec_other ht hne).trans hx)
  · exact .inl hx
  · exact (exec_command_inError hc ht hx he).imp_right fun ⟨hd, hop, hy⟩ => ⟨c, rest, hrun, hin, hd, hop, hy⟩
  · obtain ⟨_, htouch, -⟩ := State.sinkAnswered_touched { s with inputs := rest } e y f code
    exact .inl ((htouch.getElem?_other (hs.ne_of_feed hx he hy hf)).trans hx)
  · exact .inl hx

/-- Settles O41: an instruction touches its target at most. -/
theorem otherInstancesUnchanged : Obligations.OtherInstancesUnchanged :=
  fun _ _ _ h => ⟨exec_decoders_length h, fun _ hne => exec_other h hne⟩

/-- Settles O43, from the table of what each instruction writes. -/
theorem onlyInitWritesTheBinding : Obligations.OnlyInitWritesTheBinding := by
  intro i s t h hinit d x hx
  obtain ⟨y, hy, hw⟩ := exec_write h hx
  exact ⟨y, hy, hw.binding_kept hinit⟩

/-- Settles O44, register by register from the table of what each instruction writes; the header rows are those the
decoder gives. -/
theorem registersWrittenByTheirStepsOnly : Obligations.RegistersWrittenByTheirStepsOnly := by
  intro i s t d x y h hinit hreset hx hy
  obtain ⟨y', hy', hw⟩ := exec_write h hx
  obtain rfl : y' = y := Option.some.inj (hy'.symm.trans hy)
  exact ⟨hw.curOffset_kept hinit hreset, hw.mask_kept hinit hreset,
    fun hp he hb hrow hlit => hw.expectedLen_kept hinit hreset hp he (not_readsHeader2 hb hrow hlit),
    fun hs hrow hwf => hw.headerByte1_kept hinit hreset (not_readsHeader1 hs hrow hwf),
    fun hb hrow hlit => ⟨hw.headerByte2_kept hinit hreset (not_readsHeader2 hb hrow hlit),
      fun he hm => hw.remainingIntBytes_kept hinit hreset he hm (not_readsHeader2 hb hrow hlit)⟩⟩

/-- Settles O1: the reset state holds created decoders, which are unbound and idle. -/
theorem createdInstancesHoldResetValues : Obligations.CreatedInstancesHoldResetValues :=
  fun _ hd => ⟨⟨Decoder.created, State.reset_decoder hd, rfl, rfl, rfl, rfl, rfl, rfl, rfl, rfl, rfl⟩,
    exec_feed_unbound (State.reset_decoder hd) rfl rfl⟩

/-- Settles O50: every decoder is a created one, which is lawful and in no FEED, and no buffer is written. -/
theorem invHoldsAtReset : Obligations.InvHoldsAtReset where
  instances := List.length_replicate
  lawful _ _ hx := State.reset_decoder_eq hx ▸ Decoder.lawful_created
  executing _ hrun := nomatch hrun
  waiting _ _ _ hx hf _ := by
    obtain rfl := State.reset_decoder_eq hx
    cases hf
  buffersWf := rfl

end Sys2Proof.Machine

end

/-! # The memory: which bytes change, and writes to a chunk in use (spec/20_memory.md) -/

section

namespace Sys2Proof.Machine

/-! ## What an Encoder command leaves unchanged -/

@[simp] theorem State.emit_inputs (s : State) (cap : Len) (buf : BufferRef) (n : Nat) (bytes : List Byte) :
    (s.emit cap buf n bytes).inputs = s.inputs := by
  unfold State.emit
  split <;> rfl

@[simp] theorem State.emit_requests (s : State) (cap : Len) (buf : BufferRef) (n : Nat) (bytes : List Byte) :
    (s.emit cap buf n bytes).requests = s.requests := by
  unfold State.emit
  split <;> rfl

/-- An Encoder command gives one response, its count (R163, R164). -/
theorem State.emit_responses (s : State) (cap : Len) (buf : BufferRef) (n : Nat) (bytes : List Byte) :
    ∃ c, (s.emit cap buf n bytes).responses = s.responses ++ [.count c] := by
  unfold State.emit
  split <;> exact ⟨_, rfl⟩

/-- An Encoder command writes no other buffer than its own (R54). -/
theorem State.bufRead_emit_other {buf b : BufferRef} (hb : b ≠ buf) (s : State) (cap : Len) (n : Nat) (bytes : List Byte)
    (j : Nat) : (s.emit cap buf n bytes).bufRead b j = s.bufRead b j := by
  by_cases hc : cap.toNat < n
  · rw [State.emit_short hc]; rfl
  · rw [State.emit_fits (Nat.not_lt.mp hc)]
    exact (Buffers.read_writeFrom s.buffers buf b 0 j bytes).trans (if_neg fun h => hb h.1)

/-! ## What any instruction leaves unchanged -/

/-- No byte of a buffer changes but by an Encoder command on that buffer (R54). -/
theorem exec_bufRead {i : Instr} {s t : State} {b : BufferRef} (h : exec i s = .next t)
    (hne : ∀ cap pl, i ≠ .encUnmasked cap pl b ∧ ∀ k, i ≠ .encMasked cap pl b k) (j : Nat) :
    t.bufRead b j = s.bufRead b j := by
  rcases exec_cases h with ⟨cap, pl, buf, k, n, bytes, hi, rfl⟩ | ⟨_, _, _, _, _, ht, _⟩
  · have hb : b ≠ buf := by
      rintro rfl
      exact hi.elim (hne cap pl).1 ((hne cap pl).2 k)
    exact State.bufRead_emit_other hb s cap n bytes j
  · simp only [State.bufRead, ht.buffers]

/-- No instruction takes an input away or adds one (log 2). -/
theorem exec_inputs {i : Instr} {s t : State} (h : exec i s = .next t) : t.inputs = s.inputs := by
  rcases exec_cases h with ⟨_, _, _, _, _, _, _, rfl⟩ | ⟨_, _, _, _, _, ht, _⟩
  · exact State.emit_inputs ..
  · exact ht.inputs

/-- An instruction gives at most one response, after the earlier ones (log 20). -/
theorem exec_responses {i : Instr} {s t : State} (h : exec i s = .next t) :
    ∃ rs, t.responses = s.responses ++ rs ∧ rs.length ≤ 1 := by
  rcases exec_cases h with ⟨cap, _, buf, _, n, bytes, _, rfl⟩ | ⟨_, _, _, _, _, ht, _⟩
  · obtain ⟨c, hc⟩ := s.emit_responses cap buf n bytes
    exact ⟨_, hc, Nat.le_refl 1⟩
  · exact ht.responses

/-- An instruction makes at most one sink request, after the earlier ones (log 20). -/
theorem exec_requests {i : Instr} {s t : State} (h : exec i s = .next t) :
    ∃ rq, t.requests = s.requests ++ rq ∧ rq.length ≤ 1 := by
  rcases exec_cases h with ⟨_, _, _, _, _, _, _, rfl⟩ | ⟨_, _, _, _, _, ht, _⟩
  · exact ⟨[], by simp, Nat.zero_le 1⟩
  · exact ht.requests

/-! ## The delay of a chunk write (R66; log 21) -/

/-- A parse step brings the chunk write that comes next one parse step nearer. -/
theorem step_chunkWrite_nearer {s t : State} {d e : InstId} {n : Nat} {rest : List Input} (hr : s.running = some d)
    (hc : s.inputs = .chunkWrite e (n + 1) :: rest) (h : step s = .next t) : t.inputs = .chunkWrite e n :: rest := by
  rcases step_cases h with ⟨_, _, i, _, _, _, ht⟩ | ⟨hn, _⟩ | ⟨_, _, _, hn, _⟩ | ⟨_, _, _, _, _, hn, _⟩ |
    ⟨e', n', _, hc', hn, _⟩
  · rw [exec_inputs ht, State.tick_inputs, hc, passStep]
  · cases hr.symm.trans hn
  · cases hr.symm.trans hn
  · cases hr.symm.trans hn
  · cases hc.symm.trans hc'
    rcases hn with hn | hn
    · cases hr.symm.trans hn
    · cases hn

/-- The first of several machine steps. -/
theorem stepMany_succ {k : Nat} {s t : State} (h : stepMany (k + 1) s = some t) :
    ∃ u, step s = .next u ∧ stepMany k u = some t := by
  unfold stepMany at h
  split at h
  · exact ⟨_, ‹_›, h⟩
  · cases h
  · cases h

/-- After as many parse steps in a row as its delay, the time of a chunk write has come. -/
theorem chunkWrite_due_of_stepMany {d : InstId} {rest : List Input} :
    ∀ {k : Nat} {s t : State}, s.inputs = .chunkWrite d k :: rest → stepMany k s = some t →
      (∀ j u, j < k → stepMany j s = some u → u.running = some d) → t.inputs = .chunkWrite d 0 :: rest
  | 0, _, _, hc, h, _ => Option.some.inj h ▸ hc
  | k + 1, s, t, hc, h, hrun => by
    obtain ⟨u, hu, hut⟩ := stepMany_succ h
    refine chunkWrite_due_of_stepMany (step_chunkWrite_nearer (hrun 0 s k.succ_pos rfl) hc hu) hut fun j v hj hv => ?_
    exact hrun (j + 1) v (Nat.succ_lt_succ hj) (by simpa only [stepMany, hu] using hv)

/-- A chunk write that lands in a FEED of its decoder is refused (R66). -/
theorem step_chunkWrite_inFeed {s : State} {d : InstId} {x : Decoder} {f : Feed} {n : Nat} {rest : List Input}
    (hc : s.inputs = .chunkWrite d n :: rest) (hn : s.running = none ∨ n = 0) (hx : s.decoders[d]? = some x)
    (hf : x.feed = some f) : step s = .refused (.chunkMutated d) := by
  rw [step_chunkWrite hc hn, hx, Option.bind_some, hf, if_neg (Option.some_ne_none f)]

/-- A chunk write that lands while its decoder is in no FEED is taken without effect (R216). -/
theorem step_chunkWrite_noFeed {s : State} {d : InstId} {x : Decoder} {n : Nat} {rest : List Input}
    (hc : s.inputs = .chunkWrite d n :: rest) (hn : s.running = none ∨ n = 0) (hx : s.decoders[d]? = some x)
    (hf : x.feed = none) : step s = .next { s with inputs := rest } := by
  rw [step_chunkWrite hc hn, hx, Option.bind_some, hf, if_pos rfl]

/-! ## The obligations -/

/-- Settles O42: an instruction is an Encoder command, which writes its own buffer only, or touches one decoder and no
buffer. -/
theorem onlyTheEncoderStores : Obligations.OnlyTheEncoderStores :=
  fun _ _ _ h => ⟨fun _ j hne => exec_bufRead h hne j, exec_inputs h, exec_responses h, exec_requests h⟩

/-- Settles O49: a write that lands finds its decoder in a FEED or not; one with a delay lands when its FEED has made as
many parse steps, by induction on the delay. -/
theorem chunkMustNotChange : Obligations.ChunkMustNotChange :=
  ⟨fun _ _ _ _ _ hc hx hn => ⟨fun _ hf => step_chunkWrite_inFeed hc hn hx hf, step_chunkWrite_noFeed hc hn hx⟩,
    fun _ _ _ _ _ _ _ hc h hrun hy hf =>
      step_chunkWrite_inFeed (chunkWrite_due_of_stepMany hc h hrun) (.inr rfl) hy hf⟩

end Sys2Proof.Machine

end

/-! # The encoding: decoding, the header bytes and fields, FEEDSPLIT (spec/30_encoding.md) -/

section

namespace Sys2Proof.Machine

/-! ## Decoding an encoding, one raw form at a time

`decodeHeader1_of_encode` and `decodeHeader2Mask_of_encode` above are the first-byte rows and the mask rows. -/

/-- A well-formed command is what its record spells; the length of a FEED's chunk fits the record's `n` (R71). -/
theorem decodeCommand_of_encode {i : Instr} {c : RawCommand} (h : encode i = .command c) (hw : i.wf = true) :
    decodeCommand c = .instr i := by
  cases i <;> cases h
  case feed d chunk =>
    have hlen : chunk.length < 2 ^ 64 := by
      simp only [Instr.wf, Bool.and_eq_true, decide_eq_true_eq] at hw
      exact hw.2
    have hn : chunk.length = (BitVec.ofNat 64 chunk.length).toNat := by
      rw [BitVec.toNat_ofNat, Nat.mod_eq_of_lt hlen]
    exact if_pos hn
  all_goals rfl

/-- A parse step is what its `parse_state` code selects (R88). -/
theorem decodeStep_of_encode {i : Instr} {code : BitVec 3} (h : encode i = .step code) : decodeStep code = .instr i := by
  cases i <;> cases h <;> rfl

/-- A literal length of at most 125 is neither of the two marks of an extended length (R77, R124). -/
theorem decodeHeader2Length_literal {l : BitVec 7} (h : l.toNat ≤ 125) (m : Bool) :
    decodeHeader2Length (hdr2Byte m l) = .hdr2Len7Literal m l := by
  have h126 : l ≠ 126 := fun e => absurd h (by simp [e])
  have h127 : l ≠ 127 := fun e => absurd h (by simp [e])
  rw [decodeHeader2Length, len7Of_hdr2Byte, maskfOf_hdr2Byte, if_neg h126, if_neg h127]

/-- A well-formed length row is the row of the byte it spells (R77). -/
theorem decodeHeader2Length_of_encode_wf {i : Instr} {b : Byte} (h : encode i = .header2Length b) (hw : i.wf = true) :
    decodeHeader2Length b = i := by
  rcases decodeHeader2Length_of_encode h with hi | ⟨m, l, rfl⟩
  · exact hi
  · cases h
    exact decodeHeader2Length_literal (of_decide_eq_true hw) m

/-! ## Codes that spell no instruction -/

/-- Codes 6 and 7 select no parse step (R88). -/
theorem decodeStep_badState {code : BitVec 3} (h : 6 ≤ code.toNat) : decodeStep code = .rejected (.badState code) := by
  cases hd : decodeStep code with
  | rejected why => rw [(decodeStep_rejected hd).1]
  | instr i =>
    rcases decodeStep_cases hd with ⟨rfl, -⟩ | ⟨rfl, -⟩ | ⟨rfl, -⟩ | ⟨rfl, -⟩ | ⟨rfl, -⟩ | ⟨rfl, -⟩ <;>
      exact absurd h (by decide)

/-- A code outside R70 spells no command (R73). -/
theorem decodeCommand_unknown {c : RawCommand} (h : c.op ∉ [0x01#8, 0x02#8, 0x03#8, 0x04#8, 0x10#8, 0x11#8]) :
    decodeCommand c = .rejected (.unknownCommand c.op) := by
  simp only [List.mem_cons, List.not_mem_nil, or_false, not_or] at h
  obtain ⟨h1, h2, h3, h4, h5, h6⟩ := h
  simp [decodeCommand, h1, h2, h3, h4, h5, h6]

/-- With a FEED executing in a code that names no state and no chunk write due, the step faults (R88, R190). -/
theorem step_badState {s : State} {d : InstId} {x : Decoder} (hr : s.running = some d)
    (hw : ∀ e, s.nextChunkWrite ≠ some (e, 0)) (hx : s.decoders[d]? = some x) (h6 : 6 ≤ x.regs.parseState.toNat) :
    step s = .fault (.badState x.regs.parseState) := by
  simp [step, fetch_executing hr hw, fetchParseStep, State.decoder?, hx, fetchDecoded, decode, decodeStep_badState h6]

/-- A parse step brings the chunk write that comes next one parse step nearer (log 21). -/
theorem State.tick_coming {s : State} {e : InstId} {n : Nat} {rest : List Input}
    (h : s.inputs = .chunkWrite e (n + 1) :: rest) : s.tick = { s with inputs := .chunkWrite e n :: rest } := by
  rw [State.tick, h, passStep]

/-! ## The first header byte -/

/-- The twelve legal first header bytes (R84). -/
theorem header1Legal_iff_mem (b : Byte) : header1Legal b = true ↔
    b ∈ [0x00#8, 0x01#8, 0x02#8, 0x08#8, 0x09#8, 0x0A#8, 0x80#8, 0x81#8, 0x82#8, 0x88#8, 0x89#8, 0x8A#8] := by
  revert b; decide

/-- A first header byte without reserved bits, FIN being its top bit (R75). -/
theorem hdr1Byte_noRsv (fin : Bool) (op : BitVec 4) :
    hdr1Byte fin 0b000 op = op.setWidth 8 ||| (if fin then 0x80 else 0x00) := by
  revert fin op; decide

/-- Without reserved bits the opcode decides (R82, R83). -/
@[simp] theorem header1Legal_hdr1Byte_noRsv (fin : Bool) (op : BitVec 4) :
    header1Legal (hdr1Byte fin 0b000 op) = opcodeAccepted op := by
  simp [header1Legal]

/-- An illegal first header byte is captured, and is a protocol violation (R122, R123). -/
theorem startStep_rejects {b : Byte} (h : header1Legal b = false) (r : Regs) :
    ∃ c, startStep b r = ({ r with headerByte1 := b }, some c) := by
  rcases startStep_cases b r with ⟨hb, -⟩ | hc
  · exact absurd (hb.symm.trans h) (by decide)
  · exact hc

/-- A row of an accepted opcode captures its byte and goes on in BYTE2 (R82, R121). -/
theorem State.headerRow_accepted {s : State} {d : InstId} {x : Decoder} {f : Feed} {op : BitVec 4}
    (ho : opcodeAccepted op = true) (h : s.Feeding d x f) (hp : f.p < f.chunk.length) (fin : Bool) :
    s.headerRow startStep (hdr1Byte fin 0b000 op) = .next (s.headerDone d x f
      { x.regs with headerByte1 := op.setWidth 8 ||| (if fin then 0x80 else 0x00), parseState := psByte2 }) := by
  have hb : header1Legal (hdr1Byte fin 0b000 op) = true := by rw [header1Legal_hdr1Byte_noRsv, ho]
  have hle : psByte2.toNat ≤ 4 := by decide
  rw [State.headerRow_byte h hp, startStep_accepts hb, ← hdr1Byte_noRsv]
  exact congrArg _ (State.resume_headerDone hle)

/-! ## The header bytes after the first -/

/-- BYTE2, EXT_LEN and MASK take every byte without a protocol violation and without entering ERROR (R85, R126). -/
theorem headerAct_later {r : Regs} (h : r.parseState = psByte2 ∨ r.parseState = psExtLen ∨ r.parseState = psMask) (b : Byte) :
    ∃ r', headerAct r b = (r', none) ∧ r'.parseState.toNat ≤ 4 := by
  rcases h with h | h | h
  · exact ⟨byte2Step b r, by simp [headerAct, noError, h, psStart, psByte2], byte2Step_parseState_le b r⟩
  · exact ⟨extLenStep b r, by simp [headerAct, noError, h, psStart, psByte2, psExtLen],
      extLenStep_parseState_le b (by rw [h]; decide)⟩
  · exact ⟨maskStep b r, by simp [headerAct, noError, h, psStart, psByte2, psExtLen, psMask],
      maskStep_parseState_le b (by rw [h]; decide)⟩

/-- The head of the FEED loop answers nothing or `RES_SUCCESS` (R101, R139). -/
theorem State.resume_responses (s : State) (d : InstId) (x : Decoder) (f : Feed) :
    (s.resume d x f).responses = s.responses ∨ (s.resume d x f).responses = s.responses ++ [.result d resSuccess] := by
  rcases s.resume_cases d x f with ⟨-, -, h⟩ | ⟨-, h⟩ <;> rw [h]
  · exact .inr rfl
  · exact .inl rfl

/-! ## Fields of several bytes

What one byte of the extended length or of the mask key does to the registers, and then the whole field. -/

/-- `AFTER_LENGTH` by cases in the values (R125). -/
theorem afterLength_eq (r : Regs) : afterLength r =
    { r with remainingIntBytes := if r.maskf then 4 else 0, parseState := if r.maskf then psMask else psPayload } := by
  cases h : r.maskf
  · exact afterLength_unmasked h
  · exact afterLength_masked h

/-- A byte of the extended length before its last (R127). -/
theorem extLenStep_more {r : Regs} (h : r.remainingIntBytes ≠ 1) (b : Byte) : extLenStep b r =
    { r with expectedLen := accLen r.expectedLen b, remainingIntBytes := r.remainingIntBytes - 1 } :=
  if_neg fun h0 => h ((sub_one_eq_zero _).mp h0)

/-- The last byte of the extended length (R128). -/
theorem extLenStep_last {r : Regs} (h : r.remainingIntBytes = 1) (b : Byte) :
    extLenStep b r = afterLength { r with expectedLen := accLen r.expectedLen b } := by
  have h0 : r.remainingIntBytes - 1 = 0 := (sub_one_eq_zero _).mpr h
  refine (if_pos h0).trans ?_
  rw [afterLength_eq, afterLength_eq]
  rfl

/-- A byte of the mask key before its last (R129). -/
theorem maskStep_more {r : Regs} (h : r.remainingIntBytes ≠ 1) (b : Byte) : maskStep b r =
    { r with mask := accKey r.mask b, remainingIntBytes := r.remainingIntBytes - 1 } :=
  if_neg fun h0 => h ((sub_one_eq_zero _).mp h0)

/-- The last byte of the mask key (R130). -/
theorem maskStep_last {r : Regs} (h : r.remainingIntBytes = 1) (b : Byte) : maskStep b r =
    { r with mask := accKey r.mask b, remainingIntBytes := 0, parseState := psPayload } := by
  have h0 : r.remainingIntBytes - 1 = 0 := (sub_one_eq_zero _).mpr h
  exact (if_pos h0).trans (by simp only [h0])

/-- The bytes take the registers `r` to `r'` by header steps, none of them a protocol violation. -/
inductive HeaderSteps : Regs → List Byte → Regs → Prop where
  | nil (r : Regs) : HeaderSteps r [] r
  | cons {r r' r'' : Regs} {b : Byte} {bs : List Byte} (hh : isHeaderState r.parseState = true)
      (hb : headerAct r b = (r', none)) (hbs : HeaderSteps r' bs r'') : HeaderSteps r (b :: bs) r''

/-- A byte in EXT_LEN. -/
theorem HeaderSteps.extLen {r r' : Regs} {b : Byte} {bs : List Byte} (h : r.parseState = psExtLen)
    (hbs : HeaderSteps (extLenStep b r) bs r') : HeaderSteps r (b :: bs) r' :=
  .cons (by rw [h]; decide) (by simp [headerAct, noError, h, psStart, psByte2, psExtLen]) hbs

/-- A byte in MASK. -/
theorem HeaderSteps.mask {r r' : Regs} {b : Byte} {bs : List Byte} (h : r.parseState = psMask)
    (hbs : HeaderSteps (maskStep b r) bs r') : HeaderSteps r (b :: bs) r' :=
  .cons (by rw [h]; decide) (by simp [headerAct, noError, h, psStart, psByte2, psExtLen, psMask]) hbs

/-- A count of at least two bytes is not yet 1, and one byte fewer is still needed after the next. -/
theorem remaining_more {v : BitVec 4} {n : Nat} (h : v.toNat = n + 2) : v ≠ 1 ∧ (v - 1).toNat = n + 1 := by
  have hv := v.isLt
  constructor
  · rintro rfl
    simp at h
  · rw [BitVec.toNat_sub]
    simp
    omega

/-- As many bytes as the extended length still needs are accumulated, and `AFTER_LENGTH` follows (R127, R128). -/
theorem headerSteps_extLen {b : Byte} {bs : List Byte} {r : Regs} (h : r.parseState = psExtLen)
    (hn : r.remainingIntBytes.toNat = bs.length + 1) :
    HeaderSteps r (b :: bs) (afterLength { r with expectedLen := (b :: bs).foldl accLen r.expectedLen }) := by
  refine .extLen h ?_
  induction bs generalizing b r with
  | nil =>
    rw [extLenStep_last (BitVec.eq_of_toNat_eq hn)]
    exact .nil _
  | cons b' bs ih =>
    obtain ⟨hne, hdec⟩ := remaining_more hn
    have ih' := ih (b := b') (r := { r with
      expectedLen := accLen r.expectedLen b, remainingIntBytes := r.remainingIntBytes - 1 }) h hdec
    rw [extLenStep_more hne]
    refine .extLen h ?_
    rw [afterLength_eq] at ih' ⊢
    exact ih'

/-- As many bytes as the mask key still needs are accumulated, and PAYLOAD follows (R129, R130). -/
theorem headerSteps_mask {b : Byte} {bs : List Byte} {r : Regs} (h : r.parseState = psMask)
    (hn : r.remainingIntBytes.toNat = bs.length + 1) :
    HeaderSteps r (b :: bs)
      { r with mask := (b :: bs).foldl accKey r.mask, remainingIntBytes := 0, parseState := psPayload } := by
  refine .mask h ?_
  induction bs generalizing b r with
  | nil =>
    rw [maskStep_last (BitVec.eq_of_toNat_eq hn)]
    exact .nil _
  | cons b' bs ih =>
    obtain ⟨hne, hdec⟩ := remaining_more hn
    rw [maskStep_more hne]
    exact .mask h (ih (r := { r with mask := accKey r.mask b, remainingIntBytes := r.remainingIntBytes - 1 }) h hdec)

/-! ## Header bytes of the chunk, by as many machine steps -/

/-- The FEED of `d` has consumed `k` more bytes and goes on, its registers being `r`; nothing else has changed. -/
def State.fed (s : State) (d : InstId) (x : Decoder) (f : Feed) (r : Regs) (k : Nat) : State :=
  { s with decoders := s.decoders.set d { regs := r, feed := some { f with p := f.p + k }, cause := x.cause } }

/-- A FEED that has consumed nothing is where it was. -/
theorem State.fed_zero {s : State} {d : InstId} {x : Decoder} {f : Feed} (h : s.Feeding d x f) :
    s.fed d x f x.regs 0 = s := by
  obtain ⟨-, hx, hf⟩ := h
  rw [State.fed, Nat.add_zero, ← hf, set_self hx]

/-- Consumed twice is consumed together. -/
theorem State.fed_fed (s : State) (d : InstId) (x : Decoder) (f : Feed) (r r' : Regs) (j k : Nat) :
    (s.fed d x f r j).fed d { regs := r, feed := some { f with p := f.p + j }, cause := x.cause } { f with p := f.p + j } r' k =
      s.fed d x f r' (k + j) := by
  simp only [State.fed, List.set_set, Nat.add_assoc, Nat.add_comm j k]

/-- The FEED executes still. -/
theorem State.fed_feeding {s : State} {d : InstId} {x : Decoder} {f : Feed} (h : s.Feeding d x f) (r : Regs) (k : Nat) :
    (s.fed d x f r k).Feeding d { regs := r, feed := some { f with p := f.p + k }, cause := x.cause }
      { f with p := f.p + k } :=
  ⟨h.1, List.getElem?_set_self (List.getElem?_eq_some_iff.mp h.2.1).1, rfl⟩

/-- A header step without a violation, after which a byte is left or PAYLOAD is reached (R120, R125). -/
theorem step_header_fed {s : State} {d : InstId} {x : Decoder} {f : Feed} {b : Byte} {r : Regs} (h : s.Feeding d x f)
    (hq : s.nextChunkWrite = none) (hh : isHeaderState x.regs.parseState = true) (hb : f.chunk[f.p]? = some b)
    (hr : headerAct x.regs b = (r, none)) (hgo : isHeaderState r.parseState = false ∨ f.p + 1 < f.chunk.length) :
    step s = .next (s.fed d x f r 1) := by
  rw [step_header h hq hh hb, hr]
  refine congrArg _ ((State.resume_goesOn hgo).trans ?_)
  rw [← h.1]
  rfl

/-- As many machine steps as header bytes, while the FEED goes on: behind them a byte is left or PAYLOAD is reached. -/
theorem stepMany_header {r r' : Regs} {bs : List Byte} (hr : HeaderSteps r bs r') {s : State} {d : InstId} {x : Decoder}
    {f : Feed} {rest : List Byte} (h : s.Feeding d x f) (hq : s.nextChunkWrite = none) (hx : x.regs = r)
    (hc : f.chunk.drop f.p = bs ++ rest) (hgo : isHeaderState r'.parseState = false ∨ rest ≠ []) :
    stepMany bs.length s = some (s.fed d x f r' bs.length) := by
  induction hr generalizing s x f with
  | nil r => exact congrArg some (hx ▸ (State.fed_zero h).symm)
  | @cons r r₁ r' b bs hh hb hbs ih =>
    subst hx
    have hbyte : f.chunk[f.p]? = some b := by rw [← Nat.add_zero f.p, ← List.getElem?_drop, hc]; rfl
    have hdrop : f.chunk.drop (f.p + 1) = bs ++ rest := by rw [← List.drop_drop, hc]; rfl
    have hleft : isHeaderState r₁.parseState = false ∨ f.p + 1 < f.chunk.length := by
      by_cases hnil : bs ++ rest = []
      · obtain ⟨rfl, rfl⟩ := List.append_eq_nil_iff.mp hnil
        cases hbs
        exact .inl (hgo.resolve_right fun hne => hne rfl)
      · right
        rw [← hdrop, List.drop_eq_nil_iff] at hnil
        omega
    simp only [List.length_cons, stepMany, step_header_fed h hq hh hbyte hb hleft]
    rw [ih (State.fed_feeding h r₁ 1) hq rfl hdrop hgo, State.fed_fed]

/-! ## FEEDSPLIT (R90) -/

/-- The pieces joined are the bytes, the fuel being enough for all of them. -/
theorem splitEvery_flatten {k : Nat} (hk : 1 ≤ k) (fuel : Nat) (bs : List Byte) (h : bs.length ≤ fuel) :
    (splitEvery k fuel bs).flatten = bs := by
  induction fuel generalizing bs with
  | zero => rw [List.length_eq_zero_iff.mp (Nat.le_zero.mp h)]; rfl
  | succ fuel ih =>
    cases bs with
    | nil => rfl
    | cons b bs =>
      have hlen : ((b :: bs).drop k).length ≤ fuel := by simp at h ⊢; omega
      rw [splitEvery, List.flatten_cons, ih _ hlen, List.take_append_drop]

/-- No piece is empty and none is longer than `k`. -/
theorem splitEvery_length {k : Nat} (hk : 1 ≤ k) (fuel : Nat) (bs : List Byte) :
    ∀ c ∈ splitEvery k fuel bs, 1 ≤ c.length ∧ c.length ≤ k := by
  induction fuel generalizing bs with
  | zero => exact fun c hc => nomatch hc
  | succ fuel ih =>
    cases bs with
    | nil => exact fun c hc => nomatch hc
    | cons b bs =>
      intro c hc
      rcases List.mem_cons.mp hc with rfl | hc
      · simp; omega
      · exact ih _ c hc

/-- There is a piece only of a byte string that is not empty. -/
theorem splitEvery_nil (k fuel : Nat) : splitEvery k fuel [] = [] := by
  cases fuel <;> rfl

/-- Each piece but the last has `k` bytes. -/
theorem splitEvery_dropLast (k fuel : Nat) (bs : List Byte) : ∀ c ∈ (splitEvery k fuel bs).dropLast, c.length = k := by
  induction fuel generalizing bs with
  | zero => exact fun c hc => nomatch hc
  | succ fuel ih =>
    cases bs with
    | nil => exact fun c hc => nomatch hc
    | cons b bs =>
      intro c hc
      rw [splitEvery] at hc
      by_cases hlast : splitEvery k fuel ((b :: bs).drop k) = []
      · rw [hlast] at hc
        exact nomatch hc
      · rw [List.dropLast_cons_of_ne_nil hlast] at hc
        rcases List.mem_cons.mp hc with rfl | hc
        · have hmore : (b :: bs).drop k ≠ [] := fun h => hlast (by rw [h, splitEvery_nil])
          rw [Ne, List.drop_eq_nil_iff] at hmore
          rw [List.length_take]
          omega
        · exact ih _ c hc

/-! ## The obligations -/

/-- Settles O53, by the raw form the instruction is encoded in. -/
theorem decodeInvertsEncode : Obligations.DecodeInvertsEncode := by
  intro i hw
  cases h : encode i with
  | command c => exact decodeCommand_of_encode h hw
  | step code => exact decodeStep_of_encode h
  | header1 b => exact congrArg Decoded.instr (decodeHeader1_of_encode h hw)
  | header2Length b => exact congrArg Decoded.instr (decodeHeader2Length_of_encode_wf h hw)
  | header2Mask b => exact congrArg Decoded.instr (decodeHeader2Mask_of_encode h)

/-- Settles O14: each of the six rows is the START step on a byte of an accepted opcode without reserved bits. -/
theorem acceptedFirstBytesGoToByte2 : Obligations.AcceptedFirstBytesGoToByte2 := by
  intro s d x f fin h hp e he
  simp only [List.mem_cons, List.not_mem_nil, or_false] at he
  rcases he with rfl | rfl | rfl | rfl | rfl | rfl <;> exact State.headerRow_accepted (by decide) h hp fin

/-- Settles O18: the twelve bytes are the legal ones, which the START step accepts, and it rejects every other. -/
theorem exactlyTwelveFirstBytesAreLegal : Obligations.ExactlyTwelveFirstBytesAreLegal := by
  intro s d x f b h hb hw hs
  have hact : headerAct x.regs b = startStep b x.regs := if_pos hs
  have hstep := step_header_tick h hw (by rw [hs]; decide) hb
  obtain ⟨y, ht, hy⟩ := s.tick.afterHeader_touched d x f (startStep b x.regs)
  refine ⟨_, y, by rw [hstep, hact], ht.getElem?_same h.2.1, ?_⟩
  cases hl : header1Legal b with
  | true =>
    rw [if_pos ((header1Legal_iff_mem b).mp hl)]
    rw [startStep_accepts hl] at hy
    obtain ⟨-, hy⟩ | ⟨hne, -⟩ := hy
    · exact congrArg Regs.parseState hy
    · exact absurd rfl hne
  | false =>
    rw [if_neg fun hm => absurd (((header1Legal_iff_mem b).mpr hm).symm.trans hl) (by decide)]
    obtain ⟨c, hc⟩ := startStep_rejects hl x.regs
    rw [hc] at hy
    obtain ⟨hne, -⟩ | ⟨-, hy⟩ := hy
    · cases hne
    · exact congrArg Regs.parseState hy

/-- Settles O25: the four bytes are a whole key field, after which PAYLOAD is reached. -/
theorem maskKeyIsBigEndian : Obligations.MaskKeyIsBigEndian := by
  intro s d x f k0 k1 k2 k3 rest h hq hs hn hm hc
  have hkey := headerSteps_mask (b := k0) (bs := [k1, k2, k3]) hs (by rw [hn]; rfl)
  have hrun := stepMany_header hkey h hq rfl hc (.inl rfl)
  rw [hm, show [k0, k1, k2, k3].foldl accKey 0 = _ from accKey_four k0 k1 k2 k3] at hrun
  exact hrun

/-- Settles O26: the two or eight bytes are a whole length field, and a byte is left behind it. -/
theorem extendedLengthIsBigEndian : Obligations.ExtendedLengthIsBigEndian := by
  intro s d x f a rest h hq hs h0
  constructor
  · intro x0 x1 hn hc
    have hlen := headerSteps_extLen (b := x0) (bs := [x1]) hs (by rw [hn]; rfl)
    have hrun := stepMany_header hlen h hq rfl (rest := a :: rest) hc (.inr (List.cons_ne_nil a rest))
    rw [h0, show [x0, x1].foldl accLen 0 = _ from accLen_two x0 x1, afterLength_eq] at hrun
    exact hrun
  · intro x0 x1 x2 x3 x4 x5 x6 x7 hn hc
    have hlen := headerSteps_extLen (b := x0) (bs := [x1, x2, x3, x4, x5, x6, x7]) hs (by rw [hn]; rfl)
    have hrun := stepMany_header hlen h hq rfl (rest := a :: rest) hc (.inr (List.cons_ne_nil a rest))
    rw [h0, show [x0, x1, x2, x3, x4, x5, x6, x7].foldl accLen 0 = _ from accLen_eight x0 x1 x2 x3 x4 x5 x6 x7,
      afterLength_eq] at hrun
    exact hrun

/-- Settles O27: a lawful FEED has a byte left, the step on it is no violation, and the head of the loop follows. -/
theorem laterHeaderBytesNeverRejected : Obligations.LaterHeaderBytesNeverRejected := by
  intro s d x f hs h hw hps
  obtain ⟨-, -, -, hfeed⟩ := hs.lawful d x h.2.1
  obtain ⟨-, -, -, -, -, -, hbyte⟩ := hfeed f h.2.2
  have hh : isHeaderState x.regs.parseState = true := by
    rcases hps with hps | hps | hps <;> rw [hps] <;> decide
  have hp := hbyte hh
  obtain ⟨r, hr, hle⟩ := headerAct_later hps f.chunk[f.p]
  have hstep := step_header_tick h hw hh (List.getElem?_eq_getElem hp)
  rw [hr] at hstep
  obtain ⟨y, ht, hyr, hyc⟩ := s.tick.resume_touched d { x with regs := r } { f with p := f.p + 1 }
  refine ⟨_, y, hstep, ht.getElem?_same h.2.1, ?_, hyc, s.tick.resume_responses d _ _⟩
  rw [hyr]
  rintro (h5 : r.parseState = 5)
  rw [h5] at hle
  exact absurd hle (by decide)

/-- Settles O55: the pieces are those of `splitEvery`. -/
theorem feedSplitKeepsTheBytes : Obligations.FeedSplitKeepsTheBytes :=
  fun _ k bytes hk => ⟨splitEvery k bytes.length bytes, rfl, splitEvery_flatten hk _ bytes (Nat.le_refl _),
    splitEvery_length hk _ bytes, splitEvery_dropLast k _ bytes⟩

/-- Settles O47: the decoder selects the parse step by `parse_state`, and the command by its record. -/
theorem stepRunsTheDecodedInstruction : Obligations.StepRunsTheDecodedInstruction := by
  refine ⟨fun s d x hr hx hw => ?_, fun _ => State.tick_quiet, fun _ _ _ _ => State.tick_coming,
    fun _ _ _ _ => step_command⟩
  have run {i : Instr} {code : BitVec 3} (hi : decodeStep code = .instr i) (hc : x.regs.parseState = code) :
      step s = exec i s.tick := step_executing hr hw hx (hc ▸ hi)
  exact ⟨run rfl, run rfl, run rfl, run rfl, run rfl, run rfl, step_badState hr hw hx⟩

/-- Settles O48: such a code spells no command, and the fetch refuses it by its name. -/
theorem unknownCommandCodesRefused : Obligations.UnknownCommandCodesRefused := by
  intro s c rest hr hc hop
  simp [step, fetch, hr, hc, fetchInput, fetchDecoded, decode, decodeCommand_unknown hop]

/-- Settles O54, by evaluating the decoder on the eight words. -/
theorem tableWordsDecode : Obligations.TableWordsDecode := by
  unfold Obligations.TableWordsDecode
  decide

end Sys2Proof.Machine

end

/-! # The commands: INIT, FEED, RESET, STATUS, and the FEED loop's ERROR arm (spec/40_commands.md) -/

section

namespace Sys2Proof.Machine

section

variable {s : State} {d : InstId} {x : Decoder} (hx : s.decoders[d]? = some x)

include hx

/-! ## What each command does on an idle decoder -/

/-- INIT binds the sink and clears every other register (R100). -/
theorem exec_init_idle (hi : x.regs.inSink = false) (ctx : SinkCtx) : exec (.init d ctx) s = .next
    ((s.setDecoder d { x with regs := { x.regs.clear with sinkBound := true, sinkCtx := ctx }, cause := none }).respond
      (.result d resSuccess)) :=
  State.withIdle_idle hx hi _

/-- RESET clears every register but the sink binding (R104). -/
theorem exec_reset_idle (hi : x.regs.inSink = false) : exec (.reset d) s = .next
    ((s.setDecoder d { x with regs := x.regs.clear, cause := none }).respond (.result d resSuccess)) :=
  State.withIdle_idle hx hi _

/-- FEED completes on a bound decoder in any state (R101, R102). -/
theorem exec_feed_completes (hi : x.regs.inSink = false) (hb : x.regs.sinkBound = true) (chunk : List Byte) :
    ∃ t, exec (.feed d chunk) s = .next t :=
  ⟨_, exec_feed_next.mpr ⟨x, hx, hi, hb, rfl⟩⟩

/-- STATUS answers the snapshot in every state, an outstanding invocation included (R105). -/
theorem exec_status :
    exec (.status d) s = .next (s.respond (.snapshot d x.regs.snapshot)) := by
  change execStatus d s = _
  rw [execStatus, State.decoder?, hx]

/-! ## The commands refused during a sink invocation (R106) -/

theorem exec_init_reentrant (hi : x.regs.inSink = true) (ctx : SinkCtx) :
    exec (.init d ctx) s = .refused (.reentrant d) :=
  State.withIdle_reentrant hx hi _

theorem exec_reset_reentrant (hi : x.regs.inSink = true) : exec (.reset d) s = .refused (.reentrant d) :=
  State.withIdle_reentrant hx hi _

theorem exec_feed_reentrant (hi : x.regs.inSink = true) (chunk : List Byte) :
    exec (.feed d chunk) s = .refused (.reentrant d) :=
  State.withIdle_reentrant hx hi _

end

/-! ## An invocation outstanding, and a FEED begun -/

/-- After the request of a PAYLOAD step its decoder waits with `in_sink` 1, its other registers as before (R131). -/
theorem State.sinkInvoke_decoder {s : State} {d : InstId} {x : Decoder} {f : Feed} (h : s.Feeding d x f) :
    (s.sinkInvoke d x f).decoders[d]? = some { x with regs := { x.regs with inSink := true } } := by
  obtain ⟨-, hx, hf⟩ := h
  rw [State.sinkInvoke_decoders, List.getElem?_set_self (List.getElem?_eq_some_iff.mp hx).1, ← hf]

/-- The loop ends as it begins exactly with an empty chunk in a header state (R101, R139). -/
theorem State.resume_chunk {s : State} {d : InstId} {x : Decoder} {chunk : List Byte} :
    s.resume d x { chunk := chunk, p := 0, answer := none } =
      if chunk = [] ∧ x.regs.parseState.toNat ≤ 3 then s.endFeed d x resSuccess
      else { s.setDecoder d { x with feed := some { chunk := chunk, p := 0, answer := none } } with running := some d } := by
  rcases s.resume_cases d x { chunk := chunk, p := 0, answer := none } with ⟨hh, hlen, h⟩ | ⟨hbyte, h⟩ <;> rw [h]
  · rw [if_pos ⟨List.length_eq_zero_iff.mp (Nat.le_zero.mp hlen), isHeaderState_iff.mp hh⟩]
  · rw [if_neg]
    rintro ⟨rfl, h3⟩
    exact absurd (hbyte (isHeaderState_iff.mpr h3)) (Nat.lt_irrefl 0)

/-! ## The obligations -/

/-- Settles O2: INIT is guarded by the outstanding invocation, and then clears and binds. -/
theorem initBindsAndResets : Obligations.InitBindsAndResets :=
  ⟨fun _ _ => rfl, fun _ _ ctx _ hx => ⟨fun hi => exec_init_reentrant hx hi ctx, fun hi => exec_init_idle hx hi ctx⟩⟩

/-- Settles O3: RESET is guarded by the outstanding invocation, and then clears. -/
theorem resetKeepsTheBinding : Obligations.ResetKeepsTheBinding :=
  ⟨fun _ => rfl, fun _ _ _ hx => ⟨exec_reset_reentrant hx, exec_reset_idle hx⟩⟩

/-- Settles O4: STATUS answers the snapshot; after the request of a PAYLOAD step only `in_sink` differs in it. -/
theorem statusReturnsTheRegisters : Obligations.StatusReturnsTheRegisters := by
  refine ⟨fun _ => rfl, fun _ _ _ hx => exec_status hx, fun s d x f h hs hi => ?_⟩
  refine ⟨s.sinkInvoke d x f, State.payloadStep_request h hi, ?_⟩
  rw [exec_status (State.sinkInvoke_decoder h), Regs.snapshot, hs]
  rfl

/-- Settles O5: in ERROR the FEED only answers. -/
theorem feedInErrorReturnsInvalid : Obligations.FeedInErrorReturnsInvalid :=
  fun _ _ chunk _ hx hi hb hs => exec_feed_error chunk hx hi hb hs

/-- Settles O6: outside ERROR the FEED begins at the head of its loop. -/
theorem feedTakesTheChunk : Obligations.FeedTakesTheChunk := by
  intro s d chunk x hx hi hb hp
  have hne : x.regs.parseState ≠ psError := fun he => absurd hp (by rw [he]; decide)
  rw [exec_feed_takes chunk hx hi hb hne, State.resume_chunk]
  rfl

/-- Settles O7: of the commands on an idle decoder only FEED asks for the binding. -/
theorem feedNeedsASink : Obligations.FeedNeedsASink :=
  fun _ _ _ hx hi hb => ⟨exec_feed_unbound hx hi hb, ⟨_, exec_reset_idle hx hi⟩, ⟨_, exec_status hx⟩⟩

/-- Settles O8: the guard looks at the named decoder only, and neither STATUS nor the Encoder has it. -/
theorem reentrantCommandsRefused : Obligations.ReentrantCommandsRefused :=
  fun _ _ _ hx hi => ⟨exec_feed_reentrant hx hi, exec_reset_reentrant hx hi, exec_init_reentrant hx hi,
    ⟨_, exec_status hx⟩, fun _ _ _ _ => ⟨⟨_, rfl⟩, ⟨_, rfl⟩⟩,
    fun _ _ _ hy hyi => ⟨fun ctx => ⟨_, exec_init_idle hy hyi ctx⟩, ⟨_, exec_reset_idle hy hyi⟩, ⟨_, exec_status hy⟩,
      fun chunk hb => exec_feed_completes hy hyi hb chunk⟩⟩

/-- Settles O36: in an executing FEED the step ends it with `RES_INVALID`. -/
theorem stepErrorReturnsInvalid : Obligations.StepErrorReturnsInvalid :=
  fun _ _ _ _ h => State.inFeed_feeding h _

end Sys2Proof.Machine

end

/-! # The decoder steps: the invariant through every step (spec/41_decoder_steps.md, rules R138 and R140) -/

section

namespace Sys2Proof.Machine

/-! ## The invariant through each kind of step (R140) -/

/-- The invariant speaks of the decoders, of who executes, and of the buffers. -/
theorem State.Inv.congr {s t : State} (hs : s.Inv) (hd : t.decoders = s.decoders) (hr : t.running = s.running)
    (hb : t.buffers = s.buffers) : t.Inv := by
  obtain ⟨h1, h2, h3, h4, h5⟩ := hs
  rw [← hd] at h1 h2 h3 h4
  rw [← hr] at h3 h4
  rw [← hb] at h5
  exact ⟨h1, h2, h3, h4, h5⟩

/-- What the invariant says of the executing FEED. -/
theorem State.Inv.feedLocal {s : State} (hs : s.Inv) {d : InstId} {x : Decoder} {f : Feed} (h : s.Feeding d x f) :
    FeedLocal x f := by
  obtain ⟨hrun, hx, hf⟩ := h
  obtain ⟨hl, -, -, hfeed⟩ := hs.lawful d x hx
  obtain ⟨-, hp, -, -, hne, -, hh⟩ := hfeed f hf
  obtain ⟨x', f', hx', -, hi⟩ := hs.executing d hrun
  obtain rfl : x' = x := Option.some.inj (hx'.symm.trans hx)
  exact ⟨hl, hne, hi, hp, hh⟩

/-- While none executes, a decoder without an outstanding invocation is in no FEED (R62). -/
theorem State.Inv.no_feed {s : State} (hs : s.Inv) (hrun : s.running = none) {d : InstId} {x : Decoder}
    (hx : s.decoders[d]? = some x) (hi : x.regs.inSink = false) : x.feed = none := by
  cases hf : x.feed with
  | none => rfl
  | some f => cases hrun.symm.trans (hs.waiting d x f hx hf hi)

/-- A header step keeps the invariant, whether it goes on, suspends or enters ERROR. -/
theorem inv_headerAct {s : State} (hs : s.Inv) {d : InstId} {x : Decoder} {f : Feed} {b : Byte} (h : s.Feeding d x f)
    (hh : isHeaderState x.regs.parseState = true) : (s.afterHeader d x f (headerAct x.regs b)).Inv := by
  obtain ⟨hl, -, hi, -, hbyte⟩ := hs.feedLocal h
  obtain ⟨hwl, hwb, hwi⟩ := wireHeader_lawful hl b
  rcases headerAct_cases hl hh b with ⟨r, he, hr, hle, hri, -, rfl⟩ | ⟨r, c, he, hw⟩
  · have hne : (wireHeader x.regs b).parseState ≠ psError := fun h5 => absurd hle (by rw [h5]; decide)
    rw [he]
    exact inv_header hs h hi (hbyte hh) _ hr hne hwb hri
  · rw [hw] at hwl hwi
    rw [he]
    exact inv_error hs h.2.1 (.inr h.1) hwl (hwi.trans hi)

/-- The request of a PAYLOAD step keeps the invariant: its decoder waits (R131). -/
theorem inv_sinkInvoke {s : State} (hs : s.Inv) {d : InstId} {x : Decoder} {f : Feed} (h : s.Feeding d x f)
    (hps : x.regs.parseState = psPayload) : (s.sinkInvoke d x f).Inv := by
  obtain ⟨hl, hc, -, hfeed⟩ := hs.lawful d x h.2.1
  obtain ⟨hb, hp, hn, ha, hne, -, hh⟩ := hfeed f h.2.2
  refine inv_stop hs h.2.1 (.inr h.1) (y := { x with regs := { x.regs with inSink := true }, feed := some f })
    ⟨hl, hc, fun hf => (nomatch hf), fun g hg => ?_⟩ (fun _ _ => rfl) rfl rfl rfl
  cases hg
  exact ⟨hb, hp, hn, ha, hne, fun _ => hps, hh⟩

/-- INIT and RESET keep the invariant: they give the reset values, whatever the binding (R38). -/
theorem inv_clear {s : State} (hs : s.Inv) (hrun : s.running = none) {d : InstId} {x : Decoder}
    (hx : s.decoders[d]? = some x) (hi : x.regs.inSink = false) (bound : Bool) (ctx : SinkCtx) (r : Response) :
    ((s.setDecoder d { x with
      regs := { x.regs.clear with sinkBound := bound, sinkCtx := ctx }, cause := none }).respond r).Inv := by
  have hf := hs.no_feed hrun hx hi
  refine inv_stop hs hx (.inl hrun) ⟨x.regs.lawful_clear bound ctx, ?_, fun _ => ⟨rfl, ?_⟩, fun g hg => ?_⟩
    (fun g hg => ?_) rfl hrun rfl
  · exact ⟨fun h => (nomatch h), fun h => absurd h (show psStart ≠ psError by decide)⟩
  · exact fun h => absurd h (show psStart ≠ psPayload by decide)
  all_goals cases hf.symm.trans hg

/-- FEED keeps the invariant, in ERROR and outside (R101, R102); its chunk's length has 64 bits (R71). -/
theorem inv_exec_feed {s t : State} (hs : s.Inv) (hrun : s.running = none) {d : InstId} {chunk : List Byte}
    (hn : chunk.length < 2 ^ 64) (h : exec (.feed d chunk) s = .next t) : t.Inv := by
  obtain ⟨x, hx, hi, hb, rfl⟩ := exec_feed_next.mp h
  obtain ⟨hl, hc, -⟩ := hs.lawful d x hx
  split
  · exact hs.congr rfl rfl rfl
  · exact inv_resume hs hx (.inl hrun) hl hc hb hi ‹_› (Nat.zero_le _) hn rfl

/-- An Encoder command keeps the invariant: the buffers stay in canonical form (R54). -/
theorem inv_emit {s : State} (hs : s.Inv) (cap : Len) (buf : BufferRef) (n : Nat) (bytes : List Byte) :
    (s.emit cap buf n bytes).Inv := by
  by_cases hc : cap.toNat < n
  · rw [State.emit_short hc]
    exact hs.congr rfl rfl rfl
  · rw [State.emit_fits (Nat.not_lt.mp hc)]
    obtain ⟨h1, h2, h3, h4, h5⟩ := hs
    exact ⟨h1, h2, h3, h4, Buffers.wf_writeFrom h5 buf 0 bytes⟩

/-- What STATUS can do (R105). -/
theorem exec_status_next {s t : State} {d : InstId} :
    exec (.status d) s = .next t ↔ ∃ x, s.decoders[d]? = some x ∧ t = s.respond (.snapshot d x.regs.snapshot) := by
  change execStatus d s = .next t ↔ _
  unfold execStatus State.decoder?
  cases hx : s.decoders[d]? <;> simp [eq_comm]

/-- A command of the host keeps the invariant. -/
theorem inv_command {s t : State} (hs : s.Inv) (hrun : s.running = none) {c : RawCommand} {i : Instr}
    (hc : decodeCommand c = .instr i) (h : exec i s = .next t) : t.Inv := by
  rcases decodeCommand_cases hc with ⟨-, rfl⟩ | ⟨-, hlen, rfl⟩ | ⟨-, rfl⟩ | ⟨-, rfl⟩ | ⟨-, rfl⟩ | ⟨-, rfl⟩
  · obtain ⟨x, hx, hi, hk⟩ := State.withIdle_next.mp h
    cases hk
    exact inv_clear hs hrun hx hi true c.sinkCtx _
  · exact inv_exec_feed hs hrun (hlen ▸ c.n.isLt) h
  · obtain ⟨x, hx, hi, hk⟩ := State.withIdle_next.mp h
    cases hk
    exact inv_clear hs hrun hx hi x.regs.sinkBound x.regs.sinkCtx _
  · obtain ⟨x, -, rfl⟩ := exec_status_next.mp h
    exact hs.congr rfl rfl rfl
  · cases h
    exact inv_emit hs ..
  · cases h
    exact inv_emit hs ..

/-! ## What a step of a lawful machine can do -/

section

variable {r : Regs} (b : Byte)

/-- START's step (R121). -/
theorem headerAct_start (h : r.parseState = psStart) : headerAct r b = startStep b r := by
  simp [headerAct, h]

/-- BYTE2's step (R124). -/
theorem headerAct_byte2 (h : r.parseState = psByte2) : headerAct r b = noError byte2Step b r := by
  simp [headerAct, h, psStart, psByte2]

/-- EXT_LEN's step (R127). -/
theorem headerAct_extLen (h : r.parseState = psExtLen) : headerAct r b = noError extLenStep b r := by
  simp [headerAct, h, psStart, psByte2, psExtLen]

/-- MASK's step (R129). -/
theorem headerAct_mask (h : r.parseState = psMask) : headerAct r b = noError maskStep b r := by
  simp [headerAct, h, psStart, psByte2, psExtLen, psMask]

end

/-- The parse step that a header state selects acts on the next byte (R88, R120). -/
theorem exec_header {s : State} {d : InstId} {x : Decoder} {f : Feed} {b : Byte} {i : Instr} (h : s.Feeding d x f)
    (hh : isHeaderState x.regs.parseState = true) (hb : f.chunk[f.p]? = some b)
    (hi : decodeStep x.regs.parseState = .instr i) : exec i s = .next (s.afterHeader d x f (headerAct x.regs b)) := by
  rcases decodeStep_cases hi with ⟨hp, rfl⟩ | ⟨hp, rfl⟩ | ⟨hp, rfl⟩ | ⟨hp, rfl⟩ | ⟨hp, -⟩ | ⟨hp, -⟩
  · exact headerAct_start b hp ▸ State.headerStep_byte h hb _
  · exact headerAct_byte2 b hp ▸ State.headerStep_byte h hb _
  · exact headerAct_extLen b hp ▸ State.headerStep_byte h hb _
  · exact headerAct_mask b hp ▸ State.headerStep_byte h hb _
  all_goals exact absurd hh (by rw [hp]; decide)

/-- The parse step of a lawful machine: a header step on the next byte, or the request of a PAYLOAD step. -/
theorem State.Inv.exec_parseStep {s t : State} (hs : s.Inv) {d : InstId} {x : Decoder} {f : Feed} {i : Instr}
    (h : s.Feeding d x f) (hi : decodeStep x.regs.parseState = .instr i) (ht : exec i s = .next t) :
    (∃ b, isHeaderState x.regs.parseState = true ∧ t = s.afterHeader d x f (headerAct x.regs b)) ∨
      x.regs.parseState = psPayload ∧ t = s.sinkInvoke d x f := by
  have hl := hs.feedLocal h
  cases hh : isHeaderState x.regs.parseState with
  | true =>
    have ht' := exec_header h hh (List.getElem?_eq_getElem (hl.header hh)) hi
    exact .inl ⟨_, rfl, (Host.Outcome.next.inj (ht'.symm.trans ht)).symm⟩
  | false =>
    have hps := hl.payload_of_not_header hh
    rw [hps] at hi
    cases hi
    have ht' := State.payloadStep_request h hl.notInSink
    exact .inr ⟨hps, (Host.Outcome.next.inj (ht'.symm.trans ht)).symm⟩

/-- Settles O51: a parse step, a command and a sink's answer each keep the invariant, which does not read the inputs. -/
theorem everyStepKeepsInv : Obligations.EveryStepKeepsInv := by
  intro s t hs h
  have htake (rest : List Input) : State.Inv { s with inputs := rest } := hs.congr rfl rfl rfl
  rcases step_cases h with ⟨d, x, i, hrun, hx, hi, ht⟩ | ⟨-, -, rfl⟩ | ⟨c, rest, i, hrun, -, hc, ht⟩ |
    ⟨d, code, rest, x, f, hrun, -, hx, hf, hi, rfl⟩ | ⟨-, -, rest, -, -, -, rfl⟩
  · obtain ⟨x', f, hx', hf, -⟩ := hs.executing d hrun
    obtain rfl : x' = x := Option.some.inj (hx'.symm.trans hx)
    have hfeed : s.tick.Feeding d x' f := ⟨hrun, hx, hf⟩
    rcases State.Inv.exec_parseStep (htake _) hfeed hi ht with ⟨b, hh, rfl⟩ | ⟨hps, rfl⟩
    · exact inv_headerAct (htake _) hfeed hh
    · exact inv_sinkInvoke (htake _) hfeed hps
  · exact hs
  · exact inv_command (htake rest) hrun hc ht
  · exact inv_sinkAnswered (htake rest) hrun hx hf hi
  · exact htake rest

/-- Settles O37: the invariant, which every step keeps, has no FEED in progress on a decoder in ERROR. -/
theorem noStepRunsInError : Obligations.NoStepRunsInError := by
  intro s t d y hs h hy he
  have ht := everyStepKeepsInv s t hs h
  have hf := ht.no_feed_in_error hy he
  refine ⟨hf, fun hrun => ?_⟩
  obtain ⟨y', f, hy', hf', -⟩ := ht.executing d hrun
  obtain rfl : y' = y := Option.some.inj (hy'.symm.trans hy)
  cases hf.symm.trans hf'

end Sys2Proof.Machine

end

/-! # The decoder steps: header bytes and header rows (spec/41_decoder_steps.md, rules R121 to R130) -/

section

namespace Sys2Proof.Machine

/-! ## The START step in a FEED -/

section

variable (s : State) (d : InstId) (x : Decoder) (f : Feed) {b : Byte}

/-- A reserved bit ends the FEED in ERROR (R122). -/
theorem State.afterHeader_rsv (h : reservedBitSet b = true) :
    s.afterHeader d x f (startStep b x.regs) = s.feedFailed d { x.regs with headerByte1 := b } .rsv 1 := by
  rw [startStep_rsv h]
  rfl

/-- Without reserved bits, a reserved opcode ends the FEED in ERROR (R123). -/
theorem State.afterHeader_opcode (h : reservedBitSet b = false) (ho : opcodeAccepted (opcodeOf b) = false) :
    s.afterHeader d x f (startStep b x.regs) = s.feedFailed d { x.regs with headerByte1 := b } .opcode 1 := by
  rw [startStep_opcode h ho]
  rfl

/-- A legal first byte leads to BYTE2 (R121). -/
theorem State.afterHeader_accepted (h : header1Legal b = true) :
    s.afterHeader d x f (startStep b x.regs) =
      s.headerDone d x f { x.regs with headerByte1 := b, parseState := psByte2 } := by
  have hle : psByte2.toNat ≤ 4 := by decide
  rw [startStep_accepts h]
  exact State.resume_headerDone hle

end

/-- The legal first bytes by the two checks (R84). -/
theorem header1Legal_iff (b : Byte) :
    header1Legal b = true ↔ reservedBitSet b = false ∧ opcodeAccepted (opcodeOf b) = true := by
  simp [header1Legal]

/-- The reserved opcodes are the ten that are not accepted (R82, R83). -/
theorem opcodeAccepted_eq_false_iff (op : BitVec 4) : opcodeAccepted op = false ↔
    op ∈ [0x3#4, 0x4#4, 0x5#4, 0x6#4, 0x7#4, 0xB#4, 0xC#4, 0xD#4, 0xE#4, 0xF#4] := by
  revert op; decide

/-- The bits of a first header byte in order (R75). -/
theorem hdr1Byte_rsvBits (fin rsv1 rsv2 rsv3 : Bool) (op : BitVec 4) : hdr1Byte fin (rsvBits rsv1 rsv2 rsv3) op =
    BitVec.ofBool fin ++ BitVec.ofBool rsv1 ++ BitVec.ofBool rsv2 ++ BitVec.ofBool rsv3 ++ op := by
  revert fin rsv1 rsv2 rsv3 op; decide

/-- A row with a reserved bit ends the FEED in ERROR, whatever its other bits (R122). -/
theorem State.headerRow_rsv {s : State} {d : InstId} {x : Decoder} {f : Feed} (h : s.Feeding d x f)
    (hp : f.p < f.chunk.length) (fin : Bool) {rsv1 rsv2 rsv3 : Bool} (hr : rsv1 = true ∨ rsv2 = true ∨ rsv3 = true)
    (op : BitVec 4) :
    s.headerRow startStep (hdr1Byte fin (rsvBits rsv1 rsv2 rsv3) op) = .next (s.feedFailed d
      { x.regs with headerByte1 :=
          BitVec.ofBool fin ++ BitVec.ofBool rsv1 ++ BitVec.ofBool rsv2 ++ BitVec.ofBool rsv3 ++ op } .rsv 1) := by
  have hne : rsvBits rsv1 rsv2 rsv3 ≠ 0 := fun h0 => by
    obtain ⟨rfl, rfl, rfl⟩ := (rsvBits_eq_zero_iff _ _ _).mp h0
    simp at hr
  rw [State.headerRow_byte h hp, State.afterHeader_rsv _ _ _ _ (by simpa using hne), hdr1Byte_rsvBits]

/-- A row of a reserved opcode ends the FEED in ERROR, FIN either way (R123). -/
theorem State.headerRow_reserved {s : State} {d : InstId} {x : Decoder} {f : Feed} {op : BitVec 4}
    (ho : opcodeAccepted op = false) (h : s.Feeding d x f) (hp : f.p < f.chunk.length) (fin : Bool) :
    s.headerRow startStep (hdr1Byte fin 0b000 op) = .next (s.feedFailed d
      { x.regs with headerByte1 := op.setWidth 8 ||| (if fin then 0x80 else 0x00) } .opcode 1) := by
  rw [State.headerRow_byte h hp, State.afterHeader_opcode _ _ _ _ (by simp) (by simpa using ho), hdr1Byte_noRsv]

/-- The opcodes 0x4 to 0x7 are reserved (R83). -/
theorem reserved4To7 (low : BitVec 2) :
    opcodeAccepted (0b01#2 ++ low) = false ∧ (0b01#2 ++ low).setWidth 8 = 0x04#8 + low.setWidth 8 := by
  revert low; decide

/-- The opcodes 0xC to 0xF are reserved (R83). -/
theorem reservedCToF (low : BitVec 2) :
    opcodeAccepted (0b11#2 ++ low) = false ∧ (0b11#2 ++ low).setWidth 8 = 0x0C#8 + low.setWidth 8 := by
  revert low; decide

/-! ## The BYTE2 step by the length field -/

section

variable {b : Byte} (r : Regs)

/-- LEN7 = 126: two length bytes to come (R124). -/
theorem byte2Step_len16 (h : len7Of b = 126) :
    byte2Step b r = { r with headerByte2 := b, remainingIntBytes := 2, parseState := psExtLen } :=
  if_pos h

/-- LEN7 = 127: eight length bytes to come (R124). -/
theorem byte2Step_len64 (h : len7Of b = 127) :
    byte2Step b r = { r with headerByte2 := b, remainingIntBytes := 8, parseState := psExtLen } := by
  have h126 : len7Of b ≠ 126 := by rw [h]; decide
  exact (if_neg h126).trans (if_pos h)

/-- Any other LEN7 is the length, and MASKF selects the phase (R124, R125). -/
theorem byte2Step_literal (h126 : len7Of b ≠ 126) (h127 : len7Of b ≠ 127) : byte2Step b r =
    { r with
      headerByte2 := b, expectedLen := (len7Of b).setWidth 64, remainingIntBytes := if maskfOf b then 4 else 0
      parseState := if maskfOf b then psMask else psPayload } :=
  (if_neg h126).trans ((if_neg h127).trans (afterLength_eq _))

end

/-- The BYTE2 step on a byte given by its fields. -/
theorem byte2Step_hdr2Byte (maskf : Bool) (len7 : BitVec 7) (r : Regs) : byte2Step (hdr2Byte maskf len7) r =
    if len7 = 126 then
      { r with headerByte2 := hdr2Byte maskf len7, remainingIntBytes := 2, parseState := psExtLen }
    else if len7 = 127 then
      { r with headerByte2 := hdr2Byte maskf len7, remainingIntBytes := 8, parseState := psExtLen }
    else
      { r with
        headerByte2 := hdr2Byte maskf len7, expectedLen := len7.setWidth 64, remainingIntBytes := if maskf then 4 else 0
        parseState := if maskf then psMask else psPayload } := by
  by_cases h126 : len7 = 126
  · rw [if_pos h126, byte2Step_len16 r ((len7Of_hdr2Byte maskf len7).trans h126)]
  · rw [if_neg h126]
    by_cases h127 : len7 = 127
    · rw [if_pos h127, byte2Step_len64 r ((len7Of_hdr2Byte maskf len7).trans h127)]
    · rw [if_neg h127, byte2Step_literal r (by simpa using h126) (by simpa using h127), len7Of_hdr2Byte,
        maskfOf_hdr2Byte]

/-- LEN7 is at most 125 exactly if it is neither of the marks of an extended length (R77). -/
theorem len7_le_iff (l : BitVec 7) : l.toNat ≤ 125 ↔ l ≠ 126 ∧ l ≠ 127 := by
  revert l; decide

/-- The BYTE2 step in a FEED takes every byte (R85, R124). -/
theorem State.afterHeader_byte2 (s : State) (d : InstId) (x : Decoder) (f : Feed) (b : Byte) :
    s.afterHeader d x f (noError byte2Step b x.regs) = s.headerDone d x f (byte2Step b x.regs) :=
  s.afterHeader_noError d x f byte2Step b (byte2Step_parseState_le b x.regs)

/-- A row of a second header byte is the BYTE2 step on that byte (log 12, log 13). -/
theorem State.headerRow_byte2 {s : State} {d : InstId} {x : Decoder} {f : Feed} (h : s.Feeding d x f)
    (hp : f.p < f.chunk.length) (b : Byte) :
    s.headerRow (noError byte2Step) b = .next (s.headerDone d x f (byte2Step b x.regs)) := by
  rw [State.headerRow_byte h hp, State.afterHeader_byte2]

/-! ## Rows and bytes -/

/-- A first-byte row acts as the START step on the byte it spells (log 12). -/
theorem exec_of_encode_header1 {i : Instr} {b : Byte} (h : encode i = .header1 b) (s : State) :
    exec i s = s.headerRow startStep b := by
  cases i <;> cases h <;> rfl

/-- A second-byte row acts as the BYTE2 step on the byte it spells (log 12, log 13). -/
theorem exec_of_encode_header2 {i : Instr} {b : Byte} (h : encode i = .header2Length b ∨ encode i = .header2Mask b)
    (s : State) : exec i s = s.headerRow (noError byte2Step) b := by
  cases i <;> rcases h with h | h <;> cases h <;> rfl

/-- The row of a first header byte spells it (R82 to R84). -/
theorem encode_decodeHeader1 (b : Byte) : encode (decodeHeader1 b) = .header1 b := by
  revert b; decide

/-- The length row of a second header byte spells it (R77). -/
theorem encode_decodeHeader2Length (b : Byte) : encode (decodeHeader2Length b) = .header2Length b := by
  revert b; decide

/-- The mask row of a second header byte spells it (R78). -/
theorem encode_decodeHeader2Mask (b : Byte) : encode (decodeHeader2Mask b) = .header2Mask b := by
  revert b; decide

/-! ## Suspending and resuming (R139) -/

/-- A header step on the chunk's last byte that leaves its decoder in a header state suspends the FEED. -/
theorem State.afterHeader_suspends {s : State} {d : InstId} {x y : Decoder} {f : Feed} (hx : s.decoders[d]? = some x)
    (hlen : f.p + 1 = f.chunk.length) {res : Regs × Option Cause} (hy : (s.afterHeader d x f res).decoders[d]? = some y)
    (hh : isHeaderState y.regs.parseState = true) :
    s.afterHeader d x f res = s.endFeed d { x with regs := y.regs } resSuccess := by
  obtain ⟨z, ht, hz⟩ := s.afterHeader_touched d x f res
  obtain rfl : z = y := Option.some.inj ((ht.getElem?_same hx).symm.trans hy)
  obtain ⟨r, c⟩ := res
  rcases hz with ⟨rfl, rfl⟩ | ⟨-, hz⟩
  · exact State.resume_suspends hh (Nat.le_of_eq hlen.symm)
  · rw [hz] at hh
    exact absurd hh (show ¬ isHeaderState psError = true by decide)

/-- A FEED with a byte executes from the chunk's beginning, outside ERROR (R101). -/
theorem exec_feed_begins {s : State} {d : InstId} {x : Decoder} (hx : s.decoders[d]? = some x)
    (hi : x.regs.inSink = false) (hb : x.regs.sinkBound = true) (hne : x.regs.parseState ≠ psError) (b : Byte)
    (rest : List Byte) : ∃ t, exec (.feed d (b :: rest)) s = .next t ∧ t.inputs = s.inputs ∧
      t.Feeding d { x with feed := some { chunk := b :: rest, p := 0, answer := none } }
        { chunk := b :: rest, p := 0, answer := none } := by
  rw [exec_feed_takes _ hx hi hb hne, State.resume_goesOn (.inr (Nat.succ_pos _))]
  exact ⟨_, rfl, rfl, rfl, List.getElem?_set_self (List.getElem?_eq_some_iff.mp hx).1, rfl⟩

/-! ## The obligations on rows -/

/-- Settles O15: each of the three rows spells a byte with a reserved bit. -/
theorem reservedBitRowsEndInError : Obligations.ReservedBitRowsEndInError := by
  intro s d x f h hp a b c op
  exact ⟨State.headerRow_rsv h hp a (.inl rfl) op, State.headerRow_rsv h hp a (.inr (.inl rfl)) op,
    State.headerRow_rsv h hp a (.inr (.inr rfl)) op⟩

/-- Settles O16: each of the four rows spells a byte of a reserved opcode without reserved bits. -/
theorem reservedOpcodeRowsEndInError : Obligations.ReservedOpcodeRowsEndInError := by
  intro s d x f fin low h hp e he
  have row {op : BitVec 4} (ho : opcodeAccepted op = false) := State.headerRow_reserved ho h hp fin
  simp only [List.mem_cons, List.not_mem_nil, or_false] at he
  rcases he with rfl | rfl | rfl | rfl
  · exact row (by decide)
  · obtain ⟨ho, hlow⟩ := reserved4To7 low
    exact hlow ▸ row ho
  · exact row (by decide)
  · obtain ⟨ho, hlow⟩ := reservedCToF low
    exact hlow ▸ row ho

/-- Settles O19: LEN7 is 126 or 127, whatever MASKF. -/
theorem extendedLengthRowsSetTheCount : Obligations.ExtendedLengthRowsSetTheCount := by
  intro s d x f maskf h hp
  exact ⟨byte2Step_len16 x.regs (len7Of_hdr2Byte maskf 126) ▸ State.headerRow_byte2 h hp _,
    byte2Step_len64 x.regs (len7Of_hdr2Byte maskf 127) ▸ State.headerRow_byte2 h hp _⟩

/-- Settles O20: a LEN7 of at most 125 is neither mark of an extended length. -/
theorem literalLengthRowSetsTheLength : Obligations.LiteralLengthRowSetsTheLength := by
  intro s d x f maskf len7 h hp hlen
  obtain ⟨h126, h127⟩ := (len7_le_iff len7).mp hlen
  have hstep := byte2Step_hdr2Byte maskf len7 x.regs
  rw [if_neg h126, if_neg h127] at hstep
  exact hstep ▸ State.headerRow_byte2 h hp _

/-- Settles O21: either row is the BYTE2 step on its byte, MASKF and LEN7 being the byte's fields. -/
theorem maskFlagRowsSelectThePhase : Obligations.MaskFlagRowsSelectThePhase := by
  intro s d x f len7 h hp
  exact ⟨byte2Step_hdr2Byte true len7 x.regs ▸ State.headerRow_byte2 h hp _,
    byte2Step_hdr2Byte false len7 x.regs ▸ State.headerRow_byte2 h hp _⟩

/-- Settles O28: the row of a byte spells it, and a row acts as the step where the chunk holds its byte. -/
theorem headerRowsAgreeWithTheSteps : Obligations.HeaderRowsAgreeWithTheSteps := by
  intro s d x f b h hb
  have start := State.headerRow_eq_headerStep h hb startStep
  have byte2 := State.headerRow_eq_headerStep h hb (noError byte2Step)
  exact ⟨(exec_of_encode_header1 (encode_decodeHeader1 b) s).trans start,
    (exec_of_encode_header2 (.inl (encode_decodeHeader2Length b)) s).trans byte2,
    (exec_of_encode_header2 (.inr (encode_decodeHeader2Mask b)) s).trans byte2⟩

/-! ## The obligations on the parse steps -/

/-- Settles O17: a reserved bit is rejected first, then a reserved opcode; any other byte is legal. -/
theorem startStepCapturesAndChecks : Obligations.StartStepCapturesAndChecks := by
  intro s d x f b h hb
  refine ⟨fun hs hq => step_running h.1 hq h.2.1 (hs ▸ rfl), ?_⟩
  refine (State.headerStep_byte h hb startStep).trans (congrArg _ ?_)
  split_ifs with hr ho
  · exact State.afterHeader_rsv s d x f (decide_eq_true hr)
  · exact State.afterHeader_opcode s d x f (decide_eq_false hr) ((opcodeAccepted_eq_false_iff _).mpr ho)
  · refine State.afterHeader_accepted s d x f ((header1Legal_iff b).mpr ⟨decide_eq_false hr, ?_⟩)
    exact (Bool.not_eq_false _).mp fun hno => ho ((opcodeAccepted_eq_false_iff _).mp hno)

/-- Settles O22: LEN7 at most 125 is the literal length; of the two others 126 is tested first. -/
theorem byte2StepReadsTheLengthField : Obligations.Byte2StepReadsTheLengthField := by
  intro s d x f b h hb
  refine ⟨fun hs hq => step_running h.1 hq h.2.1 (hs ▸ rfl), (State.headerStep_byte h hb (noError byte2Step)).trans ?_⟩
  rw [State.afterHeader_byte2]
  refine congrArg (fun r => Host.Outcome.next (s.headerDone d x f r)) ?_
  split
  case isTrue hlen =>
    obtain ⟨h126, h127⟩ := (len7_le_iff _).mp hlen
    exact byte2Step_literal x.regs h126 h127
  case isFalse hlen =>
    split
    · exact byte2Step_len16 x.regs ‹_›
    · exact byte2Step_len64 x.regs (by_contra fun h127 => hlen ((len7_le_iff _).mpr ⟨‹_›, h127⟩))

/-- Settles O23: `AFTER_LENGTH` follows exactly the byte with which the count reaches 0. -/
theorem extLenStepAccumulates : Obligations.ExtLenStepAccumulates := by
  intro s d x f b h hb hs
  refine ⟨fun hq => step_running h.1 hq h.2.1 (hs ▸ rfl), (State.headerStep_byte h hb (noError extLenStep)).trans ?_⟩
  rw [State.afterHeader_noError s d x f extLenStep b (extLenStep_parseState_le b (by rw [hs]; decide))]
  refine congrArg (fun r => Host.Outcome.next (s.headerDone d x f r)) ?_
  split
  · exact extLenStep_more ‹_› b
  · rw [extLenStep_last (not_not.mp ‹_›), afterLength_eq]
    rfl

/-- Settles O24: PAYLOAD follows exactly the byte with which the count reaches 0. -/
theorem maskStepAccumulates : Obligations.MaskStepAccumulates := by
  intro s d x f b h hb hs
  refine ⟨fun hq => step_running h.1 hq h.2.1 (hs ▸ rfl), (State.headerStep_byte h hb (noError maskStep)).trans ?_⟩
  rw [State.afterHeader_noError s d x f maskStep b (maskStep_parseState_le b (by rw [hs]; decide))]
  refine congrArg (fun r => Host.Outcome.next (s.headerDone d x f r)) ?_
  split_ifs with hr
  · rw [maskStep_last hr, hr]
    rfl
  · rw [maskStep_more hr, hs]
    rfl

/-- Settles O40: the head of the loop suspends at the chunk's end, and the next FEED begins in the state it finds. -/
theorem suspendAndResume : Obligations.SuspendAndResume := by
  constructor
  · intro s t d x y f h hw hps hlen ht hy hyps
    have hb : f.chunk[f.p]? = some _ := List.getElem?_eq_getElem (show f.p < f.chunk.length by omega)
    obtain rfl : _ = t := Host.Outcome.next.inj ((step_header_tick h hw (isHeaderState_iff.mpr hps) hb).symm.trans ht)
    rw [State.afterHeader_suspends (s := s.tick) h.2.1 hlen hy (isHeaderState_iff.mpr hyps)]
    rfl
  · intro s d x b rest hx hi hbound hps
    have hne : x.regs.parseState ≠ psError := fun he => absurd hps (by rw [he]; decide)
    obtain ⟨t, ht, hin, hfeed⟩ := exec_feed_begins hx hi hbound hne b rest
    refine ⟨t, ht, hfeed, fun hq => ?_⟩
    have run {i : Instr} {code : BitVec 3} (hcode : decodeStep code = .instr i) (hp : x.regs.parseState = code) :
        step t = exec i t :=
      step_running hfeed.1 ((State.nextChunkWrite_congr hin).trans hq) hfeed.2.1 (hp ▸ hcode)
    exact ⟨run rfl, run rfl, run rfl, run rfl⟩

end Sys2Proof.Machine

end

/-! # The decoder steps: the PAYLOAD step and its outcomes (spec/41_decoder_steps.md, rules R131 to R138) -/

section

namespace Sys2Proof.Machine

/-! ## Steps outside a FEED (R120) -/

/-- A parse step or header row is refused while no FEED executes (log 14). -/
theorem State.inFeed_idle {s : State} (h : s.running = none) (k : InstId → Decoder → Feed → State) :
    s.inFeed k = .refused .noFeedRunning := by
  simp [State.inFeed, State.current, h]

/-! ## The slice of a PAYLOAD step -/

/-- While the cursor is in the chunk, a slice has as many bytes as it says (R53, R132). -/
theorem sinkRequest_bytes_length (d : InstId) (r : Regs) (f : Feed) :
    (sinkRequest d r f).bytes.length = sliceLen r f := by
  have hle : sliceLen r f ≤ f.chunk.length - f.p := Nat.min_le_left ..
  simpa [sinkRequest, Feed.slice] using hle

/-- A slice is empty exactly with no byte left in the chunk or none expected (R132). -/
theorem sliceLen_eq_zero_iff (r : Regs) (f : Feed) : sliceLen r f = 0 ↔ f.left = 0 ∨ r.rem = 0 := by
  unfold sliceLen
  omega

/-! ## The obligations -/

/-- Settles O46: every such instruction but an Encoder command acts in the executing FEED, and there is none. -/
theorem parseStepsNeedAFeed : Obligations.ParseStepsNeedAFeed := by
  intro i s hrun htarget henc
  cases i
  case encUnmasked cap pl buf => exact absurd rfl (henc cap pl buf).1
  case encMasked cap pl buf k => exact absurd rfl ((henc cap pl buf).2 k)
  case init => cases htarget
  case feed => cases htarget
  case reset => cases htarget
  case status => cases htarget
  all_goals exact State.inFeed_idle hrun _

/-- Settles O29: without an invocation outstanding the step is the request. -/
theorem payloadStepAsksTheSink : Obligations.PayloadStepAsksTheSink :=
  fun _ _ x f h hi => ⟨sliceLen x.regs f, rfl, State.payloadStep_request h hi⟩

/-- Settles O32: the rejection is tested before the slice is counted. -/
theorem sinkRejectionPassesThrough : Obligations.SinkRejectionPassesThrough := by
  intro s d x f code h hi ha hne
  refine (State.payloadStep_answer h hi ha).trans (congrArg _ ?_)
  rw [State.sinkAnswered_rejected hne, State.enterError_feedFailed]

/-- Settles O33: the answer is fetched into the FEED of the decoder that waits for it. -/
theorem anAnswerResumesItsFeed : Obligations.AnAnswerResumesItsFeed := by
  intro s d x f code rest hr hc hx hf hi
  simp only [step, fetch, hr, hc, fetchInput, fetchAnswer, State.decoder?, hx, hf, hi, if_true]
  rfl

/-- Settles O30: fewer bytes than expected are left, so the slice is those left. -/
theorem partialOutcomeAdvances : Obligations.PartialOutcomeAdvances := by
  intro s d x f h hi ha hlt
  refine ⟨(State.payloadStep_answer h hi ha).trans (congrArg _ ?_), fun hle => Regs.advanced_toNat hle hlt⟩
  exact State.sinkAnswered_partial hlt

/-- Settles O31: the slice is all that is expected, and the head of the loop follows in START. -/
theorem completeOutcomeEndsTheFrame : Obligations.CompleteOutcomeEndsTheFrame := by
  intro s d x f k h hi ha hk hle
  subst hk
  refine (State.payloadStep_answer h hi ha).trans (congrArg _ ((State.sinkAnswered_complete hle).trans ?_))
  split
  · exact State.resume_goesOn (.inr ‹_›)
  · exact State.resume_suspends rfl (Nat.not_lt.mp ‹_›)

/-- Settles O35: the step is the request, whose slice is empty by one of its two bounds. -/
theorem emptySliceCases : Obligations.EmptySliceCases := by
  intro s d x f hs h hw hps
  have hl := hs.feedLocal h
  refine ⟨_, _, step_request_tick h hw hps hl.notInSink, rfl, ?_⟩
  obtain ⟨-, -, hle, -, -, -, hpay, -⟩ := hl.lawful
  obtain ⟨-, -, -, hlt⟩ := hpay hps
  have hexp : x.regs.expectedLen = 0 ↔ x.regs.expectedLen.toNat = 0 := BitVec.toNat_inj.symm
  have hcur := hl.cursor
  rw [← List.length_eq_zero_iff, sinkRequest_bytes_length, sliceLen_eq_zero_iff, Regs.rem_eq hle, hexp, Feed.left]
  rcases hlt with hlt | ⟨-, h0⟩
  · omega
  · have := hexp.mp h0
    omega

end Sys2Proof.Machine

end

/-! # The decoder steps: streams cut into chunks (spec/41_decoder_steps.md, rules R137 and R141) -/

section

namespace Sys2Proof.Machine

/-- A stream to a ready decoder is delivered; however it is cut, it changes the registers and hands out payload as its
bytes do one at a time (R57, R63). -/
theorem State.readyFor.delivers {s : State} {d : InstId} {x : Decoder} (h : s.readyFor d) (hx : s.decoders[d]? = some x)
    (cut : List (List Byte)) : ∃ t y, deliverAll d s cut = some t ∧ t.decoders[d]? = some y ∧
      slicesFollow x.regs.curOffset.toNat (newRequests s t) ∧
      ∀ acc, wireBytes (x.regs, acc) cut.flatten = (y.regs, payloads acc (newRequests s t)) := by
  obtain ⟨hs, hrun, hq, x', hx', hf, hb, -⟩ := h
  obtain rfl : x' = x := Option.some.inj (hx'.symm.trans hx)
  obtain ⟨hi, hl, hp⟩ := hs.idle hx hf
  obtain ⟨t, y, rs, ht, hy, hreq, hfollow, -, hwire⟩ := deliverAll_delivers cut hx hf hrun hq hl hi hb hp
  have hnew : newRequests s t = rs := by rw [newRequests, hreq, List.drop_left]
  exact ⟨t, y, ht, hy, hnew.symm ▸ hfollow, hnew.symm ▸ hwire⟩

/-- Settles O58: both cuts are delivered as the same bytes one at a time. -/
theorem chunkBoundariesDoNotMatter : Obligations.ChunkBoundariesDoNotMatter := by
  intro d s cut cut' h hcut
  obtain ⟨-, -, -, x, hx, -⟩ := id h
  obtain ⟨t, y, ht, hy, -, hwire⟩ := h.delivers hx cut
  obtain ⟨t', y', ht', hy', -, hwire'⟩ := h.delivers hx cut'
  obtain ⟨hregs, hpay⟩ := Prod.mk.inj ((hwire ([], [])).symm.trans (hcut ▸ hwire' ([], [])))
  refine ⟨t, t', y, y', ht, ht', hy, hy', hregs, ?_, hpay⟩
  have hjoin := payloads_join (newRequests s t) ([], [])
  have hjoin' := payloads_join (newRequests s t') ([], [])
  rw [hpay] at hjoin
  simpa using hjoin.symm.trans hjoin'

/-- Settles O59: the requests of a delivered stream follow one another. -/
theorem slicesFollowInOrder : Obligations.SlicesFollowInOrder := by
  intro d s t x cut h hx ht
  obtain ⟨t', -, ht', -, hfollow, -⟩ := h.delivers hx cut
  obtain rfl : t' = t := Option.some.inj (ht'.symm.trans ht)
  exact hfollow

end Sys2Proof.Machine

end

/-! # The Encoder: what its commands write, and its headers read back (spec/42_encoder.md) -/

section

namespace Sys2Proof.Machine

/-! ## The bytes of the Encoder's commands -/

/-- What an Encoder command with mask flag `m` is to write: the header after its first byte (R87, R161, R162). -/
def encoderBytes (m : Bool) (pl : Len) (k : Key) : List Byte := lengthField m pl ++ if m then keyBytes k else []

/-- An Encoder command writes a byte at least and 13 at most (R160, R162). -/
theorem encoderBytes_length_bounds (m : Bool) (pl : Len) (k : Key) :
    0 < (encoderBytes m pl k).length ∧ (encoderBytes m pl k).length ≤ 13 := by
  rw [encoderBytes, List.length_append, lengthField_length]
  cases lengthForm pl <;> cases m <;> simp [formLen]

/-- SHORT: the length in the second header byte itself (R161, R162). -/
theorem lengthField_short {pl : Len} (h : pl.toNat < 126) (m : Bool) :
    lengthField m pl = [hdr2Byte m (pl.extractLsb' 0 7)] := by
  have hform : lengthForm pl = .short := if_pos h
  rw [lengthField, hform, ← BitVec.setWidth_eq_extractLsb' (by decide)]

/-- MEDIUM: 126 and the length's two low bytes (R161, R162). -/
theorem lengthField_medium {pl : Len} (h : 126 ≤ pl.toNat) (h' : pl.toNat ≤ 0xFFFF) (m : Bool) :
    lengthField m pl = hdr2Byte m 126 :: lenBytes2 pl := by
  have hform : lengthForm pl = .medium := (if_neg (Nat.not_lt.mpr h)).trans (if_pos h')
  rw [lengthField, hform]

/-- LONG: 127 and the length's eight bytes (R161, R162). -/
theorem lengthField_long {pl : Len} (h : 0xFFFF < pl.toNat) (m : Bool) :
    lengthField m pl = hdr2Byte m 127 :: lenBytes8 pl := by
  have hform : lengthForm pl = .long :=
    (if_neg (Nat.not_lt.mpr (Nat.le_trans (by decide) h))).trans (if_neg (Nat.not_le.mpr h))
  rw [lengthField, hform]

/-! ## What the Encoder's commands do -/

theorem exec_encUnmasked (s : State) (cap pl : Len) (buf : BufferRef) :
    exec (.encUnmasked cap pl buf) s = .next (s.emit cap buf (lengthField false pl).length (lengthField false pl)) := by
  rw [lengthField_length]
  rfl

theorem exec_encMasked (s : State) (cap pl : Len) (buf : BufferRef) (k : Key) :
    exec (.encMasked cap pl buf k) s =
      .next (s.emit cap buf (lengthField true pl ++ keyBytes k).length (lengthField true pl ++ keyBytes k)) := by
  rw [List.length_append, lengthField_length]
  rfl

/-- Either command puts out its bytes, which its operands alone determine (R165). -/
theorem exec_encoder {i : Instr} {cap pl : Len} {buf : BufferRef} {k : Key}
    (hi : i = .encUnmasked cap pl buf ∨ i = .encMasked cap pl buf k) :
    ∃ m : Bool, (m = true ↔ i = .encMasked cap pl buf k) ∧
      ∀ s, exec i s = .next (s.emit cap buf (encoderBytes m pl k).length (encoderBytes m pl k)) := by
  rcases hi with rfl | rfl
  · refine ⟨false, by simp, fun s => ?_⟩
    rw [show encoderBytes false pl k = lengthField false pl from List.append_nil _]
    exact exec_encUnmasked s cap pl buf
  · exact ⟨true, by simp, fun s => exec_encMasked s cap pl buf k⟩

/-- With capacity for them, the bytes are all that is written (R164). -/
theorem State.emit_encoded (s : State) {cap : Len} (buf : BufferRef) {bytes : List Byte} (hc : bytes.length ≤ cap.toNat) :
    s.Encoded buf bytes (s.emit cap buf bytes.length bytes) := by
  rw [State.emit_fits hc]
  refine ⟨rfl, rfl, rfl, rfl, rfl, fun b j => ?_⟩
  simpa [State.bufRead] using Buffers.read_writeFrom s.buffers buf b 0 j bytes

/-- A command that puts out `n` bytes does nothing with less capacity and writes them with as much (R163, R164). -/
theorem exec_emit_capacity {i : Instr} {s : State} {cap : Len} {buf : BufferRef} {bytes : List Byte}
    (h : exec i s = .next (s.emit cap buf bytes.length bytes)) :
    (cap.toNat < bytes.length → exec i s = .next { s with responses := s.responses ++ [.count 0] }) ∧
    (bytes.length ≤ cap.toNat → ∃ t, exec i s = .next t ∧ s.Encoded buf bytes t) :=
  ⟨fun hc => h.trans (congrArg _ (State.emit_short hc)), fun hc => ⟨_, h, s.emit_encoded buf hc⟩⟩

/-! ## A whole frame on the wire (R167) -/

/-- The masks of a delivered stream's requests are those of the wire. -/
theorem State.readyFor.masks {s t : State} {d : InstId} {x : Decoder} (h : s.readyFor d) (hx : s.decoders[d]? = some x)
    {cut : List (List Byte)} (ht : deliverAll d s cut = some t) :
    ∀ rq ∈ newRequests s t, rq.mask ∈ payloadMasks x.regs cut.flatten := by
  obtain ⟨hs, hrun, hq, x', hx', hf, hb, -⟩ := h
  obtain rfl : x' = x := Option.some.inj (hx'.symm.trans hx)
  obtain ⟨hi, hl, hp⟩ := hs.idle hx hf
  obtain ⟨t', y, rs, ht', -, hreq, -, hmask, -⟩ := deliverAll_delivers cut hx hf hrun hq hl hi hb hp
  obtain rfl : t' = t := Option.some.inj (ht'.symm.trans ht)
  rwa [newRequests, hreq, List.drop_left]

/-- From START, a legal first byte, the Encoder's bytes and the payload hand out the payload as one frame and lead to
START again, under the key if there is one. -/
theorem wireBytes_frame {r : Regs} (hl : r.lawful) (hs : r.parseState = psStart) {b1 : Byte} (hb : header1Legal b1 = true)
    (m : Bool) {pl : Len} (k : Key) {payload : List Byte} (hlen : payload.length = pl.toNat) :
    ∃ r', r'.parseState = psStart ∧ r'.headerByte1 = b1 ∧
      (∀ acc, wireBytes (r, acc) (b1 :: encoderBytes m pl k ++ payload) = (r', acc.1 ++ [acc.2 ++ payload], [])) ∧
      ∀ key ∈ payloadMasks r (b1 :: encoderBytes m pl k ++ payload), key = if m then k else 0 := by
  obtain ⟨r', hrun, hps, hcur, hexp, hmask, hb1⟩ := headerRun_header hl hs hb m pl k
  have hle : r'.curOffset.toNat ≤ r'.expectedLen.toNat := by simp [hcur]
  have hrem : payload.length = r'.rem := by simp [Regs.rem_eq hle, hcur, hexp, hlen]
  refine ⟨r'.completeFrame, rfl, hb1, fun acc => ?_, fun key hkey => ?_⟩
  · have hset : settleFrame r acc = (r, acc) := settleFrame_of_ne (fun h => absurd (hs.symm.trans h.1) (by decide)) acc
    calc wireBytes (r, acc) (b1 :: encoderBytes m pl k ++ payload)
        = wireBytes (settleFrame r' acc) payload := hset ▸ (hrun payload acc).1
      _ = (r'.completeFrame, acc.1 ++ [acc.2 ++ payload], []) := by
        rw [wireBytes_payload hps hle acc payload hrem.le, if_pos hrem]
  · have hkey' : key ∈ payloadMasks r' payload := (hrun payload ([], [])).2 ▸ hkey
    exact ((payloadMasks_payload hps hle payload [] hrem.le).1 key hkey').trans hmask

/-! ## The obligations -/

/-- Settles O60: the buffer holds the Encoder's bytes, and however the frame is cut, its bytes act as one at a time. -/
theorem encodedFramesRoundTrip : Obligations.EncodedFramesRoundTrip := by
  intro d s s0 t0 x b1 cap pl buf key i e payload cut h hx hs hb1 hi hexec hpos hcount h13 hread hlen hcut
  obtain ⟨m, hm, henc⟩ := exec_encoder hi
  obtain rfl : e = encoderBytes m pl key :=
    emit_bytes (encoderBytes_length_bounds m pl key).2 (Host.Outcome.next.inj (hexec.symm.trans (henc s0))) hpos h13 hcount
      hread
  have hl : x.regs.lawful := (h.1.lawful d x hx).1
  obtain ⟨r', hs', hb', hframe, hmask⟩ := wireBytes_frame hl hs ((header1Legal_iff_mem b1).mpr hb1) m key hlen
  obtain ⟨t, y, ht, hy, -, hwire⟩ := h.delivers hx cut
  obtain ⟨hregs, hpay⟩ := Prod.mk.inj ((hwire ([], [])).symm.trans (hcut ▸ hframe ([], [])))
  have hlast := payloads_last (newRequests s t) ([], [])
  rw [hpay] at hlast
  refine ⟨t, y, ht, hy, hregs ▸ hb', hregs ▸ hs', hpay, by simpa using hlast.symm, fun rq hrq => ?_⟩
  simpa only [← hm] using hmask rq.mask (hcut ▸ h.masks hx ht rq hrq)

/-- Settles O10, one form of the length after the other. -/
theorem encUnmaskedWritesLength : Obligations.EncUnmaskedWritesLength := by
  refine ⟨fun _ _ _ => rfl, fun s cap pl buf => ?_⟩
  have hemit := exec_emit_capacity (exec_encUnmasked s cap pl buf)
  refine ⟨fun h => ?_, fun h h' => ?_, fun h => ?_⟩
  · rwa [lengthField_short h] at hemit
  · rwa [lengthField_medium h h'] at hemit
  · rwa [lengthField_long h] at hemit

/-- Settles O11, one form of the length after the other. -/
theorem encMaskedWritesLengthAndKey : Obligations.EncMaskedWritesLengthAndKey := by
  refine ⟨fun _ _ _ _ => rfl, fun s cap pl buf k => ?_⟩
  have hemit := exec_emit_capacity (exec_encMasked s cap pl buf k)
  refine ⟨fun h => ?_, fun h h' => ?_, fun h => ?_⟩
  · rwa [lengthField_short h] at hemit
  · rwa [lengthField_medium h h'] at hemit
  · rwa [lengthField_long h] at hemit

/-- Settles O12: the capacity is short of the bytes, or they are written. -/
theorem encoderWritesExactlyItsCount : Obligations.EncoderWritesExactlyItsCount := by
  intro s cap pl buf k i hi
  obtain ⟨m, -, henc⟩ := exec_encoder hi
  obtain ⟨hpos, h13⟩ := encoderBytes_length_bounds m pl k
  obtain ⟨hshort, hfits⟩ := exec_emit_capacity (henc s)
  rcases Nat.lt_or_ge cap.toNat (encoderBytes m pl k).length with hc | hc
  · exact ⟨_, 0, hshort hc, rfl, Nat.zero_le _, fun _ _ _ => rfl, fun h0 => absurd h0 (Nat.lt_irrefl 0)⟩
  · obtain ⟨t, ht, -, -, -, -, hresp, hread⟩ := hfits hc
    refine ⟨t, _, ht, hresp, h13, fun h0 => absurd h0 hpos.ne', fun _ => ⟨hc, fun j hj => ?_, fun b j hbj => ?_⟩⟩
    · rw [hread, if_pos ⟨rfl, hj⟩, List.getElem?_eq_getElem hj]
      rfl
    · rw [hread, if_neg fun ⟨hb, hj⟩ => hbj.elim (· hb) (Nat.not_le.mpr hj)]

/-- Settles O13: neither the bytes nor the test of the capacity depends on the state. -/
theorem encoderIsAPureFunction : Obligations.EncoderIsAPureFunction := by
  intro s s' cap pl buf k i hi
  obtain ⟨m, -, henc⟩ := exec_encoder hi
  obtain ⟨hshort, hfits⟩ := exec_emit_capacity (henc s)
  obtain ⟨hshort', hfits'⟩ := exec_emit_capacity (henc s')
  rcases Nat.lt_or_ge cap.toNat (encoderBytes m pl k).length with hc | hc
  · exact ⟨_, _, 0, hshort hc, hshort' hc, rfl, rfl, rfl, fun j hj => absurd hj (Nat.not_lt_zero j)⟩
  · obtain ⟨t, ht, hdec, -, -, -, hresp, hread⟩ := hfits hc
    obtain ⟨t', ht', -, -, -, -, hresp', hread'⟩ := hfits' hc
    refine ⟨t, t', _, ht, ht', hdec, hresp, hresp', fun j hj => ?_⟩
    rw [hread, hread', if_pos ⟨rfl, hj⟩, if_pos ⟨rfl, hj⟩]

end Sys2Proof.Machine

end

/-! # The exceptions: entries into ERROR, stops, and commands in either order (spec/60_exceptions.md) -/

section

namespace Sys2Proof.Machine

/-! ## The entry into ERROR by a header byte (R122, R123) -/

/-- A header step without a violation leaves its decoder with the step's registers. -/
theorem State.afterHeader_regs {s : State} {d : InstId} {x y : Decoder} {f : Feed} {r : Regs}
    (hx : s.decoders[d]? = some x) (hy : (s.afterHeader d x f (r, none)).decoders[d]? = some y) : y.regs = r := by
  obtain ⟨z, ht, hz⟩ := s.afterHeader_touched d x f (r, none)
  obtain rfl : z = y := Option.some.inj ((ht.getElem?_same hx).symm.trans hy)
  rcases hz with ⟨-, hz⟩ | ⟨hne, -⟩
  · exact hz
  · exact absurd rfl hne

/-- Of the header steps only START enters ERROR, and only on a byte that is not legal (R85, R121, R126). -/
theorem State.afterHeader_in_error {s : State} {d : InstId} {x y : Decoder} {f : Feed} {b : Byte}
    (hx : s.decoders[d]? = some x) (hh : isHeaderState x.regs.parseState = true)
    (hy : (s.afterHeader d x f (headerAct x.regs b)).decoders[d]? = some y) (he : y.regs.parseState = psError) :
    x.regs.parseState = psStart ∧ header1Legal b = false := by
  rcases of_decide_eq_true hh with hs | hs
  · refine ⟨hs, (Bool.not_eq_true _).mp fun hb => ?_⟩
    rw [headerAct_start b hs, startStep_accepts hb] at hy
    rw [State.afterHeader_regs hx hy] at he
    exact absurd he (show psByte2 ≠ psError by decide)
  · obtain ⟨r, hr, hle⟩ := headerAct_later hs b
    rw [hr] at hy
    rw [← State.afterHeader_regs hx hy, he] at hle
    exact absurd hle (by decide)

/-- A byte that is not legal has a reserved bit or a reserved opcode (R84). -/
theorem reserved_of_not_legal {b : Byte} (hb : header1Legal b = false) :
    rsvOf b ≠ 0 ∨ opcodeOf b ∈ [0x3#4, 0x4#4, 0x5#4, 0x6#4, 0x7#4, 0xB#4, 0xC#4, 0xD#4, 0xE#4, 0xF#4] := by
  rcases Bool.and_eq_false_iff.mp hb with hr | ho
  · exact .inl (of_decide_eq_true ((Bool.not_eq_false' _).mp hr))
  · exact .inr ((opcodeAccepted_eq_false_iff _).mp ho)

/-- START on a byte that is not legal ends the FEED in ERROR, the reserved bits before the opcode (R122, R123, R187). -/
theorem State.afterHeader_rejected (s : State) (d : InstId) (x : Decoder) (f : Feed) {b : Byte}
    (hb : header1Legal b = false) : s.afterHeader d x f (startStep b x.regs) =
      s.feedFailed d { x.regs with headerByte1 := b } (if rsvOf b ≠ 0 then .rsv else .opcode) 1 := by
  split
  case isTrue hr => exact State.afterHeader_rsv s d x f (decide_eq_true hr)
  case isFalse hr =>
    have ho := (reserved_of_not_legal hb).resolve_left hr
    exact State.afterHeader_opcode s d x f (decide_eq_false hr) ((opcodeAccepted_eq_false_iff _).mpr ho)

/-! ## What does not enter ERROR -/

/-- A command leaves the state code of each decoder as it is, or gives it START (R100 to R105). -/
theorem exec_command_parseState {c : RawCommand} {i : Instr} {s t : State} {d : InstId} {x y : Decoder}
    (hc : decodeCommand c = .instr i) (h : exec i s = .next t) (hx : s.decoders[d]? = some x)
    (hy : t.decoders[d]? = some y) : y.regs.parseState = x.regs.parseState ∨ y.regs.parseState = psStart := by
  by_cases hd : instrTarget i s = some d
  · obtain ⟨y', hy', hr⟩ := exec_target h hd hx
    obtain rfl : y' = y := Option.some.inj (hy'.symm.trans hy)
    rcases decodeCommand_cases hc with ⟨-, rfl⟩ | ⟨-, -, rfl⟩ | ⟨-, rfl⟩ | ⟨-, rfl⟩ | ⟨-, rfl⟩ | ⟨-, rfl⟩
    · exact .inr (congrArg Regs.parseState hr)
    · exact .inl (congrArg Regs.parseState hr)
    · exact .inr (congrArg Regs.parseState hr)
    · exact .inl (congrArg Regs.parseState hr)
    · cases hd
    · cases hd
  · obtain rfl : x = y := Option.some.inj (((exec_other h hd).trans hx).symm.trans hy)
    exact .inl rfl

/-- A sink that accepts leaves the state code as it is, or gives START (R133, R134). -/
theorem State.sinkAnswered_accepted_parseState {s : State} {d : InstId} {x y : Decoder} {f : Feed}
    (hx : s.decoders[d]? = some x) (hy : (s.sinkAnswered d x f resSuccess).decoders[d]? = some y) :
    y.regs.parseState = x.regs.parseState ∨ y.regs.parseState = psStart := by
  rcases Nat.lt_or_ge f.left x.regs.rem with hlt | hge
  · rw [State.sinkAnswered_partial hlt] at hy
    obtain rfl := Option.some.inj (((s.endFeed_touched d _ _).getElem?_same hx).symm.trans hy)
    exact .inl rfl
  · rw [State.sinkAnswered_complete hge] at hy
    obtain ⟨z, ht, hz, -⟩ := s.resume_touched d { x with regs := { x.regs with inSink := false }.completeFrame }
      { f with p := f.p + x.regs.rem, answer := none }
    obtain rfl : z = y := Option.some.inj ((ht.getElem?_same hx).symm.trans hy)
    exact .inr (congrArg Regs.parseState hz)

/-- A parse step of a lawful machine that leaves its decoder in ERROR is START's on a byte that is not legal. -/
theorem State.Inv.parseStep_in_error {s t : State} (hs : s.Inv) {d : InstId} {x y : Decoder} {f : Feed} {i : Instr}
    (h : s.Feeding d x f) (hi : decodeStep x.regs.parseState = .instr i) (ht : exec i s = .next t)
    (hy : t.decoders[d]? = some y) (he : y.regs.parseState = psError) :
    ∃ b, x.regs.parseState = psStart ∧ f.chunk[f.p]? = some b ∧ header1Legal b = false ∧
      t = s.afterHeader d x f (startStep b x.regs) := by
  have hl := hs.feedLocal h
  cases hh : isHeaderState x.regs.parseState with
  | true =>
    have hb := List.getElem?_eq_getElem (hl.header hh)
    obtain rfl : _ = t := Host.Outcome.next.inj ((exec_header h hh hb hi).symm.trans ht)
    obtain ⟨hps, hrej⟩ := State.afterHeader_in_error h.2.1 hh hy he
    exact ⟨_, hps, hb, hrej, by rw [headerAct_start _ hps]⟩
  | false =>
    have hps := hl.payload_of_not_header hh
    rw [hps] at hi
    cases hi
    obtain rfl : _ = t := Host.Outcome.next.inj ((State.payloadStep_request h hl.notInSink).symm.trans ht)
    obtain rfl := Option.some.inj ((State.sinkInvoke_decoder h).symm.trans hy)
    exact absurd he hl.notError

/-! ## Outcomes of a lawful machine (R190) -/

/-- The outcomes that are neither a fault nor one of the refusals of an instruction without a meaning. -/
def Answered : Result → Prop
  | .next _ => True
  | .fault _ => False
  | .refused .noFeedRunning => False
  | .refused (.notModelled _) => False
  | .refused _ => True

/-- The outcomes as equations that none of them satisfies (R190; log 14). -/
theorem answered_iff {r : Result} : Answered r ↔
    (∀ e, r ≠ .fault e) ∧ r ≠ .refused .noFeedRunning ∧ ∀ m, r ≠ .refused (.notModelled m) := by
  cases r with
  | next t => simp [Answered]
  | fault e => simp [Answered]
  | refused why => cases why <;> simp [Answered]

/-- The guard of INIT, FEED and RESET only adds refusals by name (R106). -/
theorem State.withIdle_answered (s : State) (d : InstId) {k : Decoder → Result} (hk : ∀ x, Answered (k x)) :
    Answered (s.withIdle d k) := by
  unfold State.withIdle
  split
  · trivial
  · split
    · trivial
    · exact hk _

/-- Every command completes or is refused by a name of its own (R100 to R106, R163, R164). -/
theorem exec_command_answered {c : RawCommand} {i : Instr} (hc : decodeCommand c = .instr i) (s : State) :
    Answered (exec i s) := by
  rcases decodeCommand_cases hc with ⟨-, rfl⟩ | ⟨-, -, rfl⟩ | ⟨-, rfl⟩ | ⟨-, rfl⟩ | ⟨-, rfl⟩ | ⟨-, rfl⟩
  · exact s.withIdle_answered c.inst fun _ => trivial
  · refine s.withIdle_answered c.inst fun _ => ?_
    split_ifs <;> trivial
  · exact s.withIdle_answered c.inst fun _ => trivial
  · cases hx : s.decoders[c.inst]? with
    | none => simp [exec, execStatus, State.decoder?, hx, Answered]
    | some x =>
      rw [exec_status hx]
      trivial
  · trivial
  · trivial

/-- A rejected command record is rejected by its code or by its chunk's length (R71, R73). -/
theorem decodeCommand_rejected {c : RawCommand} {why : DecodeError} (h : decodeCommand c = .rejected why) :
    why = .chunkLength c.inst ∨ why = .unknownCommand c.op := by
  unfold decodeCommand at h
  split_ifs at h <;> cases h
  · exact .inl rfl
  · exact .inr rfl

/-- An answer that no outstanding invocation waits for is refused (log 4). -/
theorem fetchAnswer_unexpected {s : State} {d : InstId} {code : Code}
    (hw : ¬ ∃ x f, s.decoders[d]? = some x ∧ x.feed = some f ∧ x.regs.inSink = true) :
    fetchAnswer d code s = .done (.refused (.unexpectedAnswer d)) := by
  unfold fetchAnswer
  split
  · rfl
  · split
    · rfl
    · exact if_neg fun hi => hw ⟨_, _, ‹_›, ‹_›, hi⟩

section

variable {s : State} {rest : List Input}

/-- A command record that comes next is run or refused by a name of its own. -/
theorem step_command_answered {c : RawCommand} (hr : s.running = none) (hin : s.inputs = .command c :: rest) :
    Answered (step s) := by
  cases hc : decodeCommand c with
  | instr i =>
    rw [step_command hr hin hc]
    exact exec_command_answered hc _
  | rejected why =>
    rcases decodeCommand_rejected hc with rfl | rfl <;>
      simp [step, fetch, hr, hin, fetchInput, fetchDecoded, decode, hc, Answered]

/-- A sink's answer that comes next runs its PAYLOAD step, or is refused as unexpected (R131; log 4). -/
theorem step_answer_answered {d : InstId} {code : Code} (hr : s.running = none)
    (hin : s.inputs = .answer d code :: rest) : Answered (step s) := by
  by_cases hw : ∃ x f, s.decoders[d]? = some x ∧ x.feed = some f ∧ x.regs.inSink = true
  · obtain ⟨x, f, hx, hf, hi⟩ := hw
    rw [step_answer hr hin hx hf hi]
    trivial
  · have hfetch : fetch s = fetchAnswer d code { s with inputs := rest } := by simp [fetch, hr, hin, fetchInput]
    rw [step, hfetch, fetchAnswer_unexpected (s := { s with inputs := rest }) hw]
    trivial

/-- A chunk write that lands is refused by its name or has no effect (R66, R216). -/
theorem step_chunkWrite_answered {d : InstId} {n : Nat} (hin : s.inputs = .chunkWrite d n :: rest)
    (hn : s.running = none ∨ n = 0) : Answered (step s) := by
  rw [step_chunkWrite hin hn]
  split <;> trivial

end

/-- A chunk write that is due is the next input. -/
theorem State.inputs_of_nextChunkWrite {s : State} {d : InstId} {n : Nat} (h : s.nextChunkWrite = some (d, n)) :
    ∃ rest, s.inputs = .chunkWrite d n :: rest := by
  unfold State.nextChunkWrite at h
  split at h
  · cases h
    exact ⟨_, ‹_›⟩
  · cases h

/-- The executing FEED of a lawful machine makes its parse step, no chunk write being due (R88, R120). -/
theorem State.Inv.step_feeding {s : State} (hs : s.Inv) {d : InstId} {x : Decoder} {f : Feed} (h : s.Feeding d x f)
    (hw : ∀ e, s.nextChunkWrite ≠ some (e, 0)) : ∃ t, step s = .next t := by
  have hl := hs.feedLocal h
  cases hh : isHeaderState x.regs.parseState with
  | true => exact ⟨_, step_header_tick h hw hh (List.getElem?_eq_getElem (hl.header hh))⟩
  | false => exact ⟨_, step_request_tick h hw (hl.payload_of_not_header hh) hl.notInSink⟩

/-- While a FEED executes, a step of a lawful machine is its parse step or the landing of a chunk write. -/
theorem State.Inv.step_running_answered {s : State} (hs : s.Inv) {d : InstId} (hr : s.running = some d) :
    Answered (step s) := by
  by_cases hw : ∃ e, s.nextChunkWrite = some (e, 0)
  · obtain ⟨e, he⟩ := hw
    obtain ⟨rest, hin⟩ := State.inputs_of_nextChunkWrite he
    exact step_chunkWrite_answered hin (.inr rfl)
  · obtain ⟨x, f, hx, hf, -⟩ := hs.executing d hr
    obtain ⟨t, ht⟩ := hs.step_feeding ⟨hr, hx, hf⟩ fun e he => hw ⟨e, he⟩
    rw [ht]
    trivial

/-- While no FEED executes, a step is the landing of the next input, or waits. -/
theorem step_idle_answered {s : State} (hr : s.running = none) : Answered (step s) := by
  cases hin : s.inputs with
  | nil =>
    rw [step_idle hr hin]
    trivial
  | cons inp rest =>
    cases inp with
    | command c => exact step_command_answered hr hin
    | answer d code => exact step_answer_answered hr hin
    | chunkWrite d n => exact step_chunkWrite_answered hin (.inl hr)

/-! ## Commands on two decoders (R40, R194) -/

/-- INIT, RESET and STATUS of a decoder. -/
def isLocalCommand (i : Instr) (d : InstId) : Prop := i = .reset d ∨ i = .status d ∨ ∃ ctx, i = .init d ctx

/-- Setting a decoder to what it is changes nothing in the machine. -/
theorem State.setDecoder_self {s : State} {d : InstId} {x : Decoder} (hx : s.decoders[d]? = some x) :
    s.setDecoder d x = s := by
  rw [State.setDecoder, set_self hx]

/-- Such a command that completes reads its own decoder only: wherever that decoder is in the same state, the
command gives it the same new state and answers the same. -/
theorem exec_localCommand {i : Instr} {d : InstId} (hi : isLocalCommand i d) {s s' : State} (h : exec i s = .next s') :
    ∃ x y r, s.decoders[d]? = some x ∧
      ∀ t : State, t.decoders[d]? = some x → exec i t = .next ((t.setDecoder d y).respond r) := by
  rcases hi with rfl | rfl | ⟨ctx, rfl⟩
  · obtain ⟨x, hx, hidle, -⟩ := State.withIdle_next.mp h
    exact ⟨x, _, _, hx, fun _ ht => exec_reset_idle ht hidle⟩
  · obtain ⟨x, hx, -⟩ := exec_status_next.mp h
    exact ⟨x, x, _, hx, fun t ht => by rw [exec_status ht, State.setDecoder_self ht]⟩
  · obtain ⟨x, hx, hidle, -⟩ := State.withIdle_next.mp h
    exact ⟨x, _, _, hx, fun _ ht => exec_init_idle ht hidle ctx⟩

/-! ## The obligations -/

/-- Settles O52: a FEED that executes has a parse step to make, and every input is answered or refused by its name. -/
theorem lawfulStatesNeverFault : Obligations.LawfulStatesNeverFault := by
  refine fun s hs => answered_iff.mp ?_
  cases hr : s.running with
  | none => exact step_idle_answered hr
  | some d => exact hs.step_running_answered hr

/-- Settles O45: either command finds its decoder as it was, whichever comes first. -/
theorem commandsToDifferentInstancesCommute : Obligations.CommandsToDifferentInstancesCommute := by
  intro s s1 s2 i j d e hne hi hj h1 h2
  obtain ⟨x, x', r, hx, hexecI⟩ := exec_localCommand hi h1
  obtain ⟨y, y', q, hy, hexecJ⟩ := exec_localCommand hj h2
  obtain rfl : _ = s1 := Host.Outcome.next.inj ((hexecI s hx).symm.trans h1)
  obtain rfl : _ = s2 := Host.Outcome.next.inj ((hexecJ s hy).symm.trans h2)
  refine ⟨_, _, r, q, hexecJ _ ((List.getElem?_set_ne hne).trans hy),
    hexecI _ ((List.getElem?_set_ne hne.symm).trans hx),
    List.set_comm _ _ hne, rfl, rfl, List.append_assoc .., List.append_assoc ..⟩

/-- Settles O38: of the steps that can touch the decoder, only START's on a byte that is not legal and a sink's
rejection bring it into ERROR. -/
theorem errorEntryDoesNothingElse : Obligations.ErrorEntryDoesNothingElse := by
  intro s t d x y hs h hx hy hne he
  have entered : ¬ (y.regs.parseState = x.regs.parseState ∨ y.regs.parseState = psStart) := by
    rw [he]
    exact fun h => h.elim (fun h => hne h.symm) (by decide)
  have touched : t.decoders[d]? ≠ s.decoders[d]? := by
    intro hsame
    obtain rfl : x = y := Option.some.inj (hx.symm.trans (hsame.symm.trans hy))
    exact hne he
  rcases step_cases h with ⟨e, x', i, hrun, hx', hi, ht⟩ | ⟨-, -, rfl⟩ | ⟨c, rest, i, -, -, hc, ht⟩ |
    ⟨e, code, rest, x', f, hrun, hin, hx', hf, hsink, rfl⟩ | ⟨_, _, _, -, -, -, rfl⟩
  · obtain rfl : d = e := by
      by_contra hde
      refine touched (exec_other (s := s.tick) ht ?_)
      rw [instrTarget_of_decodeStep hi, State.tick_running, hrun]
      exact fun h => hde (Option.some.inj h).symm
    obtain rfl : x = x' := Option.some.inj (hx.symm.trans hx')
    obtain ⟨x', f, hx', hf, -⟩ := hs.executing d hrun
    obtain rfl : x = x' := Option.some.inj (hx.symm.trans hx')
    have hfeed : s.Feeding d x f := ⟨hrun, hx, hf⟩
    have htick : s.tick.Inv := hs.congr rfl rfl rfl
    obtain ⟨b, hps, hb, hrej, rfl⟩ := htick.parseStep_in_error hfeed.tick hi ht hy he
    exact .inl ⟨f, b, _, hfeed, hps, hb, reserved_of_not_legal hrej, rfl, State.afterHeader_rejected _ _ _ _ hrej⟩
  · exact absurd rfl touched
  · exact absurd (exec_command_parseState hc ht hx hy) entered
  · obtain rfl : d = e := by
      by_contra hde
      obtain ⟨_, htouch, -⟩ := State.sinkAnswered_touched { s with inputs := rest } e x' f code
      exact touched (htouch.getElem?_other hde)
    obtain rfl : x = x' := Option.some.inj (hx.symm.trans hx')
    obtain ⟨-, -, -, hfeed⟩ := hs.lawful d x hx
    obtain ⟨-, -, -, -, -, hps, -⟩ := hfeed f hf
    have hcode : code ≠ resSuccess := by
      rintro rfl
      exact entered (State.sinkAnswered_accepted_parseState (s := { s with inputs := rest }) hx hy)
    exact .inr ⟨f, code, rest, hrun, hin, hf, hps hsink, hcode, State.sinkAnswered_rejected hcode⟩
  · exact absurd rfl touched

end Sys2Proof.Machine

end

/-! # Reset and hazards: RESET against INIT, the wait for the sink, the end of a FEED (spec/70_reset_and_hazards.md) -/

section

namespace Sys2Proof.Machine

/-! ## RESET and a fresh INIT (R211) -/

/-- Clearing leaves a bound decoder's registers as a fresh INIT with its own sink does. -/
theorem Regs.clear_of_bound {r : Regs} (h : r.sinkBound = true) :
    r.clear = { r.clear with sinkBound := true, sinkCtx := r.sinkCtx } := by
  rw [← h]
  rfl

/-- RESET of a bound decoder is INIT with its own sink, the refusal during an invocation included. -/
theorem exec_reset_eq_init {s : State} {d : InstId} {x : Decoder} (hx : s.decoders[d]? = some x)
    (hb : x.regs.sinkBound = true) : exec (.reset d) s = exec (.init d x.regs.sinkCtx) s := by
  cases hi : x.regs.inSink with
  | true => rw [exec_reset_reentrant hx hi, exec_init_reentrant hx hi]
  | false => rw [exec_reset_idle hx hi, exec_init_idle hx hi, ← Regs.clear_of_bound hb]

/-- After a RESET a second one completes and changes no decoder. -/
theorem exec_reset_again {s t : State} {d : InstId} (h : exec (.reset d) s = .next t) :
    ∃ u, exec (.reset d) t = .next u ∧ u.decoders = t.decoders := by
  obtain ⟨x, hx, hi, -⟩ := State.withIdle_next.mp h
  obtain rfl := Host.Outcome.next.inj ((exec_reset_idle hx hi).symm.trans h)
  have hlt := (List.getElem?_eq_some_iff.mp hx).1
  exact ⟨_, exec_reset_idle (List.getElem?_set_self hlt) rfl, List.set_set ..⟩

/-! ## The wait for a sink's answer (R217) -/

/-- A command that completes leaves a decoder with an outstanding invocation as it was: INIT, FEED and RESET of it are
refused, and STATUS writes no decoder (R105, R106). -/
theorem exec_command_waiting {c : RawCommand} {i : Instr} {s t : State} {d : InstId} {x : Decoder}
    (hc : decodeCommand c = .instr i) (h : exec i s = .next t) (hx : s.decoders[d]? = some x)
    (hi : x.regs.inSink = true) : t.decoders[d]? = some x := by
  by_cases hd : instrTarget i s = some d
  · obtain rfl := instrTarget_of_decodeCommand hc s hd
    rcases decodeCommand_cases hc with ⟨-, rfl⟩ | ⟨-, -, rfl⟩ | ⟨-, rfl⟩ | ⟨-, rfl⟩ | ⟨-, rfl⟩ | ⟨-, rfl⟩
    · cases (exec_init_reentrant hx hi _).symm.trans h
    · cases (exec_feed_reentrant hx hi _).symm.trans h
    · cases (exec_reset_reentrant hx hi).symm.trans h
    · rw [exec_status_decoders h, hx]
    · cases hd
    · cases hd
  · exact (exec_other h hd).trans hx

/-- The executing decoder of a lawful machine is another one than a decoder with an outstanding invocation (R62). -/
theorem State.Inv.running_ne_waiting {s : State} (hs : s.Inv) {d e : InstId} {x : Decoder} (hrun : s.running = some e)
    (hx : s.decoders[d]? = some x) (hi : x.regs.inSink = true) : e ≠ d := by
  rintro rfl
  obtain ⟨y, _, hy, -, hidle⟩ := hs.executing e hrun
  obtain rfl : y = x := Option.some.inj (hy.symm.trans hx)
  cases hidle.symm.trans hi

/-! ## The end of a FEED (R221, R222) -/

/-- Between commands no frame completes without another byte, so an unfinished one counts for one byte at most. -/
theorem State.Inv.frameBonus_le_one {s : State} (hs : s.Inv) {d : InstId} {x : Decoder} (hx : s.decoders[d]? = some x)
    (hf : x.feed = none) : frameBonus x.regs ≤ 1 := by
  obtain ⟨-, -, hpayload⟩ := hs.idle hx hf
  have hnot : ¬ (x.regs.parseState = psPayload ∧ x.regs.rem = 0) := by
    rintro ⟨hps, hrem⟩
    have hlt := hpayload hps
    rw [Regs.rem_eq hlt.le] at hrem
    omega
  rw [frameBonus, if_neg hnot]
  split
  · exact Nat.zero_le 1
  · exact le_rfl

/-- The FEED of decoder `d` on a chunk of `n` bytes has returned, within the bounds of R221 and R222. -/
structure FeedRun.EndsWithin (run : FeedRun) (d : InstId) (n : Nat) : Prop where
  returned : (run.state.decoders[d]?).bind Decoder.feed = none
  steps_le : run.steps ≤ n + run.frames + 1
  frames_le : run.frames ≤ (n + 1) / 2

/-- A FEED that returns at once makes no parse step and completes no frame. -/
theorem deliver_at_once {s t : State} {d : InstId} {chunk : List Byte} (h : exec (.feed d chunk) s = .next t)
    (hnone : (t.decoders[d]?).bind Decoder.feed = none) (ans : Nat → Code) :
    ∃ run, deliver ans d s chunk = some run ∧ run.EndsWithin d chunk.length := by
  refine ⟨⟨t, 0, 0⟩, ?_, hnone, Nat.zero_le _, Nat.zero_le _⟩
  rw [deliver, h]
  exact drive_done _ hnone

/-- A FEED that begins on a decoder in no FEED ends by the drive's own bounds. -/
theorem State.Inv.deliver_begun {s t : State} (hs : s.Inv) {d : InstId} {x y : Decoder} {f : Feed} {chunk : List Byte}
    (hx : s.decoders[d]? = some x) (hf : x.feed = none) (h : exec (.feed d chunk) s = .next t)
    (hq : t.nextChunkWrite = none) (hfeed : t.Feeding d y f) (hlocal : FeedLocal y f) (hregs : y.regs = x.regs)
    (hleft : f.left = chunk.length) (ans : Nat → Code) :
    ∃ run, deliver ans d s chunk = some run ∧ run.EndsWithin d chunk.length := by
  have hmeasure : feedMeasure y f ≤ 2 * chunk.length + 2 := by
    unfold feedMeasure
    split <;> omega
  obtain ⟨run, j, hrun, hnone, hframes, hsteps, hj⟩ :=
    drive_ends ans d _ t y f 0 0 (4 * chunk.length + 4) hfeed hq hlocal hmeasure (by omega)
  have hbonus := hs.frameBonus_le_one hx hf
  rw [hregs] at hj
  refine ⟨run, ?_, hnone, by omega, by omega⟩
  rw [deliver, h]
  exact hrun

/-- A FEED of a bound decoder ends, whatever its sink answers: in ERROR, or with no byte for its header, it returns at
once. -/
theorem State.Inv.deliver_ends {s : State} (hs : s.Inv) (hq : s.nextChunkWrite = none) {d : InstId} {x : Decoder}
    (hx : s.decoders[d]? = some x) (hf : x.feed = none) (hb : x.regs.sinkBound = true) (ans : Nat → Code)
    (chunk : List Byte) : ∃ run, deliver ans d s chunk = some run ∧ run.EndsWithin d chunk.length := by
  obtain ⟨hi, hl, -⟩ := hs.idle hx hf
  by_cases he : x.regs.parseState = psError
  · exact deliver_at_once (exec_feed_error chunk hx hi hb he) (by rw [State.respond_decoders, hx]; exact hf) ans
  · have hexec := exec_feed_takes chunk hx hi hb he
    rcases resume_local (f := { chunk := chunk, p := 0, answer := none }) hx hl he hi (Nat.zero_le _) with
      ⟨hend, -, -⟩ | ⟨hfeed, hlocal, -⟩
    · exact deliver_at_once (hexec.trans (congrArg _ hend)) (endFeed_no_feed hx) ans
    · exact hs.deliver_begun hx hf hexec (State.nextChunkWrite_resume hq) hfeed hlocal rfl rfl ans

/-! ## The obligations -/

/-- Settles O9: either command clears the registers, and clearing twice is clearing once. -/
theorem resetIsAFreshInit : Obligations.ResetIsAFreshInit :=
  fun _ _ _ hx hb => ⟨exec_reset_eq_init hx hb, fun _ => exec_reset_again⟩

/-- Settles O34: the decoder does not wait while its own FEED executes, a command on it is refused or writes nothing, and
another sink's answer touches another decoder. -/
theorem onlyTheAnswerEndsTheWait : Obligations.OnlyTheAnswerEndsTheWait := by
  refine ⟨fun s t d x hs hx hi h hans => ?_, fun _ => step_idle⟩
  rcases step_cases h with ⟨e, _, i, hrun, -, hstep, ht⟩ | ⟨-, -, rfl⟩ | ⟨c, rest, i, -, -, hc, ht⟩ |
    ⟨e, code, rest, y, f, hrun, hin, -, -, -, rfl⟩ | ⟨_, _, _, -, -, -, rfl⟩
  · have hother : instrTarget i s.tick ≠ some d := by
      rw [instrTarget_of_decodeStep hstep, State.tick_running, hrun]
      exact fun hed => hs.running_ne_waiting hrun hx hi (Option.some.inj hed)
    exact (exec_other ht hother).trans hx
  · exact hx
  · exact exec_command_waiting hc ht hx hi
  · have hne : d ≠ e := by
      rintro rfl
      exact hans code rest hrun hin
    obtain ⟨_, htouch, -⟩ := State.sinkAnswered_touched { s with inputs := rest } e y f code
    exact (htouch.getElem?_other hne).trans hx
  · exact hx

/-- Settles O56: every delivered FEED ends within its bounds. -/
theorem feedsEnd : Obligations.FeedsEnd := by
  intro ans d s chunk x hs _ hq hx hf hb
  obtain ⟨run, hrun, hends⟩ := hs.deliver_ends hq hx hf hb ans chunk
  exact ⟨run, hrun, hends.returned, hends.steps_le⟩

/-- Settles O57: the run is the one that ends within its bounds. -/
theorem framesPerChunkBounded : Obligations.FramesPerChunkBounded := by
  intro ans d s chunk run h hrun
  obtain ⟨hs, -, hq, x, hx, hf, hb, -⟩ := h
  obtain ⟨run', hrun', hends⟩ := hs.deliver_ends hq hx hf hb ans chunk
  obtain rfl : run' = run := Option.some.inj (hrun'.symm.trans hrun)
  exact hends.frames_le

end Sys2Proof.Machine

end
